-- ==== Sys2Proof/Word.lean ====
section
/-! DEFINITION. The word types of 00_scope.md R9 and the plain-data types that hold the values of
`NUM` (R8): supplied numbers, levels and times, frequencies and phases, amplitudes. Only the types
stand here. The real number each stands for is in `Sys2Proof/Machine/Reference.lean`, every operation
on them in `Sys2Proof/Machine/Num.lean`. -/

namespace Sys2Proof

/-- A command word, 30_encoding.md R90. -/
abbrev CommandWord := BitVec 64
/-- A 32-bit sample count, offset, stage length or rate, 00_scope.md R9. -/
abbrev Counter := BitVec 32
/-- A voice slot index, the element type of `AL`, 10_state.md R26. -/
abbrev Slot := BitVec 7
/-- A pitch identifier, 00_scope.md R9. -/
abbrev Note := BitVec 7
/-- A note intensity, 0 is the free-slot sentinel, 10_state.md R24. -/
abbrev Velocity := BitVec 7

/-- `DB2LIN` (44_parameter_snapshot.md R221): the default `10^(x/20)`, or another law. Entry 7. -/
inductive GainLaw where
  | decibel
  | other (law : Nat)
deriving DecidableEq, Repr

/-- One `NUM` that the host or the configuration supplies, 10_state.md R30: a rational number, or the
real number that stands behind a name. Every real number can stand behind a name. Entry 3. -/
inductive Datum where
  | rational (q : Rat)
  | named (n : Nat)
deriving DecidableEq, Repr

/-- A level or a time: `rat` plus, for each `(n, c)` of `parts`, `c` times the real of name `n`. The
operations of `Machine/Num.lean` keep the names rising and the coefficients not 0. Entry 3. -/
structure Scalar where
  rat : Rat
  parts : List (Nat × Rat)
deriving DecidableEq, Repr, Inhabited

/-- What a frequency or a phase is a multiple of, besides 1: `2^(k/12)`, or a named real. Entry 4. -/
inductive Generator where
  | root (k : Fin 12)
  | named (n : Nat)
deriving DecidableEq, Repr, Inhabited

/-- A frequency in hertz, a phase or an increment: the real number `rat + coef * gen`. Every real
number is one, since every real number can stand behind a name. Entry 4. -/
structure Pitch where
  rat : Rat
  coef : Rat
  gen : Generator
deriving DecidableEq, Repr, Inhabited

/-- A real factor of an amplitude that is no power of ten and no cosine: a named real, or the gain
of a law at a number of decibels. Entry 5. -/
inductive Factor where
  | named (n : Nat)
  | gain (law : GainLaw) (x : Datum)
deriving DecidableEq, Repr

/-- One summand of an amplitude: `coef * 10^tenExp * cos(2*pi*wave/2048)` times its factors. -/
structure Term where
  factors : List Factor
  tenExp : Rat
  wave : Nat
  coef : Rat
deriving DecidableEq, Repr, Inhabited

/-- An amplitude, gain or output sample: the sum of its terms. Entries of `WT`
(40_wavetable_oscillator.md R120), the pan gains (44_parameter_snapshot.md R222), the master gain
(R221), the levels and all their sums and products are such numbers, and so is every real number,
by a named factor. Entry 5. -/
structure Amp where
  terms : List Term
deriving DecidableEq, Repr, Inhabited

end Sys2Proof
end

