-- ==== Sys2Proof/Syntax.lean ====
section
/-! DEFINITION. The commands: one constructor for each row of spec/opcode_table.json. -/

namespace Sys2Proof

/-- A command of 30_encoding.md section 3. Every bit that its encoding leaves free is an operand,
the ignored ones included, so that no bit of a word is lost (entry 21). -/
inductive Instr where
  /-- `INIT fs`, R95. -/
  | init (fs : Counter)
  /-- `BLOCK n`, R96. -/
  | block (n : Counter)
  /-- `NOTE_OFF @offset, note, vel`, R97; `vel` is ignored. -/
  | noteOff (offset : Counter) (note : Note) (vel : Velocity)
  /-- `NOTE_ON @offset, note, vel`, R98. -/
  | noteOn (offset : Counter) (note : Note) (vel : Velocity)
  /-- `EVENT_K7`, R99: `KIND` is 1 followed by the bits `kind`. -/
  | eventK7 (kind : BitVec 7) (rest : BitVec 52)
  /-- `EVENT_K6`, R99: `KIND` is 01 followed by the bits `kind`. -/
  | eventK6 (kind : BitVec 6) (rest : BitVec 52)
  /-- `EVENT_K5`, R99: `KIND` is 001 followed by the bits `kind`. -/
  | eventK5 (kind : BitVec 5) (rest : BitVec 52)
  /-- `EVENT_K4`, R99: `KIND` is 0001 followed by the bits `kind`. -/
  | eventK4 (kind : BitVec 4) (rest : BitVec 52)
  /-- `EVENT_K3`, R99: `KIND` is 00001 followed by the bits `kind`. -/
  | eventK3 (kind : BitVec 3) (rest : BitVec 52)
  /-- `EVENT_K2`, R99: `KIND` is 000001 followed by the bits `kind`. -/
  | eventK2 (kind : BitVec 2) (rest : BitVec 52)
  /-- `EVENT_K1`, R99: `KIND` is 0000001 followed by the bit `kind`. -/
  | eventK1 (kind : BitVec 1) (rest : BitVec 52)
  /-- `END`, R100. -/
  | endBlock
deriving DecidableEq, Repr

end Sys2Proof
end

