-- ==== Sys2Proof/WellFormed.lean ====
section
/-! DEFINITION. The one condition on operands that the operand widths do not already say. -/

namespace Sys2Proof

/-- A command that some word encodes. `NOTE` and `VEL` "cannot be out of range: they are 7-bit
fields" (30_encoding.md R102); the only check left is `ARG >= 1` of INIT (R95, R101 (e)). -/
def Instr.wellFormed : Instr → Bool
  | .init fs => fs != 0#32
  | .block _ => true
  | .noteOff _ _ _ => true
  | .noteOn _ _ _ => true
  | .eventK7 _ _ => true
  | .eventK6 _ _ => true
  | .eventK5 _ _ => true
  | .eventK4 _ _ => true
  | .eventK3 _ _ => true
  | .eventK2 _ _ => true
  | .eventK1 _ _ => true
  | .endBlock => true

end Sys2Proof
end

