-- ==== Sys2Proof/Decode.lean ====
section
/-! DEFINITION. The decoder of 30_encoding.md, total on 64-bit words, and the encoder. -/

namespace Sys2Proof

/-- Why a word is malformed: the clauses (a) to (e) of 30_encoding.md R101. -/
inductive Malformed where
  /-- (a) `OP` is 0x0 or in 0x5..0xF. -/
  | reservedOp
  /-- (b) `OP` is 1, 2 or 4 and one of bits 59:32 is set. -/
  | reservedBits
  /-- (c) `OP` is 4 and `ARG` is not 0. -/
  | endArgument
  /-- (d) `OP` is 3, `KIND <= 1`, and one of `RSV0`, `Z1`, `Z0` is set. -/
  | eventReservedBits
  /-- (e) `OP` is 1 and `ARG` is 0. -/
  | zeroRate
deriving DecidableEq, Repr

/-- `OP`, bits 63:60, R91. -/
def wordOp (w : CommandWord) : BitVec 4 := w.extractLsb' 60 4
/-- `KIND`, bits 59:52, R91. -/
def wordKind (w : CommandWord) : BitVec 8 := w.extractLsb' 52 8
/-- `RSV0`, bits 51:48, R91. -/
def wordRsv0 (w : CommandWord) : BitVec 4 := w.extractLsb' 48 4
/-- `Z1`, bit 47, R91. -/
def wordZ1 (w : CommandWord) : BitVec 1 := w.extractLsb' 47 1
/-- `NOTE`, bits 46:40, R91. -/
def wordNote (w : CommandWord) : Note := w.extractLsb' 40 7
/-- `Z0`, bit 39, R91. -/
def wordZ0 (w : CommandWord) : BitVec 1 := w.extractLsb' 39 1
/-- `VEL`, bits 38:32, R91. -/
def wordVel (w : CommandWord) : Velocity := w.extractLsb' 32 7
/-- `ARG`, bits 31:0, R91. -/
def wordArg (w : CommandWord) : Counter := w.extractLsb' 0 32
/-- Bits 59:32, zero in every command that is no event, R95, R96, R100. -/
def wordMiddle (w : CommandWord) : BitVec 28 := w.extractLsb' 32 28
/-- Bits 51:0, ignored in an event of unrecognised kind, R99. -/
def wordRest (w : CommandWord) : BitVec 52 := w.extractLsb' 0 52

/-- An event of unrecognised kind, split by the highest set bit of `KIND[7:1]` as R99 splits it. -/
def decodeUnrecognised (w : CommandWord) : Instr :=
  let kind := wordKind w
  let rest := wordRest w
  if 0x80#8 ≤ kind then .eventK7 (w.extractLsb' 52 7) rest
  else if 0x40#8 ≤ kind then .eventK6 (w.extractLsb' 52 6) rest
  else if 0x20#8 ≤ kind then .eventK5 (w.extractLsb' 52 5) rest
  else if 0x10#8 ≤ kind then .eventK4 (w.extractLsb' 52 4) rest
  else if 0x08#8 ≤ kind then .eventK3 (w.extractLsb' 52 3) rest
  else if 0x04#8 ≤ kind then .eventK2 (w.extractLsb' 52 2) rest
  else .eventK1 (w.extractLsb' 52 1) rest

/-- An event, `OP = 3`: by `KIND`, R94; clause (d) of R101 for the two recognised kinds. -/
def decodeEvent (w : CommandWord) : Except Malformed Instr :=
  if 2#8 ≤ wordKind w then .ok (decodeUnrecognised w)
  else if wordRsv0 w ≠ 0#4 ∨ wordZ1 w ≠ 0#1 ∨ wordZ0 w ≠ 0#1 then .error .eventReservedBits
  else if wordKind w = 0#8 then .ok (.noteOff (wordArg w) (wordNote w) (wordVel w))
  else .ok (.noteOn (wordArg w) (wordNote w) (wordVel w))

/-- The decoder: "by its `OP` field alone, then, for `OP = 3`, by `KIND`" (R90). -/
def decode (w : CommandWord) : Except Malformed Instr :=
  if wordOp w = 1#4 then
    if wordMiddle w ≠ 0#28 then .error .reservedBits
    else if wordArg w = 0#32 then .error .zeroRate
    else .ok (.init (wordArg w))
  else if wordOp w = 2#4 then
    if wordMiddle w ≠ 0#28 then .error .reservedBits
    else .ok (.block (wordArg w))
  else if wordOp w = 3#4 then decodeEvent w
  else if wordOp w = 4#4 then
    if wordMiddle w ≠ 0#28 then .error .reservedBits
    else if wordArg w ≠ 0#32 then .error .endArgument
    else .ok .endBlock
  else .error .reservedOp

/-- The word of a command, written field by field from the patterns of R95 to R100. -/
def encode : Instr → CommandWord
  | .init fs => 1#4 ++ 0#8 ++ 0#4 ++ 0#1 ++ 0#7 ++ 0#1 ++ 0#7 ++ fs
  | .block n => 2#4 ++ 0#8 ++ 0#4 ++ 0#1 ++ 0#7 ++ 0#1 ++ 0#7 ++ n
  | .noteOff offset note vel => 3#4 ++ 0#8 ++ 0#4 ++ 0#1 ++ note ++ 0#1 ++ vel ++ offset
  | .noteOn offset note vel => 3#4 ++ 1#8 ++ 0#4 ++ 0#1 ++ note ++ 0#1 ++ vel ++ offset
  | .eventK7 kind rest => 3#4 ++ 1#1 ++ kind ++ rest
  | .eventK6 kind rest => 3#4 ++ 1#2 ++ kind ++ rest
  | .eventK5 kind rest => 3#4 ++ 1#3 ++ kind ++ rest
  | .eventK4 kind rest => 3#4 ++ 1#4 ++ kind ++ rest
  | .eventK3 kind rest => 3#4 ++ 1#5 ++ kind ++ rest
  | .eventK2 kind rest => 3#4 ++ 1#6 ++ kind ++ rest
  | .eventK1 kind rest => 3#4 ++ 1#7 ++ kind ++ rest
  | .endBlock => 4#4 ++ 0#60

/-- The host's question about a row of spec/opcode_table.json: every row is one 64-bit word (R90),
bit 0 its least significant bit; bits at and above `nbits` are 0. -/
def decodeTableWord (nbits w : Nat) : Option Instr :=
  match decode (BitVec.ofNat 64 (w % 2 ^ nbits)) with
  | .ok i => some i
  | .error _ => none

end Sys2Proof
end

