-- ==== Sys2Proof/Config.lean ====
section
/-! DEFINITION. The parameters of 00_scope.md R7, and the constants that this spec leaves to an
implementation. An `opaque` constant has no body: no proof can learn its value. -/

namespace Sys2Proof

/-- The number domain `NUM` (00_scope.md R8, 93_implementation_defined.md U1): the exact reals of
the reference semantics, or an implementation's rounding format, each operation of which is an
uninterpreted function. Entry 2. -/
inductive NumMode where
  | exactReals
  | rounded (format : Nat)
deriving DecidableEq, Repr

/-- The four operations of `NUM`, 00_scope.md R14. -/
inductive ArithOp where
  | add
  | sub
  | mul
  | div
deriving DecidableEq, Repr

/-- `VEL0_POLICY`, 42_voice_allocator.md R176. Entry 9. -/
inductive Vel0Policy where
  | asNoteOff
  | refuse
deriving DecidableEq, Repr

/-- "Parameters the model takes as arguments", 00_scope.md R7. They stand in `State.params`; no
command writes them (10_state.md R37). Entry 8. -/
structure Params where
  /-- `NUM` and its operations, R8. -/
  num : NumMode
  /-- `FREQ[0..127]` in hertz, 10_state.md R33: any table of reals. -/
  freq : Vector Pitch 128
  /-- `ATTACK_LEVEL`, 44_parameter_snapshot.md R225. -/
  attackLevel : Datum
  /-- `DB2LIN`, R221. -/
  gainLaw : GainLaw
  /-- `VEL0_POLICY`, R176. -/
  vel0Policy : Vel0Policy
deriving DecidableEq, Repr

/-! ## The rounding formats, 93_implementation_defined.md U1, entry 2

The first argument of each is the format. -/

/-- A constant of a rule, or an integer, taken into the format as a level or a time. -/
opaque Config.scalarLiteral : Nat → Rat → Scalar
/-- One operation on levels and times. -/
opaque Config.scalarOp : Nat → ArithOp → Scalar → Scalar → Scalar
/-- `<` on levels and times. -/
opaque Config.scalarLt : Nat → Scalar → Scalar → Bool
/-- `<=` on levels and times. -/
opaque Config.scalarLe : Nat → Scalar → Scalar → Bool
/-- `floor` of a level or a time. -/
opaque Config.scalarFloor : Nat → Scalar → Int
/-- A constant of a rule, or an integer, taken into the format as a frequency or a phase. -/
opaque Config.pitchLiteral : Nat → Rat → Pitch
/-- One operation on frequencies and phases. -/
opaque Config.pitchOp : Nat → ArithOp → Pitch → Pitch → Pitch
/-- `floor` of a phase. -/
opaque Config.pitchFloor : Nat → Pitch → Int
/-- The constant `pi`, 00_scope.md R14. -/
opaque Config.pi : Nat → Pitch
/-- A constant of a rule taken into the format as an amplitude. -/
opaque Config.ampLiteral : Nat → Rat → Amp
/-- One operation on amplitudes. -/
opaque Config.ampOp : Nat → ArithOp → Amp → Amp → Amp
/-- `WT[k]` in the format, 40_wavetable_oscillator.md R120. -/
opaque Config.tableEntry : Nat → Nat → Amp
/-- What the format computes for `DB2LIN`, 44_parameter_snapshot.md R221. Entry 7. -/
opaque Config.roundedGain : Nat → GainLaw → Datum → Amp
/-- Whether an amplitude of the format is above 0. Entry 7. -/
opaque Config.ampPositive : Nat → Amp → Bool

/-! ## Values the spec does not give -/

/-- The natural logarithm of the gain of law `n` at `x` decibels: a law's gain is an unknown positive
real, 44_parameter_snapshot.md R221. Entry 7. -/
opaque Config.logGain : Nat → ℝ → ℝ

/-- A quotient by zero: the spec evaluates none (00_scope.md R14). Entry 16. -/
opaque Config.divByZero : Scalar → Scalar

/-- A frequency or phase over zero: the spec evaluates none (60_exceptions.md R243). Entry 16. -/
opaque Config.pitchDivByZero : Pitch → Pitch

/-- What a 32-bit counter holds for an integer outside 0 to 2^32 - 1: no integer operation of the
spec leaves that range (00_scope.md R9). Entry 17. -/
opaque Config.counterOutOfRange : Int → Counter

/-! ## Results that the exact types cannot hold, which no rule forms on legal data -/

/-- A product of two levels or times that both have named parts. Entry 3. -/
opaque Config.scalarProduct : Scalar → Scalar → Scalar
/-- A quotient by a level or time that has named parts. Entry 3. -/
opaque Config.scalarQuotient : Scalar → Scalar → Scalar
/-- A sum of multiples of two different generators. Entry 4. -/
opaque Config.pitchSum : Pitch → Pitch → Pitch
/-- A product of multiples of two generators. Entry 4. -/
opaque Config.pitchProduct : Pitch → Pitch → Pitch
/-- A quotient by a multiple of a generator. Entry 4. -/
opaque Config.pitchQuotient : Pitch → Pitch → Pitch

end Sys2Proof
end

