-- ==== Sys2Proof/Machine/Reference.lean ====
section
/-! DEFINITION. The real numbers that the exact values of `NUM` stand for: "exact real arithmetic ...
is the reference semantics" (00_scope.md R8). Claims speak of these. The machine computes on the
data; where a datum has a name, the floor it needs is that of the reals (`RealNames`, entry 3). -/

namespace Sys2Proof

/-- The real number a scalar is, the reals behind the names being `value`. -/
noncomputable def Scalar.eval (value : Nat → ℝ) (x : Scalar) : ℝ :=
  (x.rat : ℝ) + (x.parts.map fun p => (p.2 : ℝ) * value p.1).sum

/-- The reals behind the names, and the floor of a quotient of scalars over them, which the machine
reads. -/
structure RealNames where
  value : Nat → ℝ
  floorQuotient : Scalar → Scalar → Int
  exact : ∀ x y, floorQuotient x y = ⌊x.eval value / y.eval value⌋

/-- Such numbers exist. -/
def RealNames.zero : RealNames where
  value := fun _ => 0
  floorQuotient x y := ⌊x.rat / y.rat⌋
  exact x y := by
    have h : ∀ z : Scalar, z.eval (fun _ => 0) = (z.rat : ℝ) := by
      intro z
      simp [Scalar.eval]
    rw [h, h, ← Rat.cast_div, Rat.floor_cast]

/-- The real numbers behind the names: unknown, so that what is proved holds for every choice of
them. Entry 3. -/
opaque Config.realNames [Inhabited RealNames] : RealNames

def realNames : RealNames := @Config.realNames ⟨RealNames.zero⟩

/-- The real number a level or a time is. -/
noncomputable def Scalar.toReal (x : Scalar) : ℝ := x.eval realNames.value

/-- The real number that is supplied. -/
noncomputable def Datum.toReal : Datum → ℝ
  | .rational q => q
  | .named n => realNames.value n

noncomputable def Generator.toReal : Generator → ℝ
  | .root k => (2 : ℝ) ^ ((k.val : ℝ) / 12)
  | .named n => realNames.value n

/-- The real number of hertz or of table steps that a pitch is. -/
noncomputable def Pitch.toReal (x : Pitch) : ℝ := (x.rat : ℝ) + (x.coef : ℝ) * x.gen.toReal

/-- `DB2LIN` over the reals, 44_parameter_snapshot.md R221: of every law, positive, and 1 at 0. -/
noncomputable def GainLaw.toReal (law : GainLaw) (x : ℝ) : ℝ :=
  match law with
  | .decibel => (10 : ℝ) ^ (x / 20)
  | .other n => if x = 0 then 1 else Real.exp (Config.logGain n x)

noncomputable def Factor.toReal : Factor → ℝ
  | .named n => realNames.value n
  | .gain law x => law.toReal x.toReal

/-- The real number that a term is. -/
noncomputable def Term.toReal (t : Term) : ℝ :=
  (t.factors.map Factor.toReal).prod *
    ((t.coef : ℝ) * (10 : ℝ) ^ (t.tenExp : ℝ) * Real.cos (2 * Real.pi * t.wave / 2048))

/-- The real amplitude that an `Amp` is. -/
noncomputable def Amp.toReal (a : Amp) : ℝ := (a.terms.map Term.toReal).sum

/-- Two pitches whose sum is a pitch: a phase and its own increment are such (entry 4). -/
def Pitch.Summable (x y : Pitch) : Prop := x.coef = 0 ∨ y.coef = 0 ∨ x.gen = y.gen

end Sys2Proof
end

