-- ==== Sys2Proof/Machine/Num.lean ====
section
/-! DEFINITION. The operations of `NUM` (00_scope.md R8, R14) on its three carriers: scalars (levels
and times), pitches (frequencies and phases), amplitudes. In `NumMode.exactReals` they are those of
the reals. In `NumMode.rounded f` each is the format's own uninterpreted operation: nothing is assumed
of it (93_implementation_defined.md U1). Constants of the rules (0, 1, -1, 1/2, 2, 256, 1000, 2048)
and integers (indices, durations, `FS`, the quotient of a modulo) are taken into `NUM` by one
operation each carrier has, `lit`, `pitchLit`, `ampLit`, so a rounding format treats all of them
alike: the spec does not say whether it rounds them, and this is the model's choice (entry 2). A value
copied from a port, `FREQ` or `ATTACK_LEVEL` is a `NUM` already and stays as it is. -/

namespace Sys2Proof

/-! ## Scalars: levels and times -/

def Scalar.ofRat (q : Rat) : Scalar := ⟨q, []⟩

/-- A supplied number as a scalar. -/
def Datum.toScalar : Datum → Scalar
  | .rational q => ⟨q, []⟩
  | .named n => ⟨0, [(n, 1)]⟩

/-- Add one multiple of a named real to a list of them. -/
def addPart (p : Nat × Rat) : List (Nat × Rat) → List (Nat × Rat)
  | [] => if p.2 = 0 then [] else [p]
  | r :: rs =>
    if p.1 = r.1 then
      if p.2 + r.2 = 0 then rs else (r.1, p.2 + r.2) :: rs
    else if p.1 < r.1 then
      if p.2 = 0 then r :: rs else p :: r :: rs
    else r :: addPart p rs

def Scalar.add (x y : Scalar) : Scalar := ⟨x.rat + y.rat, x.parts.foldr addPart y.parts⟩

/-- The product with a rational. -/
def Scalar.scale (q : Rat) (x : Scalar) : Scalar :=
  if q = 0 then ⟨0, []⟩ else ⟨q * x.rat, x.parts.map fun p => (p.1, q * p.2)⟩

def Scalar.sub (x y : Scalar) : Scalar := x.add (y.scale (-1))

/-- The product; in every product of the rules one operand is a rational (entry 3). -/
def Scalar.mul (x y : Scalar) : Scalar :=
  if y.parts = [] then x.scale y.rat
  else if x.parts = [] then y.scale x.rat
  else Config.scalarProduct x y

/-- `floor(x / y)` over the reals, 00_scope.md R14. -/
def Scalar.floorQuotient (x y : Scalar) : Int :=
  if x.parts = [] ∧ y.parts = [] then ⌊x.rat / y.rat⌋ else realNames.floorQuotient x y

def Scalar.floor (x : Scalar) : Int := x.floorQuotient (.ofRat 1)

/-- `x < y`: the floor of `x - y` is negative. -/
def Scalar.lt (x y : Scalar) : Bool := decide ((x.sub y).floor < 0)

def Scalar.le (x y : Scalar) : Bool := !y.lt x

def Scalar.isZero (x : Scalar) : Bool := x.le (.ofRat 0) && (Scalar.ofRat 0).le x

/-- The real number that is supplied is 0, be it written as a rational or by a name. -/
def Datum.isZero (x : Datum) : Bool := x.toScalar.isZero

/-- `/`, "used only where the divisor is proved non-zero" (R14). In every quotient that a rule stores
the divisor is a rational (entries 3, 16). -/
def Scalar.div (x y : Scalar) : Scalar :=
  if y.isZero then Config.divByZero x
  else if y.parts = [] then x.scale (1 / y.rat)
  else Config.scalarQuotient x y

def Scalar.op : ArithOp → Scalar → Scalar → Scalar
  | .add => Scalar.add
  | .sub => Scalar.sub
  | .mul => Scalar.mul
  | .div => Scalar.div

/-- A constant of a rule, or an integer operand (an index, a duration, `FS`), taken into `NUM`.
Whether a rounding `NUM` rounds it there the spec leaves open; that every one of them goes through
this operation is the model's choice, DESIGN CHOICE (entry 2). -/
def NumMode.lit : NumMode → Rat → Scalar
  | .exactReals, q => .ofRat q
  | .rounded f, q => Config.scalarLiteral f q

/-- One operation of the number domain. -/
def NumMode.op : NumMode → ArithOp → Scalar → Scalar → Scalar
  | .exactReals, o => Scalar.op o
  | .rounded f, o => Config.scalarOp f o

def NumMode.add (m : NumMode) : Scalar → Scalar → Scalar := m.op .add
def NumMode.sub (m : NumMode) : Scalar → Scalar → Scalar := m.op .sub
def NumMode.mul (m : NumMode) : Scalar → Scalar → Scalar := m.op .mul
def NumMode.div (m : NumMode) : Scalar → Scalar → Scalar := m.op .div

def NumMode.lt : NumMode → Scalar → Scalar → Bool
  | .exactReals => Scalar.lt
  | .rounded f => Config.scalarLt f

def NumMode.le : NumMode → Scalar → Scalar → Bool
  | .exactReals => Scalar.le
  | .rounded f => Config.scalarLe f

def NumMode.floor : NumMode → Scalar → Int
  | .exactReals => Scalar.floor
  | .rounded f => Config.scalarFloor f

/-- `floor(a * (x / y))` for an integer `a`, 41_envelope.md R150. Over the reals it is one floor of
one quotient, since `x / y` itself need be no scalar (entry 3). -/
def NumMode.floorMulDiv (m : NumMode) (a : Nat) (x y : Scalar) : Int :=
  match m with
  | .exactReals =>
    if y.isZero then ((Config.divByZero x).scale a).floor else (x.scale a).floorQuotient y
  | .rounded _ => m.floor (m.mul (m.lit a) (m.div x y))

/-! ## Pitches: frequencies and phases -/

/-- `rat + coef * gen` with an absent multiple written one way. -/
def Pitch.norm (rat coef : Rat) (gen : Generator) : Pitch :=
  if gen = .root 0 then ⟨rat + coef, 0, .root 0⟩
  else if coef = 0 then ⟨rat, 0, .root 0⟩
  else ⟨rat, coef, gen⟩

def Pitch.ofRat (q : Rat) : Pitch := ⟨q, 0, .root 0⟩

/-- The sum; exact unless the two are multiples of different generators (entry 4). -/
def Pitch.add (x y : Pitch) : Pitch :=
  if y.coef = 0 then Pitch.norm (x.rat + y.rat) x.coef x.gen
  else if x.coef = 0 then Pitch.norm (x.rat + y.rat) y.coef y.gen
  else if x.gen = y.gen then Pitch.norm (x.rat + y.rat) (x.coef + y.coef) x.gen
  else Config.pitchSum x y

/-- The product with a rational. -/
def Pitch.scale (q : Rat) (x : Pitch) : Pitch := Pitch.norm (q * x.rat) (q * x.coef) x.gen

def Pitch.sub (x y : Pitch) : Pitch := x.add (y.scale (-1))

/-- The product; in every product of the rules one operand is a rational (entry 4). -/
def Pitch.mul (x y : Pitch) : Pitch :=
  if y.coef = 0 then x.scale y.rat
  else if x.coef = 0 then y.scale x.rat
  else Config.pitchProduct x y

/-- The quotient; in every quotient of the rules the divisor is a rational (entries 4, 16). -/
def Pitch.div (x y : Pitch) : Pitch :=
  if y.coef = 0 then if y.rat = 0 then Config.pitchDivByZero x else x.scale (1 / y.rat)
  else Config.pitchQuotient x y

/-- Search for the twelfth root of `n` below `r + 2^bits`, highest bit first. -/
def rootSearch (n : Nat) : (bits r : Nat) → Nat
  | 0, r => r
  | bits + 1, r => rootSearch n bits (if (r + 2 ^ bits) ^ 12 ≤ n then r + 2 ^ bits else r)

/-- The greatest `r` with `r^12 <= n`. -/
def twelfthRoot (n : Nat) : Nat := rootSearch n (n.log2 / 12 + 1) 0

/-- `floor(c * 2^(k/12))` for an integer `c`, by the twelfth root of `c^12 * 2^k`. -/
def floorTimesRoot (c : Int) (k : Nat) : Int :=
  let n := c.natAbs ^ 12 * 2 ^ k
  let r := twelfthRoot n
  if 0 ≤ c then r else if r ^ 12 = n then -r else -(r + 1 : Nat)

/-- `floor(rat + coef * 2^(k/12))`: over the common denominator, `floor((p + x) / d) =
floor((p + floor(x)) / d)` for integers `p` and `d > 0`. -/
def floorWithRoot (rat coef : Rat) (k : Nat) : Int :=
  let d : Int := rat.den * coef.den
  let p : Int := rat.num * coef.den
  let c : Int := coef.num * rat.den
  (p + floorTimesRoot c k) / d

/-- `floor`, 00_scope.md R14. -/
def Pitch.floor (x : Pitch) : Int :=
  match x.gen with
  | .root k => floorWithRoot x.rat x.coef k
  | .named n => Scalar.floor ⟨x.rat, addPart (n, x.coef) []⟩

def Pitch.op : ArithOp → Pitch → Pitch → Pitch
  | .add => Pitch.add
  | .sub => Pitch.sub
  | .mul => Pitch.mul
  | .div => Pitch.div

/-- A constant of a rule, or an integer operand (`FS`, the quotient of a modulo), taken into `NUM`;
the same DESIGN CHOICE (entry 2). -/
def NumMode.pitchLit : NumMode → Rat → Pitch
  | .exactReals, q => .ofRat q
  | .rounded f, q => Config.pitchLiteral f q

/-- One operation of the number domain. -/
def NumMode.pitchOp : NumMode → ArithOp → Pitch → Pitch → Pitch
  | .exactReals, o => Pitch.op o
  | .rounded f, o => Config.pitchOp f o

def NumMode.pitchAdd (m : NumMode) : Pitch → Pitch → Pitch := m.pitchOp .add
def NumMode.pitchSub (m : NumMode) : Pitch → Pitch → Pitch := m.pitchOp .sub
def NumMode.pitchMul (m : NumMode) : Pitch → Pitch → Pitch := m.pitchOp .mul
def NumMode.pitchDiv (m : NumMode) : Pitch → Pitch → Pitch := m.pitchOp .div

def NumMode.pitchFloor : NumMode → Pitch → Int
  | .exactReals => Pitch.floor
  | .rounded f => Config.pitchFloor f

/-- `x mod p = x - p * floor(x / p)`, 00_scope.md R14: quotient, product and difference are the
domain's own, as the rule writes them, and the integer `floor(x / p)` is taken into `NUM` for the
product (DESIGN CHOICE, entry 2). -/
def NumMode.pitchMod (m : NumMode) (x p : Pitch) : Pitch :=
  m.pitchSub x (m.pitchMul p (m.pitchLit (m.pitchFloor (m.pitchDiv x p))))

/-- `2*pi`, one period: in a rounding `NUM` the radians of the rules, the product of 2 and `pi`
wherever a rule writes it (entry 2); in exact arithmetic the 2048 table steps that
40_wavetable_oscillator.md R121 lets a model hold instead (entry 1). -/
def NumMode.fullTurn (m : NumMode) : Pitch :=
  match m with
  | .exactReals => .ofRat 2048
  | .rounded f => m.pitchMul (m.pitchLit 2) (Config.pi f)

/-! ## Amplitudes -/

def Amp.zero : Amp := ⟨[]⟩

/-- The order of the keys of an amplitude's terms. -/
def Term.keyLt (t u : Term) : Bool :=
  decide (t.tenExp < u.tenExp) || (decide (t.tenExp = u.tenExp) && decide (t.wave < u.wave))

def Term.sameKey (t u : Term) : Bool :=
  decide (t.tenExp = u.tenExp) && decide (t.wave = u.wave) && decide (t.factors = u.factors)

/-- Add one term to a sorted list of terms; zero coefficients are not kept. -/
def insertTerm (t : Term) : List Term → List Term
  | [] => if t.coef = 0 then [] else [t]
  | u :: us =>
    if t.sameKey u then
      if t.coef + u.coef = 0 then us else ⟨u.factors, u.tenExp, u.wave, t.coef + u.coef⟩ :: us
    else if t.keyLt u then
      if t.coef = 0 then u :: us else t :: u :: us
    else u :: insertTerm t us

def Amp.ofTerms (ts : List Term) : Amp := ⟨ts.foldr insertTerm []⟩

def Amp.add (a b : Amp) : Amp := ⟨a.terms.foldr insertTerm b.terms⟩

/-- A rational as an amplitude. -/
def Amp.ofRat (q : Rat) : Amp := Amp.ofTerms [⟨[], 0, 0, q⟩]

/-- A level as an amplitude. -/
def Amp.ofScalar (x : Scalar) : Amp :=
  Amp.ofTerms (⟨[], 0, 0, x.rat⟩ :: x.parts.map fun p => ⟨[.named p.1], 0, 0, p.2⟩)

/-- `cos(2*pi*n/2048)` is `sign * cos(2*pi*j/2048)` with `j < 512`, or 0: the symmetries of
40_wavetable_oscillator.md R120. The result is `(sign, j)`. -/
def foldWave (n : Nat) : Int × Nat :=
  let m := n % 2048
  let h := if 1024 < m then 2048 - m else m
  if h = 512 then (0, 0) else if 512 < h then (-1, 1024 - h) else (1, h)

/-- The term `c * 10^e * cos(2*pi*n/2048)` with the factors `fs`. -/
def cosTerm (fs : List Factor) (e c : Rat) (n : Nat) : Term :=
  let f := foldWave n
  ⟨fs, e, f.2, f.1 * c⟩

/-- The integer powers of ten. -/
def tenPow (z : Int) : Rat := if 0 ≤ z then (10 : Rat) ^ z.toNat else 1 / (10 : Rat) ^ (-z).toNat

/-- The product of two terms: `10^d * 10^e = 10^(d+e)`, its whole part moved into the coefficient,
and `cos x * cos y = (cos (x+y) + cos (x-y)) / 2`. -/
def mulTerm (t u : Term) : List Term :=
  let e := t.tenExp + u.tenExp
  let c := t.coef * u.coef * tenPow ⌊e⌋ / 2
  let frac := e - ⌊e⌋
  let fs := t.factors ++ u.factors
  [cosTerm fs frac c (t.wave + u.wave), cosTerm fs frac c ((t.wave - u.wave) + (u.wave - t.wave))]

def Amp.mul (a b : Amp) : Amp :=
  Amp.ofTerms (a.terms.flatMap fun t => b.terms.flatMap fun u => mulTerm t u)

/-- `sin(2*pi*k/2048)`: the cosine three quarters of a period on. -/
def sineEntry (k : Nat) : Amp := Amp.ofTerms [cosTerm [] 0 1 (k + 1536)]

/-- `10^e`, its whole part in the coefficient. -/
def tenToThe (e : Rat) : Amp := Amp.ofTerms [⟨[], e - ⌊e⌋, 0, tenPow ⌊e⌋⟩]

/-- A constant of a rule taken into `NUM`; the same DESIGN CHOICE (entry 2). -/
def NumMode.ampLit : NumMode → Rat → Amp
  | .exactReals, q => .ofRat q
  | .rounded f, q => Config.ampLiteral f q

def NumMode.ampAdd : NumMode → Amp → Amp → Amp
  | .exactReals => Amp.add
  | .rounded f => Config.ampOp f .add

def NumMode.ampMul : NumMode → Amp → Amp → Amp
  | .exactReals => Amp.mul
  | .rounded f => Config.ampOp f .mul

/-! ## Tables and conversions of the configuration -/

/-- `WT[k]`, 40_wavetable_oscillator.md R120: the sine exactly, or as the format has it. -/
def waveTable (m : NumMode) (k : Nat) : Amp :=
  match m with
  | .exactReals => sineEntry (k % 2048)
  | .rounded f => Config.tableEntry f (k % 2048)

/-- `DB2LIN(x)` over the reals: a power of ten where `x` is rational, else the gain itself. -/
def exactGain (law : GainLaw) (x : Datum) : Amp :=
  match law, x with
  | .decibel, .rational q => tenToThe (q / 20)
  | .decibel, .named n => Amp.ofTerms [⟨[.gain .decibel (.named n)], 0, 0, 1⟩]
  | .other l, x => Amp.ofTerms [⟨[.gain (.other l) x], 0, 0, 1⟩]

/-- `DB2LIN(x)`, 44_parameter_snapshot.md R221: in every number domain `DB2LIN(0) = 1` and
`DB2LIN(x) > 0`. Three points that R221 leaves open in a rounding `NUM` are the model's choice, DESIGN
CHOICE (entry 7): a datum is 0 dB where the real number it stands for is 0, be it written as a rational
or by a name, and not where the format's comparison says so; the 1 is the format's constant; a format's
own result stands where it is positive. -/
def gainOfDecibels (m : NumMode) (law : GainLaw) (x : Datum) : Amp :=
  if x.isZero then m.ampLit 1
  else
    match m with
    | .exactReals => exactGain law x
    | .rounded f =>
      let g := Config.roundedGain f law x
      if Config.ampPositive f g then g else m.ampLit 1

/-- The default `FREQ[n] = 440 * 2^((n-69)/12)` of 00_scope.md R7 (PRESUMED: general knowledge, not
in the source, entry 6). -/
def defaultFreq (n : Nat) : Pitch :=
  let d : Int := (n : Int) - 69
  let q := d / 12
  let octave : Rat := if 0 ≤ q then 2 ^ q.toNat else 1 / 2 ^ (-q).toNat
  Pitch.norm 0 (440 * octave) (.root (Fin.ofNat 12 (d % 12).toNat))

/-- The defaults of 00_scope.md R7. Entries 6 to 9. -/
def defaultParams : Params where
  num := .exactReals
  freq := Vector.ofFn fun n => defaultFreq n.val
  attackLevel := .rational 1
  gainLaw := .decibel
  vel0Policy := .asNoteOff

end Sys2Proof
end

