-- ==== Sys2Proof/Machine/State.lean ====
section
/-! DEFINITION. The state of 10_state.md as plain data, the machine after reset, and the reasons a
step can stop. -/

namespace Sys2Proof.Machine

/-- `MODE`, 10_state.md R28. Value 3 is "reserved and unreachable" (entry 18). -/
inductive Mode where
  | uninit
  | idle
  | inBlock
deriving DecidableEq, Repr

/-- `status`, 10_state.md R23. Values 5 to 7 are reserved and unreachable (entry 18). -/
inductive Status where
  | attack
  | hold
  | decay
  | sustain
  | release
deriving DecidableEq, Repr

/-- One voice, the 14 fields of 10_state.md R21 in its order. `phase` and `phaseIncrement` are in
table steps in exact arithmetic (40_wavetable_oscillator.md R121), in radians in a rounding `NUM`
(entry 1). -/
structure Voice where
  note : Note
  velocity : Velocity
  phase : Pitch
  phaseIncrement : Pitch
  envelopeIndex : Counter
  envelopeLevel : Scalar
  releasedEnvelopeLevel : Scalar
  attackLevel : Scalar
  sustainLevel : Scalar
  attackDuration : Counter
  holdDuration : Counter
  decayDuration : Counter
  releaseDuration : Counter
  status : Status
deriving DecidableEq, Repr

/-- What a parameter port holds: any real number (entry 3), or a value that
44_parameter_snapshot.md R226 (a) excludes (entry 15). -/
inductive PortValue where
  | finite (x : Datum)
  | infinite (negative : Bool)
  | notANumber
deriving DecidableEq, Repr

/-- The ports, 10_state.md R30, in its numbering. -/
structure Ports where
  volumeDb : PortValue
  panning : PortValue
  attackMs : PortValue
  holdMs : PortValue
  decayMs : PortValue
  releaseMs : PortValue
  sustainLevel : PortValue
deriving DecidableEq, Repr

/-- The name of a port, for a host write. -/
inductive PortName where
  | volumeDb
  | panning
  | attackMs
  | holdMs
  | decayMs
  | releaseMs
  | sustainLevel
deriving DecidableEq, Repr

/-- The snapshot registers, 10_state.md R31. -/
structure Snapshot where
  vol : Amp
  panl : Amp
  panr : Amp
  att : Counter
  hld : Counter
  dec : Counter
  rel : Counter
  sus : Scalar
deriving DecidableEq, Repr

/-- An output buffer, 10_state.md R34: the elements that are not 0, by index (entry 14). -/
structure Memory where
  cells : List (Nat × Amp)
deriving DecidableEq, Repr

/-- Which output buffer. -/
inductive Channel where
  | left
  | right
deriving DecidableEq, Repr

/-- One entry of the single interleaved sequence of host actions, 20_memory.md R68. Entries 11 to
13. -/
inductive HostAction where
  /-- The host pushes a command word, 30_encoding.md R90. -/
  | command (w : CommandWord)
  /-- The host writes a parameter port, 10_state.md R30. -/
  | portWrite (port : PortName) (value : PortValue)
  /-- The host writes an element of its output buffers, 20_memory.md R60; any real number is an
  `Amp`. -/
  | outWrite (channel : Channel) (index : Counter) (value : Amp)
  /-- The reset input `RST`, 70_reset_and_hazards.md R260. -/
  | reset
deriving DecidableEq, Repr

/-- The whole machine: 10_state.md R20, and the model's own `params` and `stream`. -/
structure State where
  /-- The configuration, which no command writes (R37, entry 8). -/
  params : Params
  mode : Mode
  fs : Counter
  blen : Counter
  cur : Counter
  /-- `V[0..127]`, R21. -/
  voices : Vector Voice 128
  /-- `AL[0..127]`, R26, the stale entries at and past `AC` included. -/
  al : Vector Slot 128
  /-- `AC`, R26. -/
  ac : BitVec 8
  snap : Snapshot
  ports : Ports
  outl : Memory
  outr : Memory
  /-- The host's pending actions, next first (entry 12). -/
  stream : List HostAction
deriving DecidableEq, Repr

/-- The reasons of a fault. The spec has no fault (00_scope.md R12); this one stands for an index
that space ACTIVE does not have (20_memory.md R60, R74). -/
inductive Fault where
  /-- NOTE_ON, NOTE_OFF or END would read `AL[j]` with `j >= 128`, or a NOTE_ON would write
  `AL[128]`: raised by no state that satisfies INV1 to INV4 of 10_state.md R27. Safe (entry 19). -/
  | activeListRange
deriving DecidableEq, Repr

/-- The refusals: the reason codes of 60_exceptions.md R245. All safe: the spec gives the command
no meaning. -/
inductive Refusal where
  /-- An instruction of the table that the model gives no meaning yet: raised by no arm. Safe. -/
  | notModelled (mnemonic : String)
  /-- P1, raised by `step` for a malformed word, and by INIT 0. Safe. -/
  | malformed (why : Malformed)
  /-- P2, raised by every command that is not legal in the current `MODE`. Safe. -/
  | wrongMode
  /-- P3, raised by NOTE_ON and NOTE_OFF: `offset < CUR` or `offset >= BLEN`. Safe. -/
  | offsetOrder
  /-- P4, raised by BLOCK: a port holds an illegal value. Safe. -/
  | illegalPort
  /-- P5, raised by BLOCK: a stage is longer than `2^32 - 2` samples. Safe. -/
  | stageTooLong
  /-- P6, raised by NOTE_ON with velocity 0 under `VEL0_POLICY = refuse`. Safe. -/
  | velocityZero
deriving DecidableEq, Repr

/-- A voice after reset: "unspecified" (10_state.md R36), named values of entry 10, each inside the
range R21 gives its field. -/
def resetVoice : Voice where
  note := 0
  velocity := 0
  phase := .ofRat 0
  phaseIncrement := .ofRat 1
  envelopeIndex := 0
  envelopeLevel := .ofRat 0
  releasedEnvelopeLevel := .ofRat 0
  attackLevel := .ofRat 1
  sustainLevel := .ofRat 0
  attackDuration := 0
  holdDuration := 0
  decayDuration := 0
  releaseDuration := 0
  status := .attack

/-- The ports before the host's first write: "unspecified (host-owned)" (R36), entry 10. -/
def resetPorts : Ports where
  volumeDb := .finite (.rational 0)
  panning := .finite (.rational 0)
  attackMs := .finite (.rational 0)
  holdMs := .finite (.rational 0)
  decayMs := .finite (.rational 0)
  releaseMs := .finite (.rational 0)
  sustainLevel := .finite (.rational 0)

/-- The snapshot registers after reset: "unspecified" (R36), entry 10. -/
def resetSnapshot : Snapshot where
  vol := Amp.zero
  panl := Amp.zero
  panr := Amp.zero
  att := 0
  hld := 0
  dec := 0
  rel := 0
  sus := .ofRat 0

/-- The machine right after reset: `MODE = UNINIT` (10_state.md R36, 70_reset_and_hazards.md R260);
the tables at their constant values; every other value is entry 10's. -/
def State.reset : State where
  params := defaultParams
  mode := .uninit
  fs := 1
  blen := 0
  cur := 0
  voices := Vector.replicate 128 resetVoice
  al := Vector.replicate 128 0
  ac := 0
  snap := resetSnapshot
  ports := resetPorts
  outl := ⟨[]⟩
  outr := ⟨[]⟩
  stream := []

end Sys2Proof.Machine
end

