-- ==== Sys2Proof/Machine/Ops.lean ====
section
/-! DEFINITION. The named operations on registers and element memories: `MemRead` and `MemWrite` of
20_memory.md R74 for each space, and the host's own writes. The engine takes no exception and
returns from none (60_exceptions.md R248, R249): a refused command changes no state (R247), so there
is nothing to save and no such operation here. -/

namespace Sys2Proof.Machine

/-! ## Element memories, spaces OUTL and OUTR -/

/-- What `cells` holds at `k`; an unlisted element reads as 0 (entry 14). -/
def readCells : List (Nat × Amp) → Nat → Amp
  | [], _ => Amp.zero
  | (a, v) :: rest, k => if a = k then v else readCells rest k

/-- Replace element `k`, keeping indices rising and zeros unlisted. -/
def writeCells (k : Nat) (v : Amp) : List (Nat × Amp) → List (Nat × Amp)
  | [] => if v = Amp.zero then [] else [(k, v)]
  | (a, u) :: rest =>
    if k < a then (if v = Amp.zero then (a, u) :: rest else (k, v) :: (a, u) :: rest)
    else if k = a then (if v = Amp.zero then rest else (k, v) :: rest)
    else (a, u) :: writeCells k v rest

def Memory.read (m : Memory) (k : Nat) : Amp := readCells m.cells k

/-- A plain overwrite, 20_memory.md R64. -/
def Memory.write (m : Memory) (k : Nat) (v : Amp) : Memory := ⟨writeCells k v m.cells⟩

/-- Every index of `cells` is above `low`, indices rise, and no element is 0. -/
def cellsAbove : Nat → List (Nat × Amp) → Bool
  | _, [] => true
  | low, (a, v) :: rest => decide (low ≤ a) && decide (v ≠ Amp.zero) && cellsAbove (a + 1) rest

/-- The canonical form: indices strictly rising, no element equal to what an unlisted one reads
as. -/
def Memory.wf (m : Memory) : Bool := cellsAbove 0 m.cells

/-! ## Engine registers -/

def State.setMode (s : State) (m : Mode) : State := { s with mode := m }
def State.setFs (s : State) (fs : Counter) : State := { s with fs := fs }
def State.setBlen (s : State) (n : Counter) : State := { s with blen := n }
def State.setCur (s : State) (n : Counter) : State := { s with cur := n }
def State.setAc (s : State) (n : BitVec 8) : State := { s with ac := n }
def State.setSnap (s : State) (x : Snapshot) : State := { s with snap := x }
def State.setPorts (s : State) (x : Ports) : State := { s with ports := x }
def State.setVoices (s : State) (v : Vector Voice 128) : State := { s with voices := v }
def State.setOut (s : State) (l r : Memory) : State := { s with outl := l, outr := r }
def State.setStream (s : State) (xs : List HostAction) : State := { s with stream := xs }

/-! ## Space VOICE -/

/-- `V[i]`. -/
def State.voice (s : State) (i : Slot) : Voice := s.voices[i.toNat]'i.isLt

/-- `V[i] <- v`. -/
def State.setVoice (s : State) (i : Slot) (v : Voice) : State :=
  s.setVoices (s.voices.set i.toNat v i.isLt)

/-- The 128 slot indices in rising order, the scan of 42_voice_allocator.md R171. -/
def allSlots : List Slot := (List.range 128).map (BitVec.ofNat 7)

/-! ## Space ACTIVE -/

/-- `AL[0..AC-1]`, the meaningful entries (10_state.md R26). -/
def State.activeList (s : State) : List Slot := s.al.toList.take s.ac.toNat

/-- `AL[k] <- xs[k]` for every entry of `xs`; the entries of `AL` past them stay as they are. -/
@[irreducible] def overwriteEntries (xs : List Slot) (al : Vector Slot 128) : Vector Slot 128 :=
  Vector.ofFn fun k : Fin 128 => xs.getD k.val al[k]

/-- Make `xs` the active list: its entries go to `AL[0..]`, and `AC` becomes its length. -/
def State.setActive (s : State) (xs : List Slot) : State :=
  { s with al := overwriteEntries xs s.al, ac := BitVec.ofNat 8 xs.length }

/-! ## The output write, 43_block_renderer.md R197 -/

/-- `OUTL[k] <- l; OUTR[k] <- r`. -/
def State.writeOut (s : State) (k : Nat) (l r : Amp) : State :=
  s.setOut (s.outl.write k l) (s.outr.write k r)

/-! ## Host writes -/

/-- A host write of one port, 10_state.md R30. -/
def Ports.set (p : Ports) : PortName → PortValue → Ports
  | .volumeDb, x => { p with volumeDb := x }
  | .panning, x => { p with panning := x }
  | .attackMs, x => { p with attackMs := x }
  | .holdMs, x => { p with holdMs := x }
  | .decayMs, x => { p with decayMs := x }
  | .releaseMs, x => { p with releaseMs := x }
  | .sustainLevel, x => { p with sustainLevel := x }

/-- What a port holds. -/
def Ports.get (p : Ports) : PortName → PortValue
  | .volumeDb => p.volumeDb
  | .panning => p.panning
  | .attackMs => p.attackMs
  | .holdMs => p.holdMs
  | .decayMs => p.decayMs
  | .releaseMs => p.releaseMs
  | .sustainLevel => p.sustainLevel

/-- A host write of one output element, 20_memory.md R60; 70_reset_and_hazards.md R271 says what
one between BLOCK and END does: it is lost or it corrupts the output. -/
def State.hostOutWrite (s : State) (c : Channel) (k : Counter) (v : Amp) : State :=
  match c with
  | .left => s.setOut (s.outl.write k.toNat v) s.outr
  | .right => s.setOut s.outl (s.outr.write k.toNat v)

/-- `RST`, 70_reset_and_hazards.md R260: `MODE` becomes UNINIT and no engine state survives; what
the host owns (ports, buffers, its pending actions) and the configuration stay (entry 11). -/
def State.assertReset (s : State) : State :=
  { State.reset with
    params := s.params, ports := s.ports, outl := s.outl, outr := s.outr, stream := s.stream }

end Sys2Proof.Machine
end

