-- ==== Sys2Proof/Machine/Operands.lean ====
section
/-! DEFINITION. Operands that a command reads from the ports: the atomic sample of all seven, its
legality (44_parameter_snapshot.md R226), and the conversions of R222 and R223; and the 32-bit
counter an integer result is stored in. -/

namespace Sys2Proof.Machine

/-- An integer stored in a 32-bit register: "no integer operation of the spec wraps"
(00_scope.md R9), so an integer outside the range has no value of the model's choosing
(entry 17). -/
def toCounter (z : Int) : Counter :=
  if 0 ≤ z ∧ z < 2 ^ 32 then BitVec.ofInt 32 z else Config.counterOutOfRange z

/-- The finite value of a port, if it holds one, R226 (a). -/
def PortValue.number? : PortValue → Option Datum
  | .finite x => some x
  | .infinite _ => none
  | .notANumber => none

/-- The seven port values that one BLOCK samples, 20_memory.md R63. -/
structure PortSample where
  volumeDb : Datum
  panning : Datum
  attackMs : Datum
  holdMs : Datum
  decayMs : Datum
  releaseMs : Datum
  sustainLevel : Datum
deriving DecidableEq, Repr

/-- The atomic sample; none when a port holds no finite number (R226 (a)). -/
def Ports.sample (p : Ports) : Option PortSample := do
  let vdb ← p.volumeDb.number?
  let pan ← p.panning.number?
  let a ← p.attackMs.number?
  let h ← p.holdMs.number?
  let d ← p.decayMs.number?
  let r ← p.releaseMs.number?
  let sus ← p.sustainLevel.number?
  pure ⟨vdb, pan, a, h, d, r, sus⟩

/-- `lo <= x` for a constant of R226 and a port value. -/
def atLeast (m : NumMode) (lo : Rat) (x : Datum) : Bool := m.le (m.lit lo) x.toScalar

/-- `x <= hi` for a port value and a constant of R226. -/
def atMost (m : NumMode) (hi : Rat) (x : Datum) : Bool := m.le x.toScalar (m.lit hi)

/-- R226 (b) to (d). -/
def PortSample.legal (m : NumMode) (x : PortSample) : Bool :=
  atLeast m (-1) x.panning && atMost m 1 x.panning
    && atLeast m 0 x.sustainLevel && atMost m 1 x.sustainLevel
    && atLeast m 0 x.attackMs && atLeast m 0 x.holdMs
    && atLeast m 0 x.decayMs && atLeast m 0 x.releaseMs

/-- `DUR(ms) = floor(ms * FS / 1000)`, R223; `FS` and 1000 by `NumMode.lit` (entry 2). -/
def durSamples (m : NumMode) (fs : Counter) (ms : Datum) : Int :=
  m.floor (m.div (m.mul ms.toScalar (m.lit fs.toNat)) (m.lit 1000))

/-- The longest stage, R226 (e). -/
def maxDuration : Int := 2 ^ 32 - 2

/-- R226 (e), for the four times. -/
def PortSample.durationsFit (m : NumMode) (fs : Counter) (x : PortSample) : Bool :=
  decide (durSamples m fs x.attackMs ≤ maxDuration)
    && decide (durSamples m fs x.holdMs ≤ maxDuration)
    && decide (durSamples m fs x.decayMs ≤ maxDuration)
    && decide (durSamples m fs x.releaseMs ≤ maxDuration)

/-- `pidx = floor((panning + 1) * 256 + 1/2)`, the form SNAPSHOT writes (R220, R222); the constants
1, 256 and 1/2 enter a rounding `NUM` alike, by `NumMode.lit` (DESIGN CHOICE, entry 2). -/
def panIndex (m : NumMode) (panning : Datum) : Int :=
  m.floor (m.add (m.mul (m.add panning.toScalar (m.lit 1)) (m.lit 256)) (m.lit (1 / 2)))

/-- An integer index reduced into the table, 40_wavetable_oscillator.md R122. -/
def tableIndex (z : Int) : Nat := (z % 2048).toNat

end Sys2Proof.Machine
end

