-- ==== Sys2Proof/Machine/Flags.lean ====
section
/-! DEFINITION. The conditions a command tests before it writes anything (60_exceptions.md R247).
The hardware has no arithmetic flags: its only condition state is `MODE` and the sentinel
`velocity == 0`. -/

namespace Sys2Proof.Machine

/-- `V[i].velocity == 0` means slot `i` is free, 10_state.md R24. -/
def Voice.isFree (v : Voice) : Bool := decide (v.velocity = 0#7)

/-- CHECK_EVENT(offset), 43_block_renderer.md R193: P2, then P3. -/
def checkEvent (offset : Counter) (s : State) : Option Refusal :=
  if s.mode ≠ .inBlock then some .wrongMode
  else if offset < s.cur ∨ s.blen ≤ offset then some .offsetOrder
  else none

/-- The indices `AL[0..AC-1]` exist, INV1 of 10_state.md R27 (entry 19). -/
def State.activeInRange (s : State) : Bool := decide (s.ac.toNat ≤ 128)

end Sys2Proof.Machine
end

