-- ==== Sys2Proof/Machine/Envelope.lean ====
section
/-! DEFINITION. The envelope micro-operations of 41_envelope.md: functions of one voice. In each
timed state a tick increments the index, and the stage is crossed iff the incremented index exceeds
its duration (R146). -/

namespace Sys2Proof.Machine

/-- The incremented index of a tick, R146. -/
def Voice.nextIndex (v : Voice) : Nat := v.envelopeIndex.toNat + 1

/-- ENV_TICK in ATTACK, R141. -/
def tickAttack (m : NumMode) (v : Voice) : Voice :=
  if v.attackDuration.toNat < v.nextIndex then
    { v with
      envelopeLevel := v.attackLevel
      envelopeIndex := 0
      status := if v.holdDuration ≠ 0 then .hold else .decay }
  else
    { v with
      envelopeIndex := toCounter v.nextIndex
      envelopeLevel :=
        m.div (m.mul v.attackLevel (m.lit v.nextIndex)) (m.lit v.attackDuration.toNat) }

/-- ENV_TICK in HOLD, R142. -/
def tickHold (v : Voice) : Voice :=
  if v.holdDuration.toNat < v.nextIndex then
    { v with envelopeLevel := v.attackLevel, envelopeIndex := 0, status := .decay }
  else
    { v with envelopeLevel := v.attackLevel, envelopeIndex := toCounter v.nextIndex }

/-- ENV_TICK in DECAY, R143. -/
def tickDecay (m : NumMode) (v : Voice) : Voice :=
  if v.decayDuration.toNat < v.nextIndex then
    if m.lt (m.lit 0) v.sustainLevel then
      { v with envelopeLevel := v.sustainLevel, envelopeIndex := 0, status := .sustain }
    else
      { v with
        envelopeLevel := v.sustainLevel
        envelopeIndex := toCounter v.nextIndex
        velocity := 0 }
  else
    { v with
      envelopeIndex := toCounter v.nextIndex
      envelopeLevel :=
        m.sub v.attackLevel
          (m.div (m.mul (m.sub v.attackLevel v.sustainLevel) (m.lit v.nextIndex))
            (m.lit v.decayDuration.toNat)) }

/-- ENV_TICK in SUSTAIN, R144: the index is not advanced. -/
def tickSustain (v : Voice) : Voice := { v with envelopeLevel := v.sustainLevel }

/-- ENV_TICK in RELEASE, R145. -/
def tickRelease (m : NumMode) (v : Voice) : Voice :=
  if v.releaseDuration.toNat < v.nextIndex then
    { v with envelopeIndex := toCounter v.nextIndex, envelopeLevel := m.lit 0, velocity := 0 }
  else
    { v with
      envelopeIndex := toCounter v.nextIndex
      envelopeLevel :=
        m.mul v.releasedEnvelopeLevel
          (m.sub (m.lit 1) (m.div (m.lit v.nextIndex) (m.lit v.releaseDuration.toNat))) }

/-- ENV_TICK(i), R140: exactly one of R141 to R145, at most one transition. -/
def envTick (m : NumMode) (v : Voice) : Voice :=
  match v.status with
  | .attack => tickAttack m v
  | .hold => tickHold v
  | .decay => tickDecay m v
  | .sustain => tickSustain v
  | .release => tickRelease m v

/-- ENV_INIT(i), R151; `released_envelope_level` is not written. -/
def envInit (p : Params) (snap : Snapshot) (v : Voice) : Voice :=
  { v with
    attackDuration := snap.att
    holdDuration := snap.hld
    decayDuration := snap.dec
    releaseDuration := snap.rel
    attackLevel := p.attackLevel.toScalar
    sustainLevel := snap.sus
    envelopeIndex := 0
    envelopeLevel := p.num.lit 0
    status := .attack }

/-- ENV_RELEASE_ENTER(i), R149, whatever the current status. -/
def envReleaseEnter (v : Voice) : Voice :=
  { v with releasedEnvelopeLevel := v.envelopeLevel, envelopeIndex := 0, status := .release }

/-- The index a re-attack starts from, R150: `floor(A * (level / al))`. -/
def reattackIndex (m : NumMode) (v : Voice) : Int :=
  m.floorMulDiv v.attackDuration.toNat v.envelopeLevel v.attackLevel

/-- ENV_REATTACK(i), R150, whatever the current status. -/
def envReattack (m : NumMode) (v : Voice) : Voice :=
  { v with envelopeIndex := toCounter (reattackIndex m v), status := .attack }

end Sys2Proof.Machine
end

