-- ==== Sys2Proof/Machine/Oscillator.lean ====
section
/-! DEFINITION. The micro-operations of 40_wavetable_oscillator.md, by the rules' own formulas; one
period `2*pi` is `NumMode.fullTurn` (R121, entry 1). -/

namespace Sys2Proof.Machine

/-- The table index of LOOKUP, R122: `u = phase * 2048 / (2*pi)`, then `floor(u + 1/2) mod 2048`,
ties upward. -/
def lookupIndex (m : NumMode) (phase : Pitch) : Nat :=
  let u := m.pitchDiv (m.pitchMul phase (m.pitchLit 2048)) m.fullTurn
  tableIndex (m.pitchFloor (m.pitchAdd u (m.pitchLit (1 / 2))))

/-- LOOKUP(phase), R122: the nearest entry, not interpolated (R127). -/
def lookup (m : NumMode) (phase : Pitch) : Amp := waveTable m (lookupIndex m phase)

/-- The phase increment of a note, R124: `2*pi * FREQ[note] / FS`, in this operand order; the
constant 2 and `FS` enter a rounding `NUM` alike, by `NumMode.pitchLit` (DESIGN CHOICE, entry 2). -/
def noteIncrement (p : Params) (fs : Counter) (note : Note) : Pitch :=
  p.num.pitchDiv (p.num.pitchMul p.num.fullTurn (p.freq[note.toNat]'note.isLt))
    (p.num.pitchLit fs.toNat)

/-- OSC_SEED(i, note), R124, on the voice's fields. -/
def oscSeed (p : Params) (fs : Counter) (note : Note) (v : Voice) : Voice :=
  { v with phaseIncrement := noteIncrement p fs note, phase := p.num.pitchLit 0 }

/-- The phase after one advance, R125: a true modulo by one period. -/
def advancePhase (m : NumMode) (phase increment : Pitch) : Pitch :=
  m.pitchMod (m.pitchAdd phase increment) m.fullTurn

/-- OSC_STEP(i), R125: the sample at the phase before the advance, and the voice after it. -/
def oscStep (m : NumMode) (v : Voice) : Amp × Voice :=
  (lookup m v.phase, { v with phase := advancePhase m v.phase v.phaseIncrement })

end Sys2Proof.Machine
end

