-- ==== Sys2Proof/Machine/Renderer.lean ====
section
/-! DEFINITION. RETIRE (42_voice_allocator.md R172), the render loop and the mixer of
43_block_renderer.md. -/

namespace Sys2Proof.Machine

/-- RETIRE(j), 42_voice_allocator.md R172: entries after `j` move down by one, `AC` falls by one,
no voice field is written. -/
def retire (j : Nat) (s : State) : State := s.setActive (s.activeList.eraseIdx j)

/-- VOICE_STEP(i), 43_block_renderer.md R195, on one voice: `(cL, cR)` and the voice after the
tick. It reads the table, the snapshot and this voice, nothing else (70_reset_and_hazards.md
R272). -/
def voiceTick (m : NumMode) (snap : Snapshot) (v : Voice) : (Amp × Amp) × Voice :=
  let (o, v1) := oscStep m v
  let v2 := envTick m v1
  let c := m.ampMul o (Amp.ofScalar v2.envelopeLevel)
  ((m.ampMul (m.ampMul c snap.panl) snap.vol, m.ampMul (m.ampMul c snap.panr) snap.vol), v2)

/-- One pass of the `while j < AC` loop of RENDER, R194: `rest` is `AL[j..AC-1]`; the voice at
position `j` is ticked once, its contribution added, and position `j` retired if the tick freed it,
so that the next entry is again at `j`. -/
def mixVoices : (rest : List Slot) → (j : Nat) → (accL accR : Amp) → State → (Amp × Amp) × State
  | [], _, accL, accR, s => ((accL, accR), s)
  | i :: rest, j, accL, accR, s =>
    let m := s.params.num
    let t := voiceTick m s.snap (s.voice i)
    let accL := m.ampAdd accL t.1.1
    let accR := m.ampAdd accR t.1.2
    let s := s.setVoice i t.2
    if t.2.isFree then mixVoices rest j accL accR (retire j s)
    else mixVoices rest (j + 1) accL accR s

/-- One sample of RENDER, R194: accumulators from 0, every active voice once in list order, then
the output write of R197. -/
def renderSample (k : Nat) (s : State) : State :=
  let zero := s.params.num.ampLit 0
  let r := mixVoices s.activeList 0 zero zero s
  r.2.writeOut k r.1.1 r.1.2

/-- RENDER(from, from + count), R194. -/
def render : (count start : Nat) → State → State
  | 0, _, s => s
  | count + 1, start, s => render count (start + 1) (renderSample start s)

/-- The span of EVENT_ADVANCE(offset), R193, after its checks: render `CUR..offset-1`, then
`CUR <- offset`. -/
def advanceTo (offset : Counter) (s : State) : State :=
  (render (offset.toNat - s.cur.toNat) s.cur.toNat s).setCur offset

end Sys2Proof.Machine
end

