-- ==== Sys2Proof/Machine/Allocator.lean ====
section
/-! DEFINITION. The voice pool and allocator of 42_voice_allocator.md. -/

namespace Sys2Proof.Machine

/-- FIND_ACTIVE(note), R170: the first entry of the active list whose voice holds `note`, with its
position. -/
def findActive (note : Note) (s : State) : Option (Slot × Nat) :=
  s.activeList.zipIdx.find? fun e => decide ((s.voice e.1).note = note)

/-- The scan of ALLOCATE, R171: the lowest-numbered free slot. -/
def firstFree (s : State) : Option Slot := allSlots.find? fun i => (s.voice i).isFree

/-- The append of ALLOCATE, R171: `AL[AC] <- i; AC <- AC + 1`. -/
def appendActive (i : Slot) (s : State) : State := s.setActive (s.activeList ++ [i])

/-- NOTE_ON_FRESH(i, note, vel), R174: every field but `released_envelope_level`. -/
def noteOnFresh (i : Slot) (note : Note) (vel : Velocity) (s : State) : State :=
  let v := { s.voice i with note := note, velocity := vel }
  s.setVoice i (envInit s.params s.snap (oscSeed s.params s.fs note v))

/-- NOTE_OFF_APPLY(note), R177. -/
def noteOffApply (note : Note) (s : State) : State :=
  match findActive note s with
  | some (i, _) => s.setVoice i (envReleaseEnter (s.voice i))
  | none => s

/-- NOTE_ON after EVENT_ADVANCE, for a velocity that is not 0, R173: re-attack in place (R175), or
allocate (R174), or drop the note (60_exceptions.md R241). -/
def noteOnApply (note : Note) (vel : Velocity) (s : State) : Host.Outcome State Fault Refusal :=
  match findActive note s with
  | some (i, _) => .next (s.setVoice i (envReattack s.params.num (s.voice i)))
  | none =>
    match firstFree s with
    | none => .next s
    | some i =>
      if s.ac.toNat < 128 then .next (noteOnFresh i note vel (appendActive i s))
      else .fault .activeListRange

/-- EVENT_ADVANCE(offset), 43_block_renderer.md R193, and then the event itself: the checks come
first and write nothing (60_exceptions.md R247). -/
def afterAdvance (offset : Counter) (event : State → Host.Outcome State Fault Refusal) (s : State) :
    Host.Outcome State Fault Refusal :=
  match checkEvent offset s with
  | some r => .refused r
  | none => if s.activeInRange then event (advanceTo offset s) else .fault .activeListRange

end Sys2Proof.Machine
end

