-- ==== Sys2Proof/Machine/Events.lean ====
section
/-! DEFINITION. The event commands of 42_voice_allocator.md: NOTE_OFF, NOTE_ON, and the events of
unrecognised kind. -/

namespace Sys2Proof.Machine

/-- NOTE_OFF(offset, note), R177; `VEL` is "ignored for NOTE_OFF". -/
def execNoteOff (offset : Counter) (note : Note) (_vel : Velocity) (s : State) :
    Host.Outcome State Fault Refusal :=
  afterAdvance offset (fun t => .next (noteOffApply note t)) s

/-- NOTE_ON(offset, note, vel), R173; velocity 0 by `VEL0_POLICY`, R176. -/
def execNoteOn (offset : Counter) (note : Note) (vel : Velocity) (s : State) :
    Host.Outcome State Fault Refusal :=
  if vel = 0 then
    match s.params.vel0Policy with
    | .refuse => .refused ((checkEvent offset s).getD .velocityZero)
    | .asNoteOff => afterAdvance offset (fun t => .next (noteOffApply note t)) s
  else afterAdvance offset (noteOnApply note vel) s

/-- EVENT_UNRECOGNISED(), R178: the `MODE` check and nothing else. -/
def ignoreEvent (s : State) : Host.Outcome State Fault Refusal :=
  if s.mode ≠ .inBlock then .refused .wrongMode else .next s

/-- EVENT_K7, `KIND` 0x80 to 0xFF, R178. -/
def execEventK7 (_kind : BitVec 7) (_rest : BitVec 52) (s : State) :
    Host.Outcome State Fault Refusal := ignoreEvent s

/-- EVENT_K6, `KIND` 0x40 to 0x7F, R178. -/
def execEventK6 (_kind : BitVec 6) (_rest : BitVec 52) (s : State) :
    Host.Outcome State Fault Refusal := ignoreEvent s

/-- EVENT_K5, `KIND` 0x20 to 0x3F, R178. -/
def execEventK5 (_kind : BitVec 5) (_rest : BitVec 52) (s : State) :
    Host.Outcome State Fault Refusal := ignoreEvent s

/-- EVENT_K4, `KIND` 0x10 to 0x1F, R178. -/
def execEventK4 (_kind : BitVec 4) (_rest : BitVec 52) (s : State) :
    Host.Outcome State Fault Refusal := ignoreEvent s

/-- EVENT_K3, `KIND` 0x08 to 0x0F, R178. -/
def execEventK3 (_kind : BitVec 3) (_rest : BitVec 52) (s : State) :
    Host.Outcome State Fault Refusal := ignoreEvent s

/-- EVENT_K2, `KIND` 0x04 to 0x07, R178. -/
def execEventK2 (_kind : BitVec 2) (_rest : BitVec 52) (s : State) :
    Host.Outcome State Fault Refusal := ignoreEvent s

/-- EVENT_K1, `KIND` 0x02 and 0x03, R178. -/
def execEventK1 (_kind : BitVec 1) (_rest : BitVec 52) (s : State) :
    Host.Outcome State Fault Refusal := ignoreEvent s

end Sys2Proof.Machine
end

