-- ==== Sys2Proof/Machine/Snapshot.lean ====
section
/-! DEFINITION. SNAPSHOT, 44_parameter_snapshot.md R220. -/

namespace Sys2Proof.Machine

/-- The eight registers from a legal sample, R221 to R224. -/
def snapshotOf (p : Params) (fs : Counter) (x : PortSample) : Snapshot where
  vol := gainOfDecibels p.num p.gainLaw x.volumeDb
  panr := waveTable p.num (tableIndex (panIndex p.num x.panning))
  panl := waveTable p.num (tableIndex (panIndex p.num x.panning + 512))
  att := toCounter (durSamples p.num fs x.attackMs)
  hld := toCounter (durSamples p.num fs x.holdMs)
  dec := toCounter (durSamples p.num fs x.decayMs)
  rel := toCounter (durSamples p.num fs x.releaseMs)
  sus := x.sustainLevel.toScalar

/-- SNAPSHOT(), R220: the refusals P4 and P5 in that order, before the first write. -/
def takeSnapshot (s : State) : Except Refusal Snapshot :=
  match s.ports.sample with
  | none => .error .illegalPort
  | some x =>
    if x.legal s.params.num = false then .error .illegalPort
    else if x.durationsFit s.params.num s.fs = false then .error .stageTooLong
    else .ok (snapshotOf s.params s.fs x)

end Sys2Proof.Machine
end

