-- ==== Sys2Proof/Machine/System.lean ====
section
/-! DEFINITION. The system commands of 43_block_renderer.md: INIT, BLOCK, END. -/

namespace Sys2Proof.Machine

/-- Every slot free: `for i in 0..127: V[i].velocity <- 0`, R190. -/
def freeAllVoices (s : State) : State :=
  s.setVoices (Vector.ofFn fun i : Fin 128 => { s.voices[i] with velocity := 0 })

/-- INIT(fs), R190. P1 comes before P2 (60_exceptions.md R247): `fs = 0` is malformed (R101 (e)). -/
def execInit (fs : Counter) (s : State) : Host.Outcome State Fault Refusal :=
  if fs = 0 then .refused (.malformed .zeroRate)
  else if s.mode ≠ .uninit then .refused .wrongMode
  else .next (((freeAllVoices (s.setFs fs)).setAc 0).setMode .idle)

/-- BLOCK(n), R191. -/
def execBlock (n : Counter) (s : State) : Host.Outcome State Fault Refusal :=
  if s.mode ≠ .idle then .refused .wrongMode
  else
    match takeSnapshot s with
    | .error r => .refused r
    | .ok x => .next ((((s.setSnap x).setBlen n).setCur 0).setMode .inBlock)

/-- END(), R192. -/
def execEnd (s : State) : Host.Outcome State Fault Refusal :=
  if s.mode ≠ .inBlock then .refused .wrongMode
  else if s.activeInRange then .next ((advanceTo s.blen s).setMode .idle)
  else .fault .activeListRange

end Sys2Proof.Machine
end

