-- ==== Sys2Proof/Machine/Dispatch.lean ====
section
/-! DEFINITION. One arm per command. -/

namespace Sys2Proof.Machine

def exec (i : Instr) (s : State) : Host.Outcome State Fault Refusal :=
  match i with
  | .init fs => Sys2Proof.Machine.execInit fs s
  | .block n => Sys2Proof.Machine.execBlock n s
  | .noteOff offset note vel => Sys2Proof.Machine.execNoteOff offset note vel s
  | .noteOn offset note vel => Sys2Proof.Machine.execNoteOn offset note vel s
  | .eventK7 kind rest => Sys2Proof.Machine.execEventK7 kind rest s
  | .eventK6 kind rest => Sys2Proof.Machine.execEventK6 kind rest s
  | .eventK5 kind rest => Sys2Proof.Machine.execEventK5 kind rest s
  | .eventK4 kind rest => Sys2Proof.Machine.execEventK4 kind rest s
  | .eventK3 kind rest => Sys2Proof.Machine.execEventK3 kind rest s
  | .eventK2 kind rest => Sys2Proof.Machine.execEventK2 kind rest s
  | .eventK1 kind rest => Sys2Proof.Machine.execEventK1 kind rest s
  | .endBlock => Sys2Proof.Machine.execEnd s

end Sys2Proof.Machine
end

