-- ==== Sys2Proof/Machine/Actions.lean ====
section
/-! DEFINITION. What each host action does (20_memory.md R68, 70_reset_and_hazards.md R260). -/

namespace Sys2Proof.Machine

/-- A pushed word: refused as P1 when malformed (30_encoding.md R101), else executed. -/
def command (w : CommandWord) (s : State) : Host.Outcome State Fault Refusal :=
  match decode w with
  | .ok i => exec i s
  | .error e => .refused (.malformed e)

/-- One host action on the machine that is left once it is taken off the stream. -/
def hostAction (a : HostAction) (s : State) : Host.Outcome State Fault Refusal :=
  match a with
  | .command w => command w s
  | .portWrite port value => .next (s.setPorts (s.ports.set port value))
  | .outWrite channel index value => .next (s.hostOutWrite channel index value)
  | .reset => .next s.assertReset

end Sys2Proof.Machine
end

