-- ==== Sys2Proof/Machine/Step.lean ====
section
/-! DEFINITION. One step: the next host action of the interleaved sequence (20_memory.md R68). -/

namespace Sys2Proof.Machine

/-- A step takes the host's next action, or waits when there is none: "between commands the engine
holds its state unchanged" (60_exceptions.md R252). -/
def step (s : State) : Host.Outcome State Fault Refusal :=
  match s.stream with
  | [] => .next s
  | a :: rest => hostAction a (s.setStream rest)

/-- `s` with the word of `nbits` bits `w` as the host's next command. -/
def State.withFetchWord (s : State) (nbits w : Nat) : State :=
  s.setStream (.command (BitVec.ofNat 64 (w % 2 ^ nbits)) :: s.stream)

end Sys2Proof.Machine
end

