-- ==== Sys2Proof/Safety.lean ====
section
/-! DEFINITION. The terms claims use: the invariants of 10_state.md R22 and R27, the legal values of
the parameters and of the snapshot, and the legality table of commands. -/

namespace Sys2Proof.Machine

/-- INV1 to INV5 of 10_state.md R27. -/
structure PoolInv (s : State) : Prop where
  /-- INV1: `AC <= 128`. -/
  countBound : s.ac.toNat ≤ 128
  /-- INV2: the entries are pairwise distinct. -/
  distinct : s.activeList.Nodup
  /-- INV3: every entry refers to a voice with `velocity > 0`. -/
  activeOccupied : ∀ i ∈ s.activeList, (s.voice i).velocity ≠ 0
  /-- INV4: every voice with `velocity > 0` is an entry (once, by INV2). -/
  occupiedActive : ∀ i, (s.voice i).velocity ≠ 0 → i ∈ s.activeList
  /-- INV5: active voices hold pairwise distinct notes. -/
  notesDistinct : ∀ i ∈ s.activeList, ∀ k ∈ s.activeList, (s.voice i).note = (s.voice k).note → i = k

/-- Where `envelope_index` stands in each state, 10_state.md R22. -/
def Voice.indexInStage (v : Voice) : Prop :=
  match v.status with
  | .attack => v.envelopeIndex.toNat ≤ v.attackDuration.toNat
  | .hold => v.envelopeIndex.toNat ≤ v.holdDuration.toNat
  | .decay => v.envelopeIndex.toNat ≤ v.decayDuration.toNat
  | .sustain => v.envelopeIndex = 0
  | .release => v.envelopeIndex.toNat ≤ v.releaseDuration.toNat

/-- The value ranges of an active voice between ticks, 10_state.md R22 (INV6 of R27), and the type of
its increment (R21), over the reals; the phase is in table steps (40_wavetable_oscillator.md R121). -/
structure VoiceInv (v : Voice) : Prop where
  attackPositive : 0 < v.attackLevel.toReal
  levelNonneg : 0 ≤ v.envelopeLevel.toReal
  levelBound : v.envelopeLevel.toReal ≤ v.attackLevel.toReal
  sustainNonneg : 0 ≤ v.sustainLevel.toReal
  sustainBound : v.sustainLevel.toReal ≤ v.attackLevel.toReal
  releasedRange : v.status = .release →
    0 ≤ v.releasedEnvelopeLevel.toReal ∧ v.releasedEnvelopeLevel.toReal ≤ v.attackLevel.toReal
  attackFits : v.attackDuration.toNat ≤ 2 ^ 32 - 2
  holdFits : v.holdDuration.toNat ≤ 2 ^ 32 - 2
  decayFits : v.decayDuration.toNat ≤ 2 ^ 32 - 2
  releaseFits : v.releaseDuration.toNat ≤ 2 ^ 32 - 2
  index : v.indexInStage
  phaseNonneg : 0 ≤ v.phase.toReal
  phaseBound : v.phase.toReal < 2048
  incrementPositive : 0 < v.phaseIncrement.toReal
  /-- The model's own: the phase and its increment have a sum (entry 4). -/
  phaseAdds : v.phase.Summable v.phaseIncrement

/-- What a BLOCK leaves in the registers of the snapshot, 44_parameter_snapshot.md R221 and R226. -/
structure SnapInv (x : Snapshot) : Prop where
  volPositive : 0 < x.vol.toReal
  susNonneg : 0 ≤ x.sus.toReal
  susBound : x.sus.toReal ≤ 1
  attFits : x.att.toNat ≤ 2 ^ 32 - 2
  hldFits : x.hld.toNat ≤ 2 ^ 32 - 2
  decFits : x.dec.toNat ≤ 2 ^ 32 - 2
  relFits : x.rel.toNat ≤ 2 ^ 32 - 2

/-- The engine between commands, in exact arithmetic: R22 and R27, `CUR <= BLEN` and `FS > 0`
(R28), the latched snapshot, the canonical buffers (the model's own, entry 14), positive frequencies
(R33) and `ATTACK_LEVEL >= 1` (44_parameter_snapshot.md R225). -/
structure EngineInv (s : State) : Prop where
  pool : PoolInv s
  voices : ∀ i ∈ s.activeList, VoiceInv (s.voice i)
  cursor : s.cur.toNat ≤ s.blen.toNat
  rate : s.mode ≠ .uninit → s.fs ≠ 0
  snap : s.mode = .inBlock → SnapInv s.snap
  outlCanonical : s.outl.wf = true
  outrCanonical : s.outr.wf = true
  frequencies : ∀ n : Fin 128, 0 < s.params.freq[n].toReal
  attackLevel : 1 ≤ s.params.attackLevel.toReal
  exactNum : s.params.num = .exactReals

/-- A gain is above 0 in its number domain (44_parameter_snapshot.md R221). The constant 1 is, in
every one. -/
def gainPositive (m : NumMode) (a : Amp) : Prop :=
  match m with
  | .exactReals => 0 < a.toReal
  | .rounded f => a = m.ampLit 1 ∨ Config.ampPositive f a = true

/-- The `MODE` in which a command is legal, 30_encoding.md R93. -/
def legalMode : Instr → Mode
  | .init _ => .uninit
  | .block _ => .idle
  | .noteOff _ _ _ => .inBlock
  | .noteOn _ _ _ => .inBlock
  | .eventK7 _ _ => .inBlock
  | .eventK6 _ _ => .inBlock
  | .eventK5 _ _ => .inBlock
  | .eventK4 _ _ => .inBlock
  | .eventK3 _ _ => .inBlock
  | .eventK2 _ _ => .inBlock
  | .eventK1 _ _ => .inBlock
  | .endBlock => .inBlock

/-- The `MODE` a command that is not refused leaves, 43_block_renderer.md R200. -/
def nextMode : Instr → Mode
  | .init _ => .idle
  | .block _ => .inBlock
  | .noteOff _ _ _ => .inBlock
  | .noteOn _ _ _ => .inBlock
  | .eventK7 _ _ => .inBlock
  | .eventK6 _ _ => .inBlock
  | .eventK5 _ _ => .inBlock
  | .eventK4 _ _ => .inBlock
  | .eventK3 _ _ => .inBlock
  | .eventK2 _ _ => .inBlock
  | .eventK1 _ _ => .inBlock
  | .endBlock => .idle

/-- The voice after `n` ticks of its envelope. -/
def ticks (m : NumMode) : Nat → Voice → Voice
  | 0, v => v
  | n + 1, v => ticks m n (envTick m v)

/-- The phase after `n` advances, 40_wavetable_oscillator.md R125. -/
def advances (m : NumMode) : Nat → Pitch → Pitch → Pitch
  | 0, phase, _ => phase
  | n + 1, phase, increment => advances m n (advancePhase m phase increment) increment

end Sys2Proof.Machine
end

