-- ==== Sys2Proof/Certificates/Slice0/Obligations.lean ====
section
/-! DEFINITION. The statements for the provers, one for each entry of OBLIGATIONS.json. Each
docstring names the rules of spec/ it formalises. -/

open Sys2Proof Sys2Proof.Machine

/-! ## The command words -/

/-- Every well-formed command is read back from the word that the patterns of 30_encoding.md R95 to
R100 give it. -/
def Obligations.DecodeOfEncodeReturnsTheCommand : Prop :=
  ∀ i : Instr, i.wellFormed = true → decode (encode i) = .ok i

/-- A word that decodes is the word of its command, and the command is well-formed: no bit of a word
is lost (R92, R99). -/
def Obligations.EncodeOfDecodeReturnsTheWord : Prop :=
  ∀ (w : CommandWord) (i : Instr), decode w = .ok i → encode i = w ∧ i.wellFormed = true

/-- R101: a word is malformed exactly by its clauses (a) to (e), read from the bits of the word, and
a malformed word is refused with reason P1 in every state. -/
def Obligations.MalformedWordsAreClausesAToE : Prop :=
  ∀ w : CommandWord,
    ((∃ e, decode w = .error e) ↔
      ((w >>> 60 = 0#64 ∨ 5#64 ≤ w >>> 60) ∨
       ((w >>> 60 = 1#64 ∨ w >>> 60 = 2#64 ∨ w >>> 60 = 4#64) ∧ w &&& 0x0FFFFFFF00000000#64 ≠ 0#64) ∨
       (w >>> 60 = 4#64 ∧ w &&& 0x00000000FFFFFFFF#64 ≠ 0#64) ∨
       (w >>> 60 = 3#64 ∧ (w >>> 52) &&& 0xFF#64 ≤ 1#64 ∧ w &&& 0x000F808000000000#64 ≠ 0#64) ∨
       (w >>> 60 = 1#64 ∧ w &&& 0x00000000FFFFFFFF#64 = 0#64))) ∧
    ∀ (e : Malformed) (s : State) (rest : List HostAction), decode w = .error e →
      s.stream = .command w :: rest → step s = .refused (.malformed e)

/-- The twelve rows of spec/opcode_table.json (R95 to R100): a word decodes to a row's command
exactly when its bits under the row's mask are the row's match (and `ARG != 0` for INIT). -/
def Obligations.TableRowsDecodeByMatchAndMask : Prop :=
  ∀ w : CommandWord,
    ((∃ fs, decode w = .ok (.init fs)) ↔
      w &&& 0xFFFFFFFF00000000#64 = 0x1000000000000000#64 ∧ w &&& 0x00000000FFFFFFFF#64 ≠ 0#64) ∧
    ((∃ n, decode w = .ok (.block n)) ↔ w &&& 0xFFFFFFFF00000000#64 = 0x2000000000000000#64) ∧
    ((∃ o n v, decode w = .ok (.noteOff o n v)) ↔
      w &&& 0xFFFF808000000000#64 = 0x3000000000000000#64) ∧
    ((∃ o n v, decode w = .ok (.noteOn o n v)) ↔
      w &&& 0xFFFF808000000000#64 = 0x3010000000000000#64) ∧
    ((∃ k r, decode w = .ok (.eventK7 k r)) ↔ w &&& 0xF800000000000000#64 = 0x3800000000000000#64) ∧
    ((∃ k r, decode w = .ok (.eventK6 k r)) ↔ w &&& 0xFC00000000000000#64 = 0x3400000000000000#64) ∧
    ((∃ k r, decode w = .ok (.eventK5 k r)) ↔ w &&& 0xFE00000000000000#64 = 0x3200000000000000#64) ∧
    ((∃ k r, decode w = .ok (.eventK4 k r)) ↔ w &&& 0xFF00000000000000#64 = 0x3100000000000000#64) ∧
    ((∃ k r, decode w = .ok (.eventK3 k r)) ↔ w &&& 0xFF80000000000000#64 = 0x3080000000000000#64) ∧
    ((∃ k r, decode w = .ok (.eventK2 k r)) ↔ w &&& 0xFFC0000000000000#64 = 0x3040000000000000#64) ∧
    ((∃ k r, decode w = .ok (.eventK1 k r)) ↔ w &&& 0xFFE0000000000000#64 = 0x3020000000000000#64) ∧
    (decode w = .ok .endBlock ↔ w = 0x4000000000000000#64)

/-- Words that 95_test_vectors.md T30-1 and T30-2 write out, one of each command and one of each
clause of R101. -/
def Obligations.WrittenOutWordsDecode : Prop :=
  decode 0x100000000000BB80#64 = .ok (.init 48000#32) ∧
  decode 0x2000000000017700#64 = .ok (.block 96000#32) ∧
  decode 0x300045000000BB80#64 = .ok (.noteOff 48000#32 69#7 0#7) ∧
  decode 0x3010455A00000010#64 = .ok (.noteOn 16#32 69#7 90#7) ∧
  decode 0x3B00076400000006#64 = .ok (.eventK7 0x30#7 0x0076400000006#52) ∧
  decode 0x3020000000000000#64 = .ok (.eventK1 0#1 0#52) ∧
  decode 0x4000000000000000#64 = .ok .endBlock ∧
  decode 0x5000000000000000#64 = .error .reservedOp ∧
  decode 0x2010000000000008#64 = .error .reservedBits ∧
  decode 0x4000000000000001#64 = .error .endArgument ∧
  decode 0x3000458000000000#64 = .error .eventReservedBits ∧
  decode 0x1000000000000000#64 = .error .zeroRate

/-! ## One step -/

/-- When the host's next action is a word that decodes to `i`, a step is `exec i` on the machine
with that action taken off (R67 of 20_memory.md: commands take effect one at a time in order); a
word placed by `withFetchWord` is executed by the very next step. -/
def Obligations.StepRunsTheDecodedCommand : Prop :=
  (∀ (s : State) (w : CommandWord) (rest : List HostAction) (i : Instr),
    s.stream = .command w :: rest → decode w = .ok i → step s = exec i (s.setStream rest)) ∧
  (∀ (s : State) (w : CommandWord) (i : Instr), decode w = .ok i →
    step (s.withFetchWord 64 w.toNat) = exec i s)

/-- A port write changes one port (10_state.md R30), a buffer write one element (20_memory.md R64),
and with no pending action the machine waits unchanged (60_exceptions.md R252). -/
def Obligations.HostActionsChangeOnlyTheirTarget : Prop :=
  (∀ s : State, s.stream = [] → step s = .next s) ∧
  (∀ (s : State) (rest : List HostAction) (port : PortName) (x : PortValue),
    s.stream = .portWrite port x :: rest →
      ∃ t, step s = .next t ∧ t = { s with stream := rest, ports := t.ports } ∧
        t.ports.get port = x ∧ ∀ q, q ≠ port → t.ports.get q = s.ports.get q) ∧
  (∀ (s : State) (rest : List HostAction) (k : Counter) (x : Amp), s.outl.wf = true →
    s.stream = .outWrite .left k x :: rest →
      ∃ t, step s = .next t ∧ t = { s with stream := rest, outl := t.outl } ∧
        t.outl.read k.toNat = x ∧ ∀ n, n ≠ k.toNat → t.outl.read n = s.outl.read n) ∧
  (∀ (s : State) (rest : List HostAction) (k : Counter) (x : Amp), s.outr.wf = true →
    s.stream = .outWrite .right k x :: rest →
      ∃ t, step s = .next t ∧ t = { s with stream := rest, outr := t.outr } ∧
        t.outr.read k.toNat = x ∧ ∀ n, n ≠ k.toNat → t.outr.read n = s.outr.read n)

/-- RST puts `MODE` to UNINIT (70_reset_and_hazards.md R260). That the host's ports, buffers and
pending actions stay is the model's choice (entry 11), as is all else that reset leaves (entry
10). -/
def Obligations.ResetInputEntersUninit : Prop :=
  State.reset.mode = .uninit ∧
  ∀ (s : State) (rest : List HostAction), s.stream = .reset :: rest →
    ∃ t, step s = .next t ∧ t.mode = .uninit ∧ t.params = s.params ∧ t.ports = s.ports ∧
      t.outl = s.outl ∧ t.outr = s.outr ∧ t.stream = rest

/-! ## The system commands -/

/-- INIT, 43_block_renderer.md R190: `FS <- fs`, every velocity 0, `AC <- 0`, `MODE <- IDLE`, nothing
else; P2 in any other `MODE`, P1 for `fs = 0`. -/
def Obligations.InitFreesAllVoicesAndGoesIdle : Prop :=
  ∀ (fs : Counter) (s : State),
    (fs ≠ 0 → s.mode = .uninit →
      ∃ t, exec (.init fs) s = .next t ∧ t.fs = fs ∧ t.mode = .idle ∧ t.ac = 0 ∧
        (∀ i, t.voice i = { s.voice i with velocity := 0 }) ∧
        t = { s with fs := fs, mode := .idle, ac := 0, voices := t.voices }) ∧
    (fs ≠ 0 → s.mode ≠ .uninit → exec (.init fs) s = .refused .wrongMode) ∧
    exec (.init 0) s = .refused (.malformed .zeroRate)

/-- BLOCK, R191, on legal ports (44_parameter_snapshot.md R226): the snapshot is latched, `BLEN <-
n`, `CUR <- 0`, `MODE <- INBLOCK`, nothing else changes; for every `n`, 0 included. In every number
domain the latched volume is above 0, and the constant 1 where the port's real number is 0, in either
form of that number (R221; in a rounding domain, which has no law of its own in the spec, by entry 7). -/
def Obligations.BlockLatchesSnapshotAndOpens : Prop :=
  ∀ (n : Counter) (s : State) (p : PortSample), s.mode = .idle → s.ports.sample = some p →
    p.legal s.params.num = true → p.durationsFit s.params.num s.fs = true →
      exec (.block n) s =
        .next { s with snap := snapshotOf s.params s.fs p, blen := n, cur := 0, mode := .inBlock } ∧
      gainPositive s.params.num (snapshotOf s.params s.fs p).vol ∧
      (p.volumeDb.toReal = 0 →
        (snapshotOf s.params s.fs p).vol = s.params.num.ampLit 1)

/-- The registers a BLOCK latches, over the reals, for every real a port can hold
(44_parameter_snapshot.md R221 to R224): the gain of the law, 10^(x/20) for the decibel law, positive
and 1 at 0 dB for every law, the pan gains at `pidx` and `pidx + 512`, the four lengths by floor, the
sustain level copied. -/
def Obligations.BlockLatchesTheRealValues : Prop :=
  ∀ (n : Counter) (s : State) (p : PortSample), s.params.num = .exactReals → s.mode = .idle →
    s.ports.sample = some p → p.legal s.params.num = true →
    p.durationsFit s.params.num s.fs = true →
      ∃ t, exec (.block n) s = .next t ∧
        t.snap.vol.toReal = s.params.gainLaw.toReal p.volumeDb.toReal ∧
        (s.params.gainLaw = .decibel → t.snap.vol.toReal = (10 : ℝ) ^ (p.volumeDb.toReal / 20)) ∧
        0 < t.snap.vol.toReal ∧ (p.volumeDb.toReal = 0 → t.snap.vol.toReal = 1) ∧
        t.snap.panr.toReal =
          Real.sin (2 * Real.pi * ((⌊(p.panning.toReal + 1) * 256 + 1 / 2⌋ : ℤ) : ℝ) / 2048) ∧
        t.snap.panl.toReal =
          Real.sin (2 * Real.pi * ((⌊(p.panning.toReal + 1) * 256 + 1 / 2⌋ + 512 : ℤ) : ℝ) / 2048) ∧
        (t.snap.att.toNat : ℤ) = ⌊p.attackMs.toReal * s.fs.toNat / 1000⌋ ∧
        (t.snap.hld.toNat : ℤ) = ⌊p.holdMs.toReal * s.fs.toNat / 1000⌋ ∧
        (t.snap.dec.toNat : ℤ) = ⌊p.decayMs.toReal * s.fs.toNat / 1000⌋ ∧
        (t.snap.rel.toNat : ℤ) = ⌊p.releaseMs.toReal * s.fs.toNat / 1000⌋ ∧
        t.snap.sus.toReal = p.sustainLevel.toReal

/-- R226: a BLOCK in IDLE that finds a port not finite (a), `panning` outside [-1, 1] (b),
`sustain_level` outside [0, 1] (c) or a negative time (d) is refused with P4; one that breaks (e)
alone, with P5; one that breaks none is not refused, whatever `volume_db` is. In a rounding number
domain the comparisons are the domain's own; in exact arithmetic they are those of the reals. -/
def Obligations.BlockRefusesIllegalPorts : Prop :=
  ∀ (n : Counter) (s : State), s.mode = .idle →
    (∀ q, (∀ x, s.ports.get q ≠ .finite x) → exec (.block n) s = .refused .illegalPort) ∧
    (∀ p, s.ports.sample = some p →
      (p.legal s.params.num = false → exec (.block n) s = .refused .illegalPort) ∧
      (p.legal s.params.num = true → p.durationsFit s.params.num s.fs = false →
        exec (.block n) s = .refused .stageTooLong)) ∧
    (s.params.num = .exactReals →
      (∀ x, s.ports.panning = .finite x → x.toReal < -1 ∨ 1 < x.toReal →
        exec (.block n) s = .refused .illegalPort) ∧
      (∀ x, s.ports.sustainLevel = .finite x → x.toReal < 0 ∨ 1 < x.toReal →
        exec (.block n) s = .refused .illegalPort) ∧
      (∀ q ∈ [PortName.attackMs, .holdMs, .decayMs, .releaseMs], ∀ x, s.ports.get q = .finite x →
        x.toReal < 0 → exec (.block n) s = .refused .illegalPort) ∧
      (∀ p, s.ports.sample = some p → -1 ≤ p.panning.toReal → p.panning.toReal ≤ 1 →
        0 ≤ p.sustainLevel.toReal → p.sustainLevel.toReal ≤ 1 →
        (∀ x ∈ [p.attackMs, p.holdMs, p.decayMs, p.releaseMs], 0 ≤ x.toReal) →
        ((∃ x ∈ [p.attackMs, p.holdMs, p.decayMs, p.releaseMs],
            2 ^ 32 - 2 < ⌊x.toReal * s.fs.toNat / 1000⌋) →
          exec (.block n) s = .refused .stageTooLong) ∧
        ((∀ x ∈ [p.attackMs, p.holdMs, p.decayMs, p.releaseMs],
            ⌊x.toReal * s.fs.toNat / 1000⌋ ≤ 2 ^ 32 - 2) →
          ∃ t, exec (.block n) s = .next t)))

/-- END, R192: refused with P2 outside INBLOCK; else the rest of the block is rendered, `CUR <-
BLEN`, `MODE <- IDLE`; the registers that rendering does not write are as they were, and so is every
element outside `CUR..BLEN-1`. -/
def Obligations.EndRendersTheRestOfTheBlock : Prop :=
  ∀ s : State,
    (s.mode ≠ .inBlock → exec .endBlock s = .refused .wrongMode) ∧
    (s.mode = .inBlock → s.ac.toNat ≤ 128 →
      ∃ t, exec .endBlock s = .next t ∧
        t = { render (s.blen.toNat - s.cur.toNat) s.cur.toNat s with cur := s.blen, mode := .idle } ∧
        t.params = s.params ∧ t.fs = s.fs ∧ t.blen = s.blen ∧ t.snap = s.snap ∧
        t.ports = s.ports ∧ t.stream = s.stream ∧
        ∀ k, k < s.cur.toNat ∨ s.blen.toNat ≤ k →
          t.outl.read k = s.outl.read k ∧ t.outr.read k = s.outr.read k)

/-- The `MODE` machine, R200: a malformed word is refused with P1 in every `MODE`; in any `MODE` but
its own a well-formed command is refused with P2, whatever its values; one that answers leaves the
`MODE` of the table. -/
def Obligations.CommandsFollowTheModeMachine : Prop :=
  (∀ (w : CommandWord) (e : Malformed) (s : State), decode w = .error e →
    command w s = .refused (.malformed e)) ∧
  (∀ (i : Instr) (s : State), i.wellFormed = true → s.mode ≠ legalMode i →
    exec i s = .refused .wrongMode) ∧
  (∀ (i : Instr) (s t : State), exec i s = .next t → s.mode = legalMode i ∧ t.mode = nextMode i)

/-- No step changes the configuration (10_state.md R37), and `FS` is "immutable thereafter" (R190):
once initialised, only RST can change it. -/
def Obligations.ConfigurationAndSampleRateAreImmutable : Prop :=
  ∀ s t : State, step s = .next t →
    t.params = s.params ∧
    (s.mode ≠ .uninit → (∀ rest, s.stream ≠ .reset :: rest) → t.fs = s.fs)

/-! ## The events -/

/-- NOTE_OFF, 42_voice_allocator.md R177 and 41_envelope.md R149, for every `VEL`: the span before
the offset is rendered, then the voice that holds the note enters RELEASE from its current level,
or nothing more happens. -/
def Obligations.NoteOffReleasesTheHeldNote : Prop :=
  ∀ (offset : Counter) (note : Note) (vel : Velocity) (s : State), s.mode = .inBlock →
    s.cur ≤ offset → offset < s.blen → s.ac.toNat ≤ 128 →
    (∀ i j, findActive note (advanceTo offset s) = some (i, j) →
      exec (.noteOff offset note vel) s =
        .next ((advanceTo offset s).setVoice i
          { (advanceTo offset s).voice i with
            releasedEnvelopeLevel := ((advanceTo offset s).voice i).envelopeLevel
            envelopeIndex := 0
            status := .release })) ∧
    (findActive note (advanceTo offset s) = none →
      exec (.noteOff offset note vel) s = .next (advanceTo offset s))

/-- NOTE_ON of a note nobody holds, R173 and R174 with 40_wavetable_oscillator.md R124 and
41_envelope.md R151: the lowest free slot is appended to the active list and 13 of its 14 fields
written; every other voice and register is as the rendered span left it. -/
def Obligations.NoteOnStartsAFreshVoice : Prop :=
  ∀ (offset : Counter) (note : Note) (vel : Velocity) (s u : State) (i : Slot), s.mode = .inBlock →
    s.cur ≤ offset → offset < s.blen → s.ac.toNat ≤ 128 → vel ≠ 0 → u = advanceTo offset s →
    findActive note u = none → firstFree u = some i → u.ac.toNat < 128 →
      ∃ t, exec (.noteOn offset note vel) s = .next t ∧
        t.activeList = u.activeList ++ [i] ∧ t.ac = u.ac + 1 ∧
        t.voice i =
          { note := note
            velocity := vel
            phase := u.params.num.pitchLit 0
            phaseIncrement := noteIncrement u.params u.fs note
            envelopeIndex := 0
            envelopeLevel := u.params.num.lit 0
            releasedEnvelopeLevel := (u.voice i).releasedEnvelopeLevel
            attackLevel := u.params.attackLevel.toScalar
            sustainLevel := u.snap.sus
            attackDuration := u.snap.att
            holdDuration := u.snap.hld
            decayDuration := u.snap.dec
            releaseDuration := u.snap.rel
            status := .attack } ∧
        (∀ k, k ≠ i → t.voice k = u.voice k) ∧
        t = { u with voices := t.voices, al := t.al, ac := t.ac }

/-- NOTE_ON of a held note, R175: the voice that holds it is re-attacked in place, whatever its
status, and nothing else is written: no slot, no velocity, no phase. -/
def Obligations.NoteOnReattacksTheHeldNote : Prop :=
  ∀ (offset : Counter) (note : Note) (vel : Velocity) (s u : State) (i : Slot) (j : Nat),
    s.mode = .inBlock → s.cur ≤ offset → offset < s.blen → s.ac.toNat ≤ 128 → vel ≠ 0 →
    u = advanceTo offset s → findActive note u = some (i, j) →
      ∃ index, exec (.noteOn offset note vel) s =
          .next (u.setVoice i { u.voice i with envelopeIndex := index, status := .attack }) ∧
        (s.params.num = .exactReals → 0 < (u.voice i).attackLevel.toReal →
          0 ≤ (u.voice i).envelopeLevel.toReal →
          (u.voice i).envelopeLevel.toReal ≤ (u.voice i).attackLevel.toReal →
          (index.toNat : ℤ) = ⌊((u.voice i).attackDuration.toNat : ℝ) *
            ((u.voice i).envelopeLevel.toReal / (u.voice i).attackLevel.toReal)⌋)

/-- X1, 60_exceptions.md R241: a NOTE_ON that finds neither its note nor a free slot changes nothing
but what the span before it changed. -/
def Obligations.NoteOnWithNoFreeSlotIsDropped : Prop :=
  ∀ (offset : Counter) (note : Note) (vel : Velocity) (s : State), s.mode = .inBlock →
    s.cur ≤ offset → offset < s.blen → s.ac.toNat ≤ 128 → vel ≠ 0 →
    findActive note (advanceTo offset s) = none → firstFree (advanceTo offset s) = none →
      exec (.noteOn offset note vel) s = .next (advanceTo offset s)

/-- NOTE_ON of velocity 0, R176: under `as_note_off` it is NOTE_OFF, in every state; under `refuse`
it is refused with P2, P3 or P6, in that order. -/
def Obligations.NoteOnOfVelocityZeroFollowsThePolicy : Prop :=
  ∀ (offset : Counter) (note : Note) (vel : Velocity) (s : State),
    (s.params.vel0Policy = .asNoteOff →
      exec (.noteOn offset note 0) s = exec (.noteOff offset note vel) s) ∧
    (s.params.vel0Policy = .refuse →
      (s.mode ≠ .inBlock → exec (.noteOn offset note 0) s = .refused .wrongMode) ∧
      (s.mode = .inBlock → offset < s.cur ∨ s.blen ≤ offset →
        exec (.noteOn offset note 0) s = .refused .offsetOrder) ∧
      (s.mode = .inBlock → s.cur ≤ offset → offset < s.blen →
        exec (.noteOn offset note 0) s = .refused .velocityZero))

/-- CHECK_EVENT, 43_block_renderer.md R193, for both note events: P2 outside INBLOCK, else P3 for an
offset below `CUR` or not below `BLEN`. -/
def Obligations.NoteEventsCheckModeThenOffset : Prop :=
  ∀ (offset : Counter) (note : Note) (vel : Velocity) (s : State),
    (s.mode ≠ .inBlock → exec (.noteOn offset note vel) s = .refused .wrongMode ∧
      exec (.noteOff offset note vel) s = .refused .wrongMode) ∧
    (s.mode = .inBlock → offset < s.cur ∨ s.blen ≤ offset →
      exec (.noteOn offset note vel) s = .refused .offsetOrder ∧
      exec (.noteOff offset note vel) s = .refused .offsetOrder)

/-- What a note event leaves unchanged (43_block_renderer.md R193, R197, 44_parameter_snapshot.md R227):
every register but `CUR`, every element outside `CUR..offset-1`, and, for NOTE_OFF, every voice that
is not in the active list; NOTE_ON writes at most one such voice. -/
def Obligations.NoteEventsWriteOnlyTheirSpanAndVoices : Prop :=
  ∀ (offset : Counter) (note : Note) (vel : Velocity) (i : Instr) (s t : State),
    i = .noteOn offset note vel ∨ i = .noteOff offset note vel → exec i s = .next t →
      t = { s with cur := offset, voices := t.voices, al := t.al, ac := t.ac,
                   outl := t.outl, outr := t.outr } ∧
      (∀ k, k < s.cur.toNat ∨ offset.toNat ≤ k →
        t.outl.read k = s.outl.read k ∧ t.outr.read k = s.outr.read k) ∧
      (∀ k, k ∉ s.activeList → t.voice k ≠ s.voice k →
        i = .noteOn offset note vel ∧ firstFree (advanceTo offset s) = some k)

/-- An event of unrecognised kind, 42_voice_allocator.md R178: no state changes, whatever its bits;
P2 outside INBLOCK. All seven rows. -/
def Obligations.UnrecognisedEventsChangeNothing : Prop :=
  ∀ (r : BitVec 52) (s : State) (i : Instr),
    (∃ k, i = .eventK7 k r) ∨ (∃ k, i = .eventK6 k r) ∨ (∃ k, i = .eventK5 k r) ∨
    (∃ k, i = .eventK4 k r) ∨ (∃ k, i = .eventK3 k r) ∨ (∃ k, i = .eventK2 k r) ∨
    (∃ k, i = .eventK1 k r) →
      (s.mode = .inBlock → exec i s = .next s) ∧ (s.mode ≠ .inBlock → exec i s = .refused .wrongMode)

/-- A port written between BLOCK and END reaches nothing of that block (44_parameter_snapshot.md
R227, 20_memory.md R68): every command of a block gives the same next state, but for the ports. -/
def Obligations.PortsDoNotReachTheRunningBlock : Prop :=
  ∀ (i : Instr) (s t : State) (p : Ports), legalMode i = .inBlock → exec i s = .next t →
    exec i (s.setPorts p) = .next (t.setPorts p)

/-- An event that finds nothing to do may be inserted at any legal offset (43_block_renderer.md
R198): after a NOTE_OFF for a note nobody holds, the END, and every note event at that offset or a
later one, answers what it answers without it. -/
def Obligations.NoteOffOfAnUnheldNoteIsInvisible : Prop :=
  ∀ (offset : Counter) (note : Note) (vel : Velocity) (s t : State),
    exec (.noteOff offset note vel) s = .next t → findActive note (advanceTo offset s) = none →
      exec .endBlock t = exec .endBlock s ∧
      ∀ (o : Counter) (n : Note) (v : Velocity), offset ≤ o →
        exec (.noteOn o n v) t = exec (.noteOn o n v) s ∧
        exec (.noteOff o n v) t = exec (.noteOff o n v) s

/-- A voice's envelope shape, note and increment are fixed for its lifetime
(70_reset_and_hazards.md R264), over a re-attack too (42_voice_allocator.md R175): every command
leaves them in every slot, but for the free slot that a NOTE_ON finds. -/
def Obligations.SoundingVoicesKeepTheirShape : Prop :=
  ∀ (i : Instr) (s t : State) (k : Slot), exec i s = .next t →
    (∀ o n v, i = .noteOn o n v → firstFree (advanceTo o s) ≠ some k) →
    (t.voice k).note = (s.voice k).note ∧
    (t.voice k).phaseIncrement = (s.voice k).phaseIncrement ∧
    (t.voice k).attackLevel = (s.voice k).attackLevel ∧
    (t.voice k).sustainLevel = (s.voice k).sustainLevel ∧
    (t.voice k).attackDuration = (s.voice k).attackDuration ∧
    (t.voice k).holdDuration = (s.voice k).holdDuration ∧
    (t.voice k).decayDuration = (s.voice k).decayDuration ∧
    (t.voice k).releaseDuration = (s.voice k).releaseDuration

/-! ## The render loop and the mixer -/

/-- What a span leaves unchanged (43_block_renderer.md R194, R272 of 70_reset_and_hazards.md): the
registers, every element outside the span, every voice that is not in the active list. -/
def Obligations.RenderLeavesTheRestUnchanged : Prop :=
  ∀ (count start : Nat) (s : State),
    (render count start s).params = s.params ∧ (render count start s).mode = s.mode ∧
    (render count start s).fs = s.fs ∧ (render count start s).blen = s.blen ∧
    (render count start s).cur = s.cur ∧ (render count start s).snap = s.snap ∧
    (render count start s).ports = s.ports ∧ (render count start s).stream = s.stream ∧
    (∀ k, k < start ∨ start + count ≤ k →
      (render count start s).outl.read k = s.outl.read k ∧
      (render count start s).outr.read k = s.outr.read k) ∧
    (∀ i, i ∉ s.activeList → (render count start s).voice i = s.voice i) ∧
    (∀ i, ((render count start s).voice i).velocity = (s.voice i).velocity ∨
      ((render count start s).voice i).velocity = 0)

/-- One sample, R194: each active voice is ticked exactly once, the others not at all, and the
finished ones leave the active list, the rest keeping their order. A tick (R195) is one advance of
the phase and one tick of the envelope, in every number domain. -/
def Obligations.RenderSampleTicksEachActiveVoiceOnce : Prop :=
  (∀ (m : NumMode) (x : Snapshot) (v : Voice),
    (voiceTick m x v).2 = envTick m { v with phase := advancePhase m v.phase v.phaseIncrement }) ∧
  ∀ (k : Nat) (s : State), s.activeList.Nodup →
    let m := s.params.num
    let tick := fun v : Voice =>
      envTick m { v with phase := advancePhase m v.phase v.phaseIncrement }
    (∀ i ∈ s.activeList, (renderSample k s).voice i = tick (s.voice i)) ∧
    (∀ i, i ∉ s.activeList → (renderSample k s).voice i = s.voice i) ∧
    (renderSample k s).activeList =
      s.activeList.filter fun i => decide ((tick (s.voice i)).velocity ≠ 0)

/-- The mix in every number domain, R196 and R197: element `k` becomes the contributions of R195
added in list order from 0, `((o * level) * pan) * vol` each, whatever it held. -/
def Obligations.OutputSampleSumsInListOrder : Prop :=
  ∀ (k : Nat) (s : State), s.activeList.Nodup → s.outl.wf = true → s.outr.wf = true →
    let m := s.params.num
    let o := fun i : Slot => lookup m (s.voice i).phase
    let level := fun i : Slot => Amp.ofScalar ((renderSample k s).voice i).envelopeLevel
    (renderSample k s).outl.read k =
      s.activeList.foldl
        (fun acc i => m.ampAdd acc (m.ampMul (m.ampMul (m.ampMul (o i) (level i)) s.snap.panl) s.snap.vol))
        (m.ampLit 0) ∧
    (renderSample k s).outr.read k =
      s.activeList.foldl
        (fun acc i => m.ampAdd acc (m.ampMul (m.ampMul (m.ampMul (o i) (level i)) s.snap.panr) s.snap.vol))
        (m.ampLit 0)

/-- The mix over the reals, R196 with 40_wavetable_oscillator.md R122: in exact arithmetic the
output sample is the sum of (sine at the nearest table step) * level * pan gain * volume. -/
def Obligations.OutputSampleIsTheRealMix : Prop :=
  ∀ (k : Nat) (s : State), s.params.num = .exactReals → s.activeList.Nodup → s.outl.wf = true →
    s.outr.wf = true →
    let o := fun i : Slot =>
      Real.sin (2 * Real.pi * ((⌊(s.voice i).phase.toReal + 1 / 2⌋ % 2048 : ℤ) : ℝ) / 2048)
    let level := fun i : Slot => ((renderSample k s).voice i).envelopeLevel.toReal
    ((renderSample k s).outl.read k).toReal =
      (s.activeList.map fun i => o i * level i * s.snap.panl.toReal * s.snap.vol.toReal).sum ∧
    ((renderSample k s).outr.read k).toReal =
      (s.activeList.map fun i => o i * level i * s.snap.panr.toReal * s.snap.vol.toReal).sum

/-- Spans compose, R198. -/
def Obligations.SpansCompose : Prop :=
  ∀ (a b c : Nat) (s : State), a ≤ b → b ≤ c →
    render (c - b) b (render (b - a) a s) = render (c - a) a s

/-- Silence, R194, R197 and R199: while `AC == 0` every rendered element is written as the 0 of the
number domain, every element outside the span is as it was, and nothing else changes. -/
def Obligations.EmptyPoolRendersSilence : Prop :=
  ∀ (count start : Nat) (s : State), s.ac = 0 → s.outl.wf = true → s.outr.wf = true →
    (∀ k, start ≤ k → k < start + count →
      (render count start s).outl.read k = s.params.num.ampLit 0 ∧
      (render count start s).outr.read k = s.params.num.ampLit 0) ∧
    (∀ k, k < start ∨ start + count ≤ k →
      (render count start s).outl.read k = s.outl.read k ∧
      (render count start s).outr.read k = s.outr.read k) ∧
    render count start s =
      { s with outl := (render count start s).outl, outr := (render count start s).outr }

/-- The buffers keep their canonical form under every step, so that equal buffers are equal data
(the model's form, entry 14). -/
def Obligations.BuffersStayCanonical : Prop :=
  ∀ s t : State, s.outl.wf = true → s.outr.wf = true → step s = .next t →
    t.outl.wf = true ∧ t.outr.wf = true

/-! ## The envelope -/

/-- ENV_TICK in ATTACK, 41_envelope.md R141. -/
def Obligations.AttackTickRampsOrSnaps : Prop :=
  ∀ v : Voice, v.status = .attack →
    (v.attackDuration.toNat < v.envelopeIndex.toNat + 1 →
      envTick .exactReals v =
        { v with
          envelopeLevel := v.attackLevel
          envelopeIndex := 0
          status := if 0 < v.holdDuration.toNat then .hold else .decay }) ∧
    (v.envelopeIndex.toNat + 1 ≤ v.attackDuration.toNat →
      envTick .exactReals v =
        { v with
          envelopeIndex := v.envelopeIndex + 1
          envelopeLevel := (envTick .exactReals v).envelopeLevel } ∧
      (envTick .exactReals v).envelopeLevel.toReal =
        v.attackLevel.toReal * ((v.envelopeIndex.toNat + 1 : ℕ) : ℝ) / (v.attackDuration.toNat : ℝ))

/-- ENV_TICK in HOLD, R142. -/
def Obligations.HoldTickKeepsAttackLevel : Prop :=
  ∀ v : Voice, v.status = .hold →
    (v.holdDuration.toNat < v.envelopeIndex.toNat + 1 →
      envTick .exactReals v =
        { v with envelopeLevel := v.attackLevel, envelopeIndex := 0, status := .decay }) ∧
    (v.envelopeIndex.toNat + 1 ≤ v.holdDuration.toNat →
      envTick .exactReals v =
        { v with envelopeLevel := v.attackLevel, envelopeIndex := v.envelopeIndex + 1 })

/-- ENV_TICK in DECAY, R143: the ramp, the snap to SUSTAIN, or retirement at a zero sustain. The
index that retirement leaves is a 32-bit counter (00_scope.md R9), hence that clause's bound. -/
def Obligations.DecayTickRampsSnapsOrRetires : Prop :=
  ∀ v : Voice, v.status = .decay →
    (v.decayDuration.toNat < v.envelopeIndex.toNat + 1 → 0 < v.sustainLevel.toReal →
      envTick .exactReals v =
        { v with envelopeLevel := v.sustainLevel, envelopeIndex := 0, status := .sustain }) ∧
    (v.decayDuration.toNat < v.envelopeIndex.toNat + 1 → v.sustainLevel.toReal = 0 →
      v.envelopeIndex.toNat + 1 < 2 ^ 32 →
      envTick .exactReals v =
        { v with
          envelopeLevel := v.sustainLevel, envelopeIndex := v.envelopeIndex + 1, velocity := 0 }) ∧
    (v.envelopeIndex.toNat + 1 ≤ v.decayDuration.toNat →
      envTick .exactReals v =
        { v with
          envelopeIndex := v.envelopeIndex + 1
          envelopeLevel := (envTick .exactReals v).envelopeLevel } ∧
      (envTick .exactReals v).envelopeLevel.toReal =
        v.attackLevel.toReal - (v.attackLevel.toReal - v.sustainLevel.toReal) *
          ((v.envelopeIndex.toNat + 1 : ℕ) : ℝ) / (v.decayDuration.toNat : ℝ))

/-- ENV_TICK in SUSTAIN, R144. -/
def Obligations.SustainTickHoldsTheLevel : Prop :=
  ∀ (m : NumMode) (v : Voice), v.status = .sustain →
    envTick m v = { v with envelopeLevel := v.sustainLevel }

/-- ENV_TICK in RELEASE, R145: the ramp to 0, then retirement, with the same bound. -/
def Obligations.ReleaseTickRampsOrRetires : Prop :=
  ∀ v : Voice, v.status = .release →
    (v.releaseDuration.toNat < v.envelopeIndex.toNat + 1 → v.envelopeIndex.toNat + 1 < 2 ^ 32 →
      envTick .exactReals v =
        { v with
          envelopeLevel := .ofRat 0, envelopeIndex := v.envelopeIndex + 1, velocity := 0 }) ∧
    (v.envelopeIndex.toNat + 1 ≤ v.releaseDuration.toNat →
      envTick .exactReals v =
        { v with
          envelopeIndex := v.envelopeIndex + 1
          envelopeLevel := (envTick .exactReals v).envelopeLevel } ∧
      (envTick .exactReals v).envelopeLevel.toReal =
        v.releasedEnvelopeLevel.toReal *
          (1 - ((v.envelopeIndex.toNat + 1 : ℕ) : ℝ) / (v.releaseDuration.toNat : ℝ)))

/-- The attack of a fresh voice, R147: levels `al*k/A` on ticks `k = 1..A`, the crossing on tick
`A + 1`. -/
def Obligations.AttackLastsDurationPlusOneTicks : Prop :=
  ∀ v : Voice, v.status = .attack → v.envelopeIndex = 0 →
    (∀ k, 1 ≤ k → k ≤ v.attackDuration.toNat →
      (ticks .exactReals k v).status = .attack ∧
      (ticks .exactReals k v).envelopeIndex.toNat = k ∧
      (ticks .exactReals k v).envelopeLevel.toReal =
        v.attackLevel.toReal * (k : ℝ) / (v.attackDuration.toNat : ℝ)) ∧
    (ticks .exactReals (v.attackDuration.toNat + 1) v).status =
      (if 0 < v.holdDuration.toNat then .hold else .decay) ∧
    (ticks .exactReals (v.attackDuration.toNat + 1) v).envelopeIndex = 0 ∧
    (ticks .exactReals (v.attackDuration.toNat + 1) v).envelopeLevel = v.attackLevel

/-- A released voice, R147: levels `rl*(1 - k/R)` on ticks `k = 1..R`, and it retires on tick
`R + 1`, not before. -/
def Obligations.ReleaseRetiresAfterDurationPlusOneTicks : Prop :=
  ∀ v : Voice, v.status = .release → v.envelopeIndex = 0 → v.velocity ≠ 0 →
    (∀ k, 1 ≤ k → k ≤ v.releaseDuration.toNat →
      (ticks .exactReals k v).velocity = v.velocity ∧
      (ticks .exactReals k v).envelopeLevel.toReal =
        v.releasedEnvelopeLevel.toReal * (1 - (k : ℝ) / (v.releaseDuration.toNat : ℝ))) ∧
    (ticks .exactReals (v.releaseDuration.toNat + 1) v).velocity = 0 ∧
    (ticks .exactReals (v.releaseDuration.toNat + 1) v).envelopeLevel.toReal = 0

/-- The whole envelope of an unreleased voice, R147: after `(A + 1) + (H + 1 if H > 0) + (D + 1)`
ticks it is in SUSTAIN at `sl` and stays there; with `sl = 0` it has retired exactly then. -/
def Obligations.FreshVoiceReachesSustainOnTime : Prop :=
  ∀ v : Voice, v.status = .attack → v.envelopeIndex = 0 → v.velocity ≠ 0 →
    let n := (v.attackDuration.toNat + 1) +
      (if 0 < v.holdDuration.toNat then v.holdDuration.toNat + 1 else 0) +
      (v.decayDuration.toNat + 1)
    (∀ k, k < n → (ticks .exactReals k v).velocity = v.velocity ∧
      (ticks .exactReals k v).status ≠ .sustain) ∧
    (0 < v.sustainLevel.toReal → ∀ k,
      (ticks .exactReals (n + k) v).status = .sustain ∧
      (ticks .exactReals (n + k) v).envelopeLevel = v.sustainLevel ∧
      (ticks .exactReals (n + k) v).envelopeIndex = 0 ∧
      (ticks .exactReals (n + k) v).velocity = v.velocity) ∧
    (v.sustainLevel.toReal = 0 → (ticks .exactReals n v).velocity = 0 ∧
      (ticks .exactReals n v).envelopeLevel.toReal = 0)

/-- Zero-length stages, 70_reset_and_hazards.md R269: with `A = H = D = 0` and `sl > 0` a new voice
is in SUSTAIN after its second tick. -/
def Obligations.ZeroDurationsReachSustainInTwoTicks : Prop :=
  ∀ v : Voice, v.status = .attack → v.envelopeIndex = 0 → v.attackDuration = 0 →
    v.holdDuration = 0 → v.decayDuration = 0 → 0 < v.sustainLevel.toReal →
      (ticks .exactReals 1 v).status = .decay ∧
      (ticks .exactReals 1 v).envelopeLevel = v.attackLevel ∧
      (ticks .exactReals 2 v).status = .sustain ∧
      (ticks .exactReals 2 v).envelopeLevel = v.sustainLevel

/-- R148 (a) and (d): a tick keeps the level in `[0, al]`, and keeps the ranges of R22 or frees the
voice. -/
def Obligations.TickKeepsTheVoiceRanges : Prop :=
  ∀ v : Voice, VoiceInv v →
    0 ≤ (envTick .exactReals v).envelopeLevel.toReal ∧
    (envTick .exactReals v).envelopeLevel.toReal ≤ v.attackLevel.toReal ∧
    ((envTick .exactReals v).velocity ≠ 0 → VoiceInv (envTick .exactReals v))

/-- Re-attack without a click, R150: the index is `floor(A * (L / al))`, and the next tick moves up
from `L` by at most one step of the attack ramp, or crosses at full level. -/
def Obligations.ReattackIsContinuous : Prop :=
  ∀ v : Voice, 0 < v.attackLevel.toReal → 0 ≤ v.envelopeLevel.toReal →
    v.envelopeLevel.toReal ≤ v.attackLevel.toReal →
    let a := v.attackDuration.toNat
    let k := (envReattack .exactReals v).envelopeIndex.toNat
    let next := (envTick .exactReals (envReattack .exactReals v)).envelopeLevel.toReal
    (k : ℤ) = ⌊(a : ℝ) * (v.envelopeLevel.toReal / v.attackLevel.toReal)⌋ ∧ k ≤ a ∧
    (k < a → next = v.attackLevel.toReal * ((k + 1 : ℕ) : ℝ) / (a : ℝ) ∧
      v.envelopeLevel.toReal < next ∧
      next ≤ v.envelopeLevel.toReal + v.attackLevel.toReal / (a : ℝ)) ∧
    (k = a → next = v.attackLevel.toReal)

/-! ## The oscillator and the tables -/

/-- The wavetable is the sine, 40_wavetable_oscillator.md R120 and 10_state.md R32. -/
def Obligations.WavetableIsTheSine : Prop :=
  ∀ k : Nat, k < 2048 →
    (waveTable .exactReals k).toReal = Real.sin ((k : ℝ) * 2 * Real.pi / 2048)

/-- Sums and products of amplitudes are those of the reals they stand for, and a level or a rational
taken into them is the real it was: exact real arithmetic is the reference (00_scope.md R8). -/
def Obligations.AmplitudeArithmeticIsExact : Prop :=
  ∀ (a b : Amp) (x : Scalar) (q : Rat),
    (a.add b).toReal = a.toReal + b.toReal ∧ (a.mul b).toReal = a.toReal * b.toReal ∧
    (Amp.ofScalar x).toReal = x.toReal ∧ (Amp.ofRat q).toReal = (q : ℝ)

/-- `floor` of a phase is the greatest integer not above the real number it stands for (00_scope.md
R14), whether that is rational, holds a root of two, or is a named real. -/
def Obligations.PitchFloorIsTheRealFloor : Prop :=
  ∀ x : Pitch, x.floor = ⌊x.toReal⌋

/-- LOOKUP, R122: the nearest table entry, ties upward, the index modulo 2048; on every phase. -/
def Obligations.LookupReadsTheNearestEntry : Prop :=
  ∀ u : Pitch,
    (lookup .exactReals u).toReal =
      Real.sin (2 * Real.pi * ((⌊u.toReal + 1 / 2⌋ % 2048 : ℤ) : ℝ) / 2048)

/-- OSC_SEED, R124: the increment is `2048 * FREQ[note] / FS` table steps (R121). -/
def Obligations.NoteIncrementIsFrequencyOverRate : Prop :=
  ∀ (p : Params) (fs : Counter) (note : Note), p.num = .exactReals → fs ≠ 0 →
    (noteIncrement p fs note).toReal =
      2048 * (p.freq[note.toNat]'note.isLt).toReal / (fs.toNat : ℝ)

/-- The closed form of the phase, R126: after `t` advances from 0 it is `(t * du) mod 2048`, in
`[0, 2048)`, and the entry read there is the nearest to it. -/
def Obligations.PhaseIsTicksTimesIncrementModPeriod : Prop :=
  ∀ (t : Nat) (du : Pitch),
    let x := (t : ℝ) * du.toReal - 2048 * (⌊(t : ℝ) * du.toReal / 2048⌋ : ℝ)
    (advances .exactReals t (.ofRat 0) du).toReal = x ∧ 0 ≤ x ∧ x < 2048 ∧
    (lookup .exactReals (advances .exactReals t (.ofRat 0) du)).toReal =
      Real.sin (2 * Real.pi * ((⌊x + 1 / 2⌋ % 2048 : ℤ) : ℝ) / 2048)

/-- The default frequency table, `440 * 2^((n-69)/12)`. It is the model's choice, PRESUMED (entry 6):
00_scope.md R7 gives it as a default from general knowledge, and by 10_state.md R33 no claim about
another table may assume an entry of it. -/
def Obligations.DefaultFrequenciesAreEqualTempered : Prop :=
  ∀ (n : Nat) (h : n < 128),
    (defaultParams.freq[n]'h).toReal = 440 * (2 : ℝ) ^ (((n : ℝ) - 69) / 12)

/-- The constant-power pan law, 44_parameter_snapshot.md R222: for every legal `panning` both gains
are in `[0, 1]` and their squares sum to 1. -/
def Obligations.PanGainsHaveConstantPower : Prop :=
  ∀ (p : Params) (fs : Counter) (x : PortSample), p.num = .exactReals → x.legal .exactReals = true →
    0 ≤ (snapshotOf p fs x).panl.toReal ∧ (snapshotOf p fs x).panl.toReal ≤ 1 ∧
    0 ≤ (snapshotOf p fs x).panr.toReal ∧ (snapshotOf p fs x).panr.toReal ≤ 1 ∧
    (snapshotOf p fs x).panl.toReal ^ 2 + (snapshotOf p fs x).panr.toReal ^ 2 = 1

/-! ## The voice pool -/

/-- FIND_ACTIVE, 42_voice_allocator.md R170: the first position of the active list whose voice holds
the note, none exactly if no active voice does. -/
def Obligations.FindActiveReturnsTheFirstMatch : Prop :=
  ∀ (note : Note) (s : State),
    (∀ i j, findActive note s = some (i, j) ↔
      s.activeList[j]? = some i ∧ (s.voice i).note = note ∧
      ∀ k, k < j → ∀ n, s.activeList[k]? = some n → (s.voice n).note ≠ note) ∧
    (findActive note s = none ↔ ∀ i ∈ s.activeList, (s.voice i).note ≠ note)

/-- ALLOCATE, R171: the lowest-numbered free slot, none exactly if every slot is occupied; it goes to
the end of the active list. -/
def Obligations.AllocateTakesTheLowestFreeSlot : Prop :=
  ∀ s : State,
    (∀ i, firstFree s = some i ↔
      (s.voice i).velocity = 0 ∧ ∀ k, k < i → (s.voice k).velocity ≠ 0) ∧
    (firstFree s = none ↔ ∀ i, (s.voice i).velocity ≠ 0) ∧
    (∀ i, s.ac.toNat < 128 → (appendActive i s).activeList = s.activeList ++ [i] ∧
      (appendActive i s).ac = s.ac + 1 ∧
      appendActive i s = { s with al := (appendActive i s).al, ac := (appendActive i s).ac })

/-- RETIRE(j), R172: entry `j` leaves, the others keep their order, `AC` falls by one, and no voice
field is written. -/
def Obligations.RetireRemovesOneEntry : Prop :=
  ∀ (j : Nat) (s : State), s.ac.toNat ≤ 128 → j < s.ac.toNat →
    (retire j s).activeList = s.activeList.eraseIdx j ∧
    (retire j s).ac.toNat + 1 = s.ac.toNat ∧
    retire j s = { s with al := (retire j s).al, ac := (retire j s).ac }

/-- The polyphony ceiling cannot be reached, R180: under INV1 to INV5 a note nobody holds always
finds a free slot, and the list has room for it. -/
def Obligations.UnheldNoteAlwaysFindsAFreeSlot : Prop :=
  ∀ (note : Note) (s : State), PoolInv s → findActive note s = none →
    (∃ i, firstFree s = some i) ∧ s.ac.toNat < 128

/-! ## Invariants -/

/-- INV1 to INV5 of 10_state.md R27 are kept by every step, in every number domain
(42_voice_allocator.md R179). For the commands that is the spec's; after RST, which leaves `AC` and
the velocities unspecified (R36, R260), they hold by the values the model names (entries 10 and
11). -/
def Obligations.EveryStepKeepsThePoolInvariant : Prop :=
  ∀ s t : State, PoolInv s → step s = .next t → PoolInv t

/-- In exact arithmetic every step keeps, with the pool, the ranges R22 gives every active voice
(INV6), `CUR <= BLEN` and `FS > 0` (R28), and the latched snapshot legal. After RST, which leaves
these registers unspecified (R36, R260), they hold by the values the model names (entries 10 and 11).
The invariant carries two things of the model's own: the canonical form of the output buffers
(entry 14), and that a phase and its increment have a sum (entry 4). -/
def Obligations.EveryStepKeepsTheEngineInvariant : Prop :=
  ∀ s t : State, EngineInv s → step s = .next t → EngineInv t

/-- The machine after reset satisfies the invariants; the values the spec leaves unspecified there
are the model's (entry 10), and so are the defaults of the parameters, the frequency table among them
(entries 6 and 8). -/
def Obligations.ResetSatisfiesTheEngineInvariant : Prop :=
  EngineInv State.reset

/-- "There is no fault and no trap" (00_scope.md R12): under INV1 to INV5 no step faults. -/
def Obligations.NoStepFaultsUnderThePoolInvariant : Prop :=
  ∀ (s : State) (f : Fault), PoolInv s → step s ≠ .fault f
end

