-- ==== Sys2Proof/Laws/Memory.lean ====
section
/-! SUPPORT. What the element memories OUTL and OUTR do, said once: read after write, and the
canonical form that every write keeps. -/

namespace Sys2Proof.Machine

theorem cellsAbove_mono {low low' : Nat} {xs : List (Nat × Amp)} (h : low' ≤ low)
    (hx : cellsAbove low xs = true) : cellsAbove low' xs = true := by
  cases xs with
  | nil => rfl
  | cons x rest =>
    simp only [cellsAbove, Bool.and_eq_true, decide_eq_true_eq] at hx ⊢
    exact ⟨⟨by omega, hx.1.2⟩, hx.2⟩

/-- Below the first listed index everything reads as 0. -/
theorem readCells_below {low : Nat} {xs : List (Nat × Amp)} (h : cellsAbove low xs = true) {k : Nat}
    (hk : k < low) : readCells xs k = Amp.zero := by
  induction xs generalizing low with
  | nil => rfl
  | cons x rest ih =>
    simp only [cellsAbove, Bool.and_eq_true, decide_eq_true_eq] at h
    simp only [readCells]
    rw [if_neg (by omega)]
    exact ih h.2 (by omega)

theorem readCells_writeCells_ne (k n : Nat) (v : Amp) (xs : List (Nat × Amp)) (h : n ≠ k) :
    readCells (writeCells k v xs) n = readCells xs n := by
  induction xs with
  | nil => by_cases hv : v = Amp.zero <;> simp [writeCells, readCells, hv, Ne.symm h]
  | cons x rest ih =>
    obtain ⟨a, u⟩ := x
    simp only [writeCells]
    split
    · split <;> simp [readCells, Ne.symm h]
    · split
      · rename_i hka
        subst hka
        split <;> simp [readCells, Ne.symm h]
      · simp [readCells, ih]

theorem readCells_writeCells_same {low : Nat} (k : Nat) (v : Amp) (xs : List (Nat × Amp))
    (h : cellsAbove low xs = true) : readCells (writeCells k v xs) k = v := by
  induction xs generalizing low with
  | nil => by_cases hv : v = Amp.zero <;> simp [writeCells, readCells, hv]
  | cons x rest ih =>
    obtain ⟨a, u⟩ := x
    simp only [cellsAbove, Bool.and_eq_true, decide_eq_true_eq] at h
    simp only [writeCells]
    split
    · split
      · rename_i hka hv
        rw [readCells, if_neg (by omega), hv]
        exact readCells_below h.2 (by omega)
      · simp [readCells]
    · split
      · split
        · rename_i hka hv
          rw [hv]
          exact readCells_below h.2 (by omega)
        · simp [readCells]
      · rename_i h1 h2
        rw [readCells, if_neg (fun e => h2 e.symm)]
        exact ih h.2

theorem cellsAbove_writeCells {low : Nat} (k : Nat) (v : Amp) (xs : List (Nat × Amp))
    (hk : low ≤ k) (h : cellsAbove low xs = true) : cellsAbove low (writeCells k v xs) = true := by
  induction xs generalizing low with
  | nil => by_cases hv : v = Amp.zero <;> simp [writeCells, cellsAbove, hv, hk]
  | cons x rest ih =>
    obtain ⟨a, u⟩ := x
    have h' := h
    simp only [cellsAbove, Bool.and_eq_true, decide_eq_true_eq] at h
    simp only [writeCells]
    split
    · split
      · exact h'
      · rename_i hka hv
        simp only [cellsAbove, Bool.and_eq_true, decide_eq_true_eq]
        exact ⟨⟨hk, hv⟩, ⟨⟨by omega, h.1.2⟩, h.2⟩⟩
    · split
      · rename_i hka
        subst hka
        split
        · exact cellsAbove_mono (by omega) h.2
        · rename_i hv
          simp only [cellsAbove, Bool.and_eq_true, decide_eq_true_eq]
          exact ⟨⟨hk, hv⟩, h.2⟩
      · rename_i h1 h2
        simp only [cellsAbove, Bool.and_eq_true, decide_eq_true_eq]
        exact ⟨h.1, ih (by omega) h.2⟩

/-- A write keeps the canonical form. -/
theorem Memory.write_wf (m : Memory) (k : Nat) (v : Amp) (h : m.wf = true) :
    (m.write k v).wf = true :=
  cellsAbove_writeCells k v m.cells (Nat.zero_le k) h

theorem Memory.read_write_same (m : Memory) (k : Nat) (v : Amp) (h : m.wf = true) :
    (m.write k v).read k = v :=
  readCells_writeCells_same k v m.cells h

theorem Memory.read_write_ne (m : Memory) {k n : Nat} (v : Amp) (h : n ≠ k) :
    (m.write k v).read n = m.read n :=
  readCells_writeCells_ne k n v m.cells h

/-- The buffers after reset are canonical. -/
theorem reset_buffers_wf : State.reset.outl.wf = true ∧ State.reset.outr.wf = true := ⟨rfl, rfl⟩

/-- Two canonical cell lists that read alike are equal. -/
theorem cells_ext {low : Nat} {xs ys : List (Nat × Amp)} (hx : cellsAbove low xs = true)
    (hy : cellsAbove low ys = true) (h : ∀ k, readCells xs k = readCells ys k) : xs = ys := by
  induction xs generalizing low ys with
  | nil =>
    cases ys with
    | nil => rfl
    | cons y rest =>
      simp only [cellsAbove, Bool.and_eq_true, decide_eq_true_eq] at hy
      have := h y.1
      simp only [readCells, if_true] at this
      exact absurd this.symm hy.1.2
  | cons x rest ih =>
    obtain ⟨a, u⟩ := x
    simp only [cellsAbove, Bool.and_eq_true, decide_eq_true_eq] at hx
    cases ys with
    | nil =>
      have := h a
      simp only [readCells, if_true] at this
      exact absurd this hx.1.2
    | cons y rest' =>
      obtain ⟨b, w⟩ := y
      simp only [cellsAbove, Bool.and_eq_true, decide_eq_true_eq] at hy
      have hab : a = b := by
        by_contra hne
        rcases Nat.lt_or_gt_of_ne hne with hlt | hlt
        · have := h a
          rw [readCells, if_pos rfl, readCells, if_neg (by omega),
            readCells_below hy.2 (by omega)] at this
          exact hx.1.2 this
        · have := h b
          rw [readCells, if_neg (by omega), readCells_below hx.2 (by omega), readCells,
            if_pos rfl] at this
          exact hy.1.2 this.symm
      subst hab
      have huw : u = w := by simpa [readCells] using h a
      subst huw
      congr 1
      refine ih hx.2 hy.2 fun k => ?_
      by_cases hk : k = a
      · subst hk
        rw [readCells_below hx.2 (by omega), readCells_below hy.2 (by omega)]
      · have := h k
        rwa [readCells, if_neg (Ne.symm hk), readCells, if_neg (Ne.symm hk)] at this

/-- Equal canonical memories are equal data. -/
theorem Memory.ext_read {m n : Memory} (hm : m.wf = true) (hn : n.wf = true)
    (h : ∀ k, m.read k = n.read k) : m = n := by
  cases m; cases n
  exact congrArg Memory.mk (cells_ext hm hn h)

end Sys2Proof.Machine
end

