-- ==== Sys2Proof/Laws/State.lean ====
section
/-! SUPPORT. One lemma per field per update of State, so that no proof unfolds a record update. -/

namespace Sys2Proof.Machine

@[simp] theorem setMode_params (s : State) (x : Mode) : (s.setMode x).params = s.params := rfl
@[simp] theorem setMode_mode (s : State) (x : Mode) : (s.setMode x).mode = x := rfl
@[simp] theorem setMode_fs (s : State) (x : Mode) : (s.setMode x).fs = s.fs := rfl
@[simp] theorem setMode_blen (s : State) (x : Mode) : (s.setMode x).blen = s.blen := rfl
@[simp] theorem setMode_cur (s : State) (x : Mode) : (s.setMode x).cur = s.cur := rfl
@[simp] theorem setMode_voices (s : State) (x : Mode) : (s.setMode x).voices = s.voices := rfl
@[simp] theorem setMode_al (s : State) (x : Mode) : (s.setMode x).al = s.al := rfl
@[simp] theorem setMode_ac (s : State) (x : Mode) : (s.setMode x).ac = s.ac := rfl
@[simp] theorem setMode_snap (s : State) (x : Mode) : (s.setMode x).snap = s.snap := rfl
@[simp] theorem setMode_ports (s : State) (x : Mode) : (s.setMode x).ports = s.ports := rfl
@[simp] theorem setMode_outl (s : State) (x : Mode) : (s.setMode x).outl = s.outl := rfl
@[simp] theorem setMode_outr (s : State) (x : Mode) : (s.setMode x).outr = s.outr := rfl
@[simp] theorem setMode_stream (s : State) (x : Mode) : (s.setMode x).stream = s.stream := rfl

@[simp] theorem setFs_params (s : State) (x : Counter) : (s.setFs x).params = s.params := rfl
@[simp] theorem setFs_mode (s : State) (x : Counter) : (s.setFs x).mode = s.mode := rfl
@[simp] theorem setFs_fs (s : State) (x : Counter) : (s.setFs x).fs = x := rfl
@[simp] theorem setFs_blen (s : State) (x : Counter) : (s.setFs x).blen = s.blen := rfl
@[simp] theorem setFs_cur (s : State) (x : Counter) : (s.setFs x).cur = s.cur := rfl
@[simp] theorem setFs_voices (s : State) (x : Counter) : (s.setFs x).voices = s.voices := rfl
@[simp] theorem setFs_al (s : State) (x : Counter) : (s.setFs x).al = s.al := rfl
@[simp] theorem setFs_ac (s : State) (x : Counter) : (s.setFs x).ac = s.ac := rfl
@[simp] theorem setFs_snap (s : State) (x : Counter) : (s.setFs x).snap = s.snap := rfl
@[simp] theorem setFs_ports (s : State) (x : Counter) : (s.setFs x).ports = s.ports := rfl
@[simp] theorem setFs_outl (s : State) (x : Counter) : (s.setFs x).outl = s.outl := rfl
@[simp] theorem setFs_outr (s : State) (x : Counter) : (s.setFs x).outr = s.outr := rfl
@[simp] theorem setFs_stream (s : State) (x : Counter) : (s.setFs x).stream = s.stream := rfl

@[simp] theorem setBlen_params (s : State) (x : Counter) : (s.setBlen x).params = s.params := rfl
@[simp] theorem setBlen_mode (s : State) (x : Counter) : (s.setBlen x).mode = s.mode := rfl
@[simp] theorem setBlen_fs (s : State) (x : Counter) : (s.setBlen x).fs = s.fs := rfl
@[simp] theorem setBlen_blen (s : State) (x : Counter) : (s.setBlen x).blen = x := rfl
@[simp] theorem setBlen_cur (s : State) (x : Counter) : (s.setBlen x).cur = s.cur := rfl
@[simp] theorem setBlen_voices (s : State) (x : Counter) : (s.setBlen x).voices = s.voices := rfl
@[simp] theorem setBlen_al (s : State) (x : Counter) : (s.setBlen x).al = s.al := rfl
@[simp] theorem setBlen_ac (s : State) (x : Counter) : (s.setBlen x).ac = s.ac := rfl
@[simp] theorem setBlen_snap (s : State) (x : Counter) : (s.setBlen x).snap = s.snap := rfl
@[simp] theorem setBlen_ports (s : State) (x : Counter) : (s.setBlen x).ports = s.ports := rfl
@[simp] theorem setBlen_outl (s : State) (x : Counter) : (s.setBlen x).outl = s.outl := rfl
@[simp] theorem setBlen_outr (s : State) (x : Counter) : (s.setBlen x).outr = s.outr := rfl
@[simp] theorem setBlen_stream (s : State) (x : Counter) : (s.setBlen x).stream = s.stream := rfl

@[simp] theorem setCur_params (s : State) (x : Counter) : (s.setCur x).params = s.params := rfl
@[simp] theorem setCur_mode (s : State) (x : Counter) : (s.setCur x).mode = s.mode := rfl
@[simp] theorem setCur_fs (s : State) (x : Counter) : (s.setCur x).fs = s.fs := rfl
@[simp] theorem setCur_blen (s : State) (x : Counter) : (s.setCur x).blen = s.blen := rfl
@[simp] theorem setCur_cur (s : State) (x : Counter) : (s.setCur x).cur = x := rfl
@[simp] theorem setCur_voices (s : State) (x : Counter) : (s.setCur x).voices = s.voices := rfl
@[simp] theorem setCur_al (s : State) (x : Counter) : (s.setCur x).al = s.al := rfl
@[simp] theorem setCur_ac (s : State) (x : Counter) : (s.setCur x).ac = s.ac := rfl
@[simp] theorem setCur_snap (s : State) (x : Counter) : (s.setCur x).snap = s.snap := rfl
@[simp] theorem setCur_ports (s : State) (x : Counter) : (s.setCur x).ports = s.ports := rfl
@[simp] theorem setCur_outl (s : State) (x : Counter) : (s.setCur x).outl = s.outl := rfl
@[simp] theorem setCur_outr (s : State) (x : Counter) : (s.setCur x).outr = s.outr := rfl
@[simp] theorem setCur_stream (s : State) (x : Counter) : (s.setCur x).stream = s.stream := rfl

@[simp] theorem setAc_params (s : State) (x : BitVec 8) : (s.setAc x).params = s.params := rfl
@[simp] theorem setAc_mode (s : State) (x : BitVec 8) : (s.setAc x).mode = s.mode := rfl
@[simp] theorem setAc_fs (s : State) (x : BitVec 8) : (s.setAc x).fs = s.fs := rfl
@[simp] theorem setAc_blen (s : State) (x : BitVec 8) : (s.setAc x).blen = s.blen := rfl
@[simp] theorem setAc_cur (s : State) (x : BitVec 8) : (s.setAc x).cur = s.cur := rfl
@[simp] theorem setAc_voices (s : State) (x : BitVec 8) : (s.setAc x).voices = s.voices := rfl
@[simp] theorem setAc_al (s : State) (x : BitVec 8) : (s.setAc x).al = s.al := rfl
@[simp] theorem setAc_ac (s : State) (x : BitVec 8) : (s.setAc x).ac = x := rfl
@[simp] theorem setAc_snap (s : State) (x : BitVec 8) : (s.setAc x).snap = s.snap := rfl
@[simp] theorem setAc_ports (s : State) (x : BitVec 8) : (s.setAc x).ports = s.ports := rfl
@[simp] theorem setAc_outl (s : State) (x : BitVec 8) : (s.setAc x).outl = s.outl := rfl
@[simp] theorem setAc_outr (s : State) (x : BitVec 8) : (s.setAc x).outr = s.outr := rfl
@[simp] theorem setAc_stream (s : State) (x : BitVec 8) : (s.setAc x).stream = s.stream := rfl

@[simp] theorem setSnap_params (s : State) (x : Snapshot) : (s.setSnap x).params = s.params := rfl
@[simp] theorem setSnap_mode (s : State) (x : Snapshot) : (s.setSnap x).mode = s.mode := rfl
@[simp] theorem setSnap_fs (s : State) (x : Snapshot) : (s.setSnap x).fs = s.fs := rfl
@[simp] theorem setSnap_blen (s : State) (x : Snapshot) : (s.setSnap x).blen = s.blen := rfl
@[simp] theorem setSnap_cur (s : State) (x : Snapshot) : (s.setSnap x).cur = s.cur := rfl
@[simp] theorem setSnap_voices (s : State) (x : Snapshot) : (s.setSnap x).voices = s.voices := rfl
@[simp] theorem setSnap_al (s : State) (x : Snapshot) : (s.setSnap x).al = s.al := rfl
@[simp] theorem setSnap_ac (s : State) (x : Snapshot) : (s.setSnap x).ac = s.ac := rfl
@[simp] theorem setSnap_snap (s : State) (x : Snapshot) : (s.setSnap x).snap = x := rfl
@[simp] theorem setSnap_ports (s : State) (x : Snapshot) : (s.setSnap x).ports = s.ports := rfl
@[simp] theorem setSnap_outl (s : State) (x : Snapshot) : (s.setSnap x).outl = s.outl := rfl
@[simp] theorem setSnap_outr (s : State) (x : Snapshot) : (s.setSnap x).outr = s.outr := rfl
@[simp] theorem setSnap_stream (s : State) (x : Snapshot) : (s.setSnap x).stream = s.stream := rfl

@[simp] theorem setPorts_params (s : State) (x : Ports) : (s.setPorts x).params = s.params := rfl
@[simp] theorem setPorts_mode (s : State) (x : Ports) : (s.setPorts x).mode = s.mode := rfl
@[simp] theorem setPorts_fs (s : State) (x : Ports) : (s.setPorts x).fs = s.fs := rfl
@[simp] theorem setPorts_blen (s : State) (x : Ports) : (s.setPorts x).blen = s.blen := rfl
@[simp] theorem setPorts_cur (s : State) (x : Ports) : (s.setPorts x).cur = s.cur := rfl
@[simp] theorem setPorts_voices (s : State) (x : Ports) : (s.setPorts x).voices = s.voices := rfl
@[simp] theorem setPorts_al (s : State) (x : Ports) : (s.setPorts x).al = s.al := rfl
@[simp] theorem setPorts_ac (s : State) (x : Ports) : (s.setPorts x).ac = s.ac := rfl
@[simp] theorem setPorts_snap (s : State) (x : Ports) : (s.setPorts x).snap = s.snap := rfl
@[simp] theorem setPorts_ports (s : State) (x : Ports) : (s.setPorts x).ports = x := rfl
@[simp] theorem setPorts_outl (s : State) (x : Ports) : (s.setPorts x).outl = s.outl := rfl
@[simp] theorem setPorts_outr (s : State) (x : Ports) : (s.setPorts x).outr = s.outr := rfl
@[simp] theorem setPorts_stream (s : State) (x : Ports) : (s.setPorts x).stream = s.stream := rfl

@[simp] theorem setVoices_params (s : State) (x : Vector Voice 128) : (s.setVoices x).params = s.params := rfl
@[simp] theorem setVoices_mode (s : State) (x : Vector Voice 128) : (s.setVoices x).mode = s.mode := rfl
@[simp] theorem setVoices_fs (s : State) (x : Vector Voice 128) : (s.setVoices x).fs = s.fs := rfl
@[simp] theorem setVoices_blen (s : State) (x : Vector Voice 128) : (s.setVoices x).blen = s.blen := rfl
@[simp] theorem setVoices_cur (s : State) (x : Vector Voice 128) : (s.setVoices x).cur = s.cur := rfl
@[simp] theorem setVoices_voices (s : State) (x : Vector Voice 128) : (s.setVoices x).voices = x := rfl
@[simp] theorem setVoices_al (s : State) (x : Vector Voice 128) : (s.setVoices x).al = s.al := rfl
@[simp] theorem setVoices_ac (s : State) (x : Vector Voice 128) : (s.setVoices x).ac = s.ac := rfl
@[simp] theorem setVoices_snap (s : State) (x : Vector Voice 128) : (s.setVoices x).snap = s.snap := rfl
@[simp] theorem setVoices_ports (s : State) (x : Vector Voice 128) : (s.setVoices x).ports = s.ports := rfl
@[simp] theorem setVoices_outl (s : State) (x : Vector Voice 128) : (s.setVoices x).outl = s.outl := rfl
@[simp] theorem setVoices_outr (s : State) (x : Vector Voice 128) : (s.setVoices x).outr = s.outr := rfl
@[simp] theorem setVoices_stream (s : State) (x : Vector Voice 128) : (s.setVoices x).stream = s.stream := rfl

@[simp] theorem setOut_params (s : State) (l r : Memory) : (s.setOut l r).params = s.params := rfl
@[simp] theorem setOut_mode (s : State) (l r : Memory) : (s.setOut l r).mode = s.mode := rfl
@[simp] theorem setOut_fs (s : State) (l r : Memory) : (s.setOut l r).fs = s.fs := rfl
@[simp] theorem setOut_blen (s : State) (l r : Memory) : (s.setOut l r).blen = s.blen := rfl
@[simp] theorem setOut_cur (s : State) (l r : Memory) : (s.setOut l r).cur = s.cur := rfl
@[simp] theorem setOut_voices (s : State) (l r : Memory) : (s.setOut l r).voices = s.voices := rfl
@[simp] theorem setOut_al (s : State) (l r : Memory) : (s.setOut l r).al = s.al := rfl
@[simp] theorem setOut_ac (s : State) (l r : Memory) : (s.setOut l r).ac = s.ac := rfl
@[simp] theorem setOut_snap (s : State) (l r : Memory) : (s.setOut l r).snap = s.snap := rfl
@[simp] theorem setOut_ports (s : State) (l r : Memory) : (s.setOut l r).ports = s.ports := rfl
@[simp] theorem setOut_outl (s : State) (l r : Memory) : (s.setOut l r).outl = l := rfl
@[simp] theorem setOut_outr (s : State) (l r : Memory) : (s.setOut l r).outr = r := rfl
@[simp] theorem setOut_stream (s : State) (l r : Memory) : (s.setOut l r).stream = s.stream := rfl

@[simp] theorem setStream_params (s : State) (x : List HostAction) : (s.setStream x).params = s.params := rfl
@[simp] theorem setStream_mode (s : State) (x : List HostAction) : (s.setStream x).mode = s.mode := rfl
@[simp] theorem setStream_fs (s : State) (x : List HostAction) : (s.setStream x).fs = s.fs := rfl
@[simp] theorem setStream_blen (s : State) (x : List HostAction) : (s.setStream x).blen = s.blen := rfl
@[simp] theorem setStream_cur (s : State) (x : List HostAction) : (s.setStream x).cur = s.cur := rfl
@[simp] theorem setStream_voices (s : State) (x : List HostAction) : (s.setStream x).voices = s.voices := rfl
@[simp] theorem setStream_al (s : State) (x : List HostAction) : (s.setStream x).al = s.al := rfl
@[simp] theorem setStream_ac (s : State) (x : List HostAction) : (s.setStream x).ac = s.ac := rfl
@[simp] theorem setStream_snap (s : State) (x : List HostAction) : (s.setStream x).snap = s.snap := rfl
@[simp] theorem setStream_ports (s : State) (x : List HostAction) : (s.setStream x).ports = s.ports := rfl
@[simp] theorem setStream_outl (s : State) (x : List HostAction) : (s.setStream x).outl = s.outl := rfl
@[simp] theorem setStream_outr (s : State) (x : List HostAction) : (s.setStream x).outr = s.outr := rfl
@[simp] theorem setStream_stream (s : State) (x : List HostAction) : (s.setStream x).stream = x := rfl

@[simp] theorem setVoice_params (s : State) (i : Slot) (x : Voice) : (s.setVoice i x).params = s.params := rfl
@[simp] theorem setVoice_mode (s : State) (i : Slot) (x : Voice) : (s.setVoice i x).mode = s.mode := rfl
@[simp] theorem setVoice_fs (s : State) (i : Slot) (x : Voice) : (s.setVoice i x).fs = s.fs := rfl
@[simp] theorem setVoice_blen (s : State) (i : Slot) (x : Voice) : (s.setVoice i x).blen = s.blen := rfl
@[simp] theorem setVoice_cur (s : State) (i : Slot) (x : Voice) : (s.setVoice i x).cur = s.cur := rfl
@[simp] theorem setVoice_voices (s : State) (i : Slot) (x : Voice) : (s.setVoice i x).voices = s.voices.set i.toNat x i.isLt := rfl
@[simp] theorem setVoice_al (s : State) (i : Slot) (x : Voice) : (s.setVoice i x).al = s.al := rfl
@[simp] theorem setVoice_ac (s : State) (i : Slot) (x : Voice) : (s.setVoice i x).ac = s.ac := rfl
@[simp] theorem setVoice_snap (s : State) (i : Slot) (x : Voice) : (s.setVoice i x).snap = s.snap := rfl
@[simp] theorem setVoice_ports (s : State) (i : Slot) (x : Voice) : (s.setVoice i x).ports = s.ports := rfl
@[simp] theorem setVoice_outl (s : State) (i : Slot) (x : Voice) : (s.setVoice i x).outl = s.outl := rfl
@[simp] theorem setVoice_outr (s : State) (i : Slot) (x : Voice) : (s.setVoice i x).outr = s.outr := rfl
@[simp] theorem setVoice_stream (s : State) (i : Slot) (x : Voice) : (s.setVoice i x).stream = s.stream := rfl

@[simp] theorem setActive_params (s : State) (x : List Slot) : (s.setActive x).params = s.params := rfl
@[simp] theorem setActive_mode (s : State) (x : List Slot) : (s.setActive x).mode = s.mode := rfl
@[simp] theorem setActive_fs (s : State) (x : List Slot) : (s.setActive x).fs = s.fs := rfl
@[simp] theorem setActive_blen (s : State) (x : List Slot) : (s.setActive x).blen = s.blen := rfl
@[simp] theorem setActive_cur (s : State) (x : List Slot) : (s.setActive x).cur = s.cur := rfl
@[simp] theorem setActive_voices (s : State) (x : List Slot) : (s.setActive x).voices = s.voices := rfl
@[simp] theorem setActive_al (s : State) (x : List Slot) : (s.setActive x).al = overwriteEntries x s.al := rfl
@[simp] theorem setActive_ac (s : State) (x : List Slot) : (s.setActive x).ac = BitVec.ofNat 8 x.length := rfl
@[simp] theorem setActive_snap (s : State) (x : List Slot) : (s.setActive x).snap = s.snap := rfl
@[simp] theorem setActive_ports (s : State) (x : List Slot) : (s.setActive x).ports = s.ports := rfl
@[simp] theorem setActive_outl (s : State) (x : List Slot) : (s.setActive x).outl = s.outl := rfl
@[simp] theorem setActive_outr (s : State) (x : List Slot) : (s.setActive x).outr = s.outr := rfl
@[simp] theorem setActive_stream (s : State) (x : List Slot) : (s.setActive x).stream = s.stream := rfl

@[simp] theorem writeOut_params (s : State) (k : Nat) (l r : Amp) : (s.writeOut k l r).params = s.params := rfl
@[simp] theorem writeOut_mode (s : State) (k : Nat) (l r : Amp) : (s.writeOut k l r).mode = s.mode := rfl
@[simp] theorem writeOut_fs (s : State) (k : Nat) (l r : Amp) : (s.writeOut k l r).fs = s.fs := rfl
@[simp] theorem writeOut_blen (s : State) (k : Nat) (l r : Amp) : (s.writeOut k l r).blen = s.blen := rfl
@[simp] theorem writeOut_cur (s : State) (k : Nat) (l r : Amp) : (s.writeOut k l r).cur = s.cur := rfl
@[simp] theorem writeOut_voices (s : State) (k : Nat) (l r : Amp) : (s.writeOut k l r).voices = s.voices := rfl
@[simp] theorem writeOut_al (s : State) (k : Nat) (l r : Amp) : (s.writeOut k l r).al = s.al := rfl
@[simp] theorem writeOut_ac (s : State) (k : Nat) (l r : Amp) : (s.writeOut k l r).ac = s.ac := rfl
@[simp] theorem writeOut_snap (s : State) (k : Nat) (l r : Amp) : (s.writeOut k l r).snap = s.snap := rfl
@[simp] theorem writeOut_ports (s : State) (k : Nat) (l r : Amp) : (s.writeOut k l r).ports = s.ports := rfl
@[simp] theorem writeOut_outl (s : State) (k : Nat) (l r : Amp) : (s.writeOut k l r).outl = s.outl.write k l := rfl
@[simp] theorem writeOut_outr (s : State) (k : Nat) (l r : Amp) : (s.writeOut k l r).outr = s.outr.write k r := rfl
@[simp] theorem writeOut_stream (s : State) (k : Nat) (l r : Amp) : (s.writeOut k l r).stream = s.stream := rfl

@[simp] theorem setMode_voice (s : State) (x : Mode) (n : Slot) : (s.setMode x).voice n = s.voice n := rfl
@[simp] theorem setFs_voice (s : State) (x : Counter) (n : Slot) : (s.setFs x).voice n = s.voice n := rfl
@[simp] theorem setBlen_voice (s : State) (x : Counter) (n : Slot) : (s.setBlen x).voice n = s.voice n := rfl
@[simp] theorem setCur_voice (s : State) (x : Counter) (n : Slot) : (s.setCur x).voice n = s.voice n := rfl
@[simp] theorem setAc_voice (s : State) (x : BitVec 8) (n : Slot) : (s.setAc x).voice n = s.voice n := rfl
@[simp] theorem setSnap_voice (s : State) (x : Snapshot) (n : Slot) : (s.setSnap x).voice n = s.voice n := rfl
@[simp] theorem setPorts_voice (s : State) (x : Ports) (n : Slot) : (s.setPorts x).voice n = s.voice n := rfl
@[simp] theorem setOut_voice (s : State) (l r : Memory) (n : Slot) : (s.setOut l r).voice n = s.voice n := rfl
@[simp] theorem setStream_voice (s : State) (x : List HostAction) (n : Slot) : (s.setStream x).voice n = s.voice n := rfl
@[simp] theorem setActive_voice (s : State) (x : List Slot) (n : Slot) : (s.setActive x).voice n = s.voice n := rfl
@[simp] theorem writeOut_voice (s : State) (k : Nat) (l r : Amp) (n : Slot) : (s.writeOut k l r).voice n = s.voice n := rfl

@[simp] theorem setMode_activeList (s : State) (x : Mode) : (s.setMode x).activeList = s.activeList := rfl
@[simp] theorem setFs_activeList (s : State) (x : Counter) : (s.setFs x).activeList = s.activeList := rfl
@[simp] theorem setBlen_activeList (s : State) (x : Counter) : (s.setBlen x).activeList = s.activeList := rfl
@[simp] theorem setCur_activeList (s : State) (x : Counter) : (s.setCur x).activeList = s.activeList := rfl
@[simp] theorem setSnap_activeList (s : State) (x : Snapshot) : (s.setSnap x).activeList = s.activeList := rfl
@[simp] theorem setPorts_activeList (s : State) (x : Ports) : (s.setPorts x).activeList = s.activeList := rfl
@[simp] theorem setVoices_activeList (s : State) (x : Vector Voice 128) : (s.setVoices x).activeList = s.activeList := rfl
@[simp] theorem setOut_activeList (s : State) (l r : Memory) : (s.setOut l r).activeList = s.activeList := rfl
@[simp] theorem setStream_activeList (s : State) (x : List HostAction) : (s.setStream x).activeList = s.activeList := rfl
@[simp] theorem setVoice_activeList (s : State) (i : Slot) (x : Voice) : (s.setVoice i x).activeList = s.activeList := rfl
@[simp] theorem writeOut_activeList (s : State) (k : Nat) (l r : Amp) : (s.writeOut k l r).activeList = s.activeList := rfl

/-- Reading a voice back after writing one. -/
theorem setVoice_voice (s : State) (i k : Slot) (v : Voice) :
    (s.setVoice i v).voice k = if i = k then v else s.voice k := by
  simp only [State.voice, setVoice_voices, Vector.getElem_set, BitVec.toNat_inj]

@[simp] theorem setVoice_voice_self (s : State) (i : Slot) (v : Voice) :
    (s.setVoice i v).voice i = v := by simp [setVoice_voice]

theorem setVoice_voice_ne (s : State) {i k : Slot} (v : Voice) (h : i ≠ k) :
    (s.setVoice i v).voice k = s.voice k := by simp [setVoice_voice, h]

/-- Reading `AL` after `overwriteEntries`. -/
theorem overwriteEntries_toList (xs : List Slot) (al : Vector Slot 128) (h : xs.length ≤ 128) :
    (overwriteEntries xs al).toList.take xs.length = xs := by
  apply List.ext_getElem
  · simp [h]
  · intro k h1 h2
    rw [List.getElem_take, Vector.getElem_toList]
    unfold overwriteEntries
    rw [Vector.getElem_ofFn]
    simp [h2]

/-- The active list after `setActive`: the list given, where it fits the 128 entries. -/
theorem setActive_activeList (s : State) (xs : List Slot) (h : xs.length ≤ 128) :
    (s.setActive xs).activeList = xs := by
  have hn : (BitVec.ofNat 8 xs.length).toNat = xs.length := by
    rw [BitVec.toNat_ofNat]; omega
  rw [State.activeList, setActive_ac, setActive_al, hn, overwriteEntries_toList _ _ h]

@[simp] theorem activeList_length (s : State) : s.activeList.length = min s.ac.toNat 128 := by
  simp [State.activeList]

/-- `freeAllVoices` clears every velocity and nothing else. -/
@[simp] theorem freeAllVoices_voice (s : State) (i : Slot) :
    (freeAllVoices s).voice i = { s.voice i with velocity := 0 } := by
  simp [freeAllVoices, State.voice]

end Sys2Proof.Machine
end

