-- ==== Sys2Proof/Laws/Render.lean ====
section
/-! SUPPORT. What the render loop does, said once: its frame, the tick each voice gets, the active
list it leaves, the sums it forms (43_block_renderer.md R194 to R197). -/

namespace Sys2Proof.Machine

/-- The parts of the state that rendering never writes. -/
structure SameOutside (s t : State) : Prop where
  params : t.params = s.params
  mode : t.mode = s.mode
  fs : t.fs = s.fs
  blen : t.blen = s.blen
  snap : t.snap = s.snap
  ports : t.ports = s.ports
  stream : t.stream = s.stream

theorem SameOutside.refl (s : State) : SameOutside s s := ⟨rfl, rfl, rfl, rfl, rfl, rfl, rfl⟩

theorem SameOutside.trans {s t u : State} (a : SameOutside s t) (b : SameOutside t u) :
    SameOutside s u :=
  ⟨b.params.trans a.params, b.mode.trans a.mode, b.fs.trans a.fs, b.blen.trans a.blen,
    b.snap.trans a.snap, b.ports.trans a.ports, b.stream.trans a.stream⟩

@[simp] theorem retire_voice (j : Nat) (s : State) (i : Slot) : (retire j s).voice i = s.voice i :=
  rfl

theorem retire_same (j : Nat) (s : State) : SameOutside s (retire j s) :=
  ⟨rfl, rfl, rfl, rfl, rfl, rfl, rfl⟩

/-- RETIRE(j) removes position `j` and keeps the other entries in order, R172. -/
theorem retire_activeList (j : Nat) (s : State) :
    (retire j s).activeList = s.activeList.eraseIdx j := by
  refine setActive_activeList _ _ ?_
  have := activeList_length s
  have := List.length_eraseIdx_le (l := s.activeList) (i := j)
  omega

/-- One iteration of the pass, as one equation. -/
theorem mixVoices_cons (i : Slot) (rest : List Slot) (j : Nat) (accL accR : Amp) (s : State) :
    mixVoices (i :: rest) j accL accR s =
      (let t := voiceTick s.params.num s.snap (s.voice i)
       let l := s.params.num.ampAdd accL t.1.1
       let r := s.params.num.ampAdd accR t.1.2
       if t.2.isFree then mixVoices rest j l r (retire j (s.setVoice i t.2))
       else mixVoices rest (j + 1) l r (s.setVoice i t.2)) := rfl

/-- A pass writes voices, `AL` and `AC` only. -/
theorem mixVoices_same (rest : List Slot) (j : Nat) (accL accR : Amp) (s : State) :
    SameOutside s (mixVoices rest j accL accR s).2 ∧
      (mixVoices rest j accL accR s).2.cur = s.cur ∧
      (mixVoices rest j accL accR s).2.outl = s.outl ∧
      (mixVoices rest j accL accR s).2.outr = s.outr := by
  induction rest generalizing j accL accR s with
  | nil => exact ⟨SameOutside.refl s, rfl, rfl, rfl⟩
  | cons i rest ih =>
    rw [mixVoices_cons]
    dsimp only
    split
    · obtain ⟨a, b, c, d⟩ := ih j (s.params.num.ampAdd accL (voiceTick s.params.num s.snap (s.voice i)).1.1)
        (s.params.num.ampAdd accR (voiceTick s.params.num s.snap (s.voice i)).1.2)
        (retire j (s.setVoice i (voiceTick s.params.num s.snap (s.voice i)).2))
      exact ⟨⟨a.params, a.mode, a.fs, a.blen, a.snap, a.ports, a.stream⟩, b, c, d⟩
    · obtain ⟨a, b, c, d⟩ := ih (j + 1) (s.params.num.ampAdd accL (voiceTick s.params.num s.snap (s.voice i)).1.1)
        (s.params.num.ampAdd accR (voiceTick s.params.num s.snap (s.voice i)).1.2)
        (s.setVoice i (voiceTick s.params.num s.snap (s.voice i)).2)
      exact ⟨⟨a.params, a.mode, a.fs, a.blen, a.snap, a.ports, a.stream⟩, b, c, d⟩

/-- A pass ticks each voice of a list without repeats exactly once and no other voice. -/
theorem mixVoices_voice (rest : List Slot) (hr : rest.Nodup) (j : Nat) (accL accR : Amp) (s : State)
    (k : Slot) :
    (mixVoices rest j accL accR s).2.voice k =
      if k ∈ rest then (voiceTick s.params.num s.snap (s.voice k)).2 else s.voice k := by
  induction rest generalizing j accL accR s with
  | nil => simp [mixVoices]
  | cons i rest ih =>
    obtain ⟨hi, hr⟩ := List.nodup_cons.mp hr
    have key : ∀ (j : Nat) (l r : Amp) (u : State), u.params = s.params → u.snap = s.snap →
        (∀ n, u.voice n = (s.setVoice i (voiceTick s.params.num s.snap (s.voice i)).2).voice n) →
        (mixVoices rest j l r u).2.voice k =
          if k ∈ i :: rest then (voiceTick s.params.num s.snap (s.voice k)).2 else s.voice k := by
      intro j l r u hp hs hv
      rw [ih hr, hp, hs, hv]
      by_cases hk : k = i
      · subst hk
        simp [hi]
      · rw [setVoice_voice_ne _ _ (Ne.symm hk)]
        simp [hk]
    rw [mixVoices_cons]
    dsimp only
    split
    · exact key _ _ _ _ rfl rfl fun n => rfl
    · exact key _ _ _ _ rfl rfl fun n => rfl

/-- A pass over `AL[j..]` keeps the entries before `j`, and of the rest those whose voice its tick
did not free, in order. -/
theorem mixVoices_activeList (rest : List Slot) (hr : rest.Nodup) (kept : List Slot) (accL accR : Amp)
    (s : State) (hs : s.activeList = kept ++ rest) :
    (mixVoices rest kept.length accL accR s).2.activeList =
      kept ++ rest.filter fun i => !(voiceTick s.params.num s.snap (s.voice i)).2.isFree := by
  induction rest generalizing kept accL accR s with
  | nil => simpa [mixVoices] using hs
  | cons i rest ih =>
    obtain ⟨hi, hr⟩ := List.nodup_cons.mp hr
    have other : ∀ k ∈ rest, (s.setVoice i (voiceTick s.params.num s.snap (s.voice i)).2).voice k =
        s.voice k := fun k hk => setVoice_voice_ne _ _ fun e => hi (e ▸ hk)
    have hf : (rest.filter fun k => !(voiceTick s.params.num s.snap
          ((s.setVoice i (voiceTick s.params.num s.snap (s.voice i)).2).voice k)).2.isFree) =
        rest.filter fun k => !(voiceTick s.params.num s.snap (s.voice k)).2.isFree :=
      List.filter_congr fun k hk => by rw [other k hk]
    rw [mixVoices_cons]
    dsimp only
    split
    · rename_i hfree
      have := ih hr kept (s.params.num.ampAdd accL (voiceTick s.params.num s.snap (s.voice i)).1.1)
        (s.params.num.ampAdd accR (voiceTick s.params.num s.snap (s.voice i)).1.2)
        (retire kept.length (s.setVoice i (voiceTick s.params.num s.snap (s.voice i)).2))
        (by
          rw [retire_activeList, setVoice_activeList, hs, List.eraseIdx_append_of_length_le (Nat.le_refl _)]
          simp)
      rw [this, List.filter_cons, hfree]
      simp only [Bool.not_true, Bool.false_eq_true, if_false]
      exact congrArg (kept ++ ·) hf
    · rename_i hfree
      have := ih hr (kept ++ [i])
        (s.params.num.ampAdd accL (voiceTick s.params.num s.snap (s.voice i)).1.1)
        (s.params.num.ampAdd accR (voiceTick s.params.num s.snap (s.voice i)).1.2)
        (s.setVoice i (voiceTick s.params.num s.snap (s.voice i)).2)
        (by rw [setVoice_activeList, hs]; simp)
      rw [List.length_append] at this
      rw [show kept.length + 1 = kept.length + [i].length from rfl, this, List.filter_cons]
      simp only [Bool.not_eq_true] at hfree
      rw [hfree]
      simp only [Bool.not_false, if_true, List.append_assoc, List.singleton_append]
      exact congrArg (kept ++ i :: ·) hf

/-- The accumulators of a pass: list order, from the values given (R196). -/
theorem mixVoices_sums (rest : List Slot) (hr : rest.Nodup) (j : Nat) (accL accR : Amp) (s : State) :
    (mixVoices rest j accL accR s).1 =
      (rest.foldl (fun a i => s.params.num.ampAdd a (voiceTick s.params.num s.snap (s.voice i)).1.1) accL,
       rest.foldl (fun a i => s.params.num.ampAdd a (voiceTick s.params.num s.snap (s.voice i)).1.2) accR) := by
  induction rest generalizing j accL accR s with
  | nil => rfl
  | cons i rest ih =>
    obtain ⟨hi, hr⟩ := List.nodup_cons.mp hr
    have key : ∀ (j : Nat) (l r : Amp) (u : State), u.params = s.params → u.snap = s.snap →
        (∀ n, u.voice n = (s.setVoice i (voiceTick s.params.num s.snap (s.voice i)).2).voice n) →
        (mixVoices rest j l r u).1 =
          (rest.foldl (fun a i => s.params.num.ampAdd a (voiceTick s.params.num s.snap (s.voice i)).1.1) l,
           rest.foldl (fun a i => s.params.num.ampAdd a (voiceTick s.params.num s.snap (s.voice i)).1.2) r) := by
      intro j l r u hp hs hv
      have other : ∀ k ∈ rest, u.voice k = s.voice k := fun k hk => by
        have hne : i ≠ k := fun e => hi (e ▸ hk)
        rw [hv, setVoice_voice_ne _ _ hne]
      rw [ih hr, hp, hs]
      refine Prod.ext ?_ ?_
      · exact List.foldl_ext _ _ _ fun a k hk => by rw [other k hk]
      · exact List.foldl_ext _ _ _ fun a k hk => by rw [other k hk]
    rw [mixVoices_cons]
    dsimp only
    split
    · exact key _ _ _ _ rfl rfl fun n => rfl
    · exact key _ _ _ _ rfl rfl fun n => rfl

/-- One sample writes voices, `AL`, `AC`, and element `k` of the two buffers. -/
theorem renderSample_same (k : Nat) (s : State) :
    SameOutside s (renderSample k s) ∧ (renderSample k s).cur = s.cur ∧
      (∀ n, n ≠ k → (renderSample k s).outl.read n = s.outl.read n) ∧
      (∀ n, n ≠ k → (renderSample k s).outr.read n = s.outr.read n) := by
  obtain ⟨a, b, c, d⟩ := mixVoices_same s.activeList 0 (s.params.num.ampLit 0) (s.params.num.ampLit 0) s
  refine ⟨⟨a.params, a.mode, a.fs, a.blen, a.snap, a.ports, a.stream⟩, b, fun n hn => ?_, fun n hn => ?_⟩
  · simp only [renderSample, writeOut_outl, c]
    exact Memory.read_write_ne _ _ hn
  · simp only [renderSample, writeOut_outr, d]
    exact Memory.read_write_ne _ _ hn

@[simp] theorem renderSample_activeList' (k : Nat) (s : State) :
    (renderSample k s).activeList =
      (mixVoices s.activeList 0 (s.params.num.ampLit 0) (s.params.num.ampLit 0) s).2.activeList := rfl

@[simp] theorem renderSample_voice' (k : Nat) (s : State) (i : Slot) :
    (renderSample k s).voice i =
      (mixVoices s.activeList 0 (s.params.num.ampLit 0) (s.params.num.ampLit 0) s).2.voice i := rfl

theorem renderSample_wf (k : Nat) (s : State) (hl : s.outl.wf = true) (hr : s.outr.wf = true) :
    (renderSample k s).outl.wf = true ∧ (renderSample k s).outr.wf = true := by
  obtain ⟨_, _, c, d⟩ := mixVoices_same s.activeList 0 (s.params.num.ampLit 0) (s.params.num.ampLit 0) s
  simp only [renderSample, writeOut_outl, writeOut_outr, c, d]
  exact ⟨Memory.write_wf _ _ _ hl, Memory.write_wf _ _ _ hr⟩

/-- A property that every sample keeps is kept by a span. -/
theorem render_keeps {P : State → Prop} (h : ∀ k s, P s → P (renderSample k s)) :
    ∀ (count start : Nat) (s : State), P s → P (render count start s)
  | 0, _, _, hs => hs
  | count + 1, start, s, hs => render_keeps h count (start + 1) _ (h start s hs)

theorem render_same (count start : Nat) (s : State) :
    SameOutside s (render count start s) ∧ (render count start s).cur = s.cur := by
  refine render_keeps (P := fun t => SameOutside s t ∧ t.cur = s.cur) (fun k t ht => ?_) count start s
    ⟨SameOutside.refl s, rfl⟩
  obtain ⟨a, b, _⟩ := renderSample_same k t
  exact ⟨ht.1.trans a, b.trans ht.2⟩

theorem render_wf (count start : Nat) (s : State) (hl : s.outl.wf = true) (hr : s.outr.wf = true) :
    (render count start s).outl.wf = true ∧ (render count start s).outr.wf = true :=
  render_keeps (P := fun t => t.outl.wf = true ∧ t.outr.wf = true)
    (fun k t ht => renderSample_wf k t ht.1 ht.2) count start s ⟨hl, hr⟩

/-- Elements outside the span read as before. -/
theorem render_outside (count start : Nat) (s : State) (n : Nat)
    (hn : n < start ∨ start + count ≤ n) :
    (render count start s).outl.read n = s.outl.read n ∧
      (render count start s).outr.read n = s.outr.read n := by
  induction count generalizing start s with
  | zero => exact ⟨rfl, rfl⟩
  | succ count ih =>
    obtain ⟨_, _, c, d⟩ := renderSample_same start s
    obtain ⟨e, f⟩ := ih (start + 1) (renderSample start s) (by omega)
    exact ⟨e.trans (c n (by omega)), f.trans (d n (by omega))⟩

/-- `advanceTo` is a span and the new `CUR`. -/
theorem advanceTo_same (offset : Counter) (s : State) :
    SameOutside s (advanceTo offset s) ∧ (advanceTo offset s).cur = offset := by
  obtain ⟨a, _⟩ := render_same (offset.toNat - s.cur.toNat) s.cur.toNat s
  exact ⟨⟨a.params, a.mode, a.fs, a.blen, a.snap, a.ports, a.stream⟩, rfl⟩

end Sys2Proof.Machine
end

