-- ==== Sys2Proof/Laws/Commands.lean ====
section
/-! SUPPORT. What each shared operation of a command can do, said once: if it answers, then one of
these cases. -/

namespace Sys2Proof.Machine

/-- CHECK_EVENT passes exactly in INBLOCK with `CUR <= offset < BLEN` (43_block_renderer.md R193). -/
theorem checkEvent_none (offset : Counter) (s : State) :
    checkEvent offset s = none ↔ s.mode = .inBlock ∧ s.cur ≤ offset ∧ offset < s.blen := by
  unfold checkEvent
  by_cases hm : s.mode = .inBlock
  · by_cases ho : offset < s.cur ∨ s.blen ≤ offset
    · simp only [hm, ne_eq, not_true, if_false, ho, if_true, reduceCtorEq, true_and, false_iff]
      simp only [BitVec.lt_def, BitVec.le_def] at ho ⊢
      omega
    · simp only [hm, ne_eq, not_true, if_false, ho, true_and, true_iff]
      simp only [BitVec.lt_def, BitVec.le_def] at ho ⊢
      omega
  · simp [hm]

theorem checkEvent_wrongMode (offset : Counter) {s : State} (h : s.mode ≠ .inBlock) :
    checkEvent offset s = some .wrongMode := by
  simp [checkEvent, h]

/-- An event after EVENT_ADVANCE: the checks, the range of `AC`, then the event (R193). -/
theorem afterAdvance_next {offset : Counter} {event : State → Host.Outcome State Fault Refusal}
    {s t : State} (h : afterAdvance offset event s = .next t) :
    checkEvent offset s = none ∧ s.activeInRange = true ∧ event (advanceTo offset s) = .next t := by
  unfold afterAdvance at h
  split at h
  · cases h
  · rename_i hc
    split at h
    · rename_i ha
      exact ⟨hc, ha, h⟩
    · cases h

theorem afterAdvance_ready {offset : Counter} (event : State → Host.Outcome State Fault Refusal)
    {s : State} (hc : checkEvent offset s = none) (ha : s.activeInRange = true) :
    afterAdvance offset event s = event (advanceTo offset s) := by
  simp [afterAdvance, hc, ha]

/-- FIND_ACTIVE finds an entry of the active list that holds the note (42_voice_allocator.md
R170). -/
theorem findActive_some {note : Note} {s : State} {i : Slot} {j : Nat}
    (h : findActive note s = some (i, j)) :
    s.activeList[j]? = some i ∧ (s.voice i).note = note := by
  unfold findActive at h
  have h1 := List.find?_some h
  have h2 := List.mem_of_find?_eq_some h
  rw [List.mem_zipIdx_iff_getElem?] at h2
  exact ⟨by simpa using h2, by simpa using h1⟩

theorem findActive_none {note : Note} {s : State} :
    findActive note s = none ↔ ∀ i ∈ s.activeList, (s.voice i).note ≠ note := by
  unfold findActive
  rw [List.find?_eq_none]
  constructor
  · intro h i hi
    obtain ⟨j, hj⟩ := List.getElem?_of_mem hi
    have := h (i, j) (by rw [List.mem_zipIdx_iff_getElem?]; simpa using hj)
    simpa using this
  · intro h e he
    rw [List.mem_zipIdx_iff_getElem?] at he
    have := h e.1 (List.mem_of_getElem? he)
    simpa using this

theorem mem_allSlots (i : Slot) : i ∈ allSlots := by
  simp only [allSlots, List.mem_map, List.mem_range]
  exact ⟨i.toNat, i.isLt, by simp⟩

/-- The scan of ALLOCATE finds a free slot, if there is one (R171). -/
theorem firstFree_some {s : State} {i : Slot} (h : firstFree s = some i) :
    (s.voice i).velocity = 0 := by
  simpa [Voice.isFree] using List.find?_some h

theorem firstFree_none {s : State} :
    firstFree s = none ↔ ∀ i, (s.voice i).velocity ≠ 0 := by
  unfold firstFree
  rw [List.find?_eq_none]
  exact ⟨fun h i => by simpa [Voice.isFree] using h i (mem_allSlots i),
    fun h i _ => by simpa [Voice.isFree] using h i⟩

/-- ALLOCATE's append (R171), where the list has room. -/
theorem appendActive_activeList {s : State} (i : Slot) (h : s.ac.toNat < 128) :
    (appendActive i s).activeList = s.activeList ++ [i] := by
  refine setActive_activeList _ _ ?_
  have := activeList_length s
  simp only [List.length_append, List.length_singleton]
  omega

/-- NOTE_ON of a velocity that is not 0, after EVENT_ADVANCE: re-attack, drop, or a fresh voice
(R173). -/
theorem noteOnApply_next {note : Note} {vel : Velocity} {s t : State}
    (h : noteOnApply note vel s = .next t) :
    (∃ i j, findActive note s = some (i, j) ∧
      t = s.setVoice i (envReattack s.params.num (s.voice i))) ∨
    (findActive note s = none ∧ firstFree s = none ∧ t = s) ∨
    (∃ i, findActive note s = none ∧ firstFree s = some i ∧ s.ac.toNat < 128 ∧
      t = noteOnFresh i note vel (appendActive i s)) := by
  unfold noteOnApply at h
  split at h
  · rename_i i j hf
    exact .inl ⟨i, j, hf, by cases h; rfl⟩
  · rename_i hf
    split at h
    · rename_i hn
      exact .inr (.inl ⟨hf, hn, by cases h; rfl⟩)
    · rename_i i hn
      split at h
      · rename_i ha
        exact .inr (.inr ⟨i, hf, hn, ha, by cases h; rfl⟩)
      · cases h

/-- NOTE_OFF after EVENT_ADVANCE: release the voice that holds the note, or nothing (R177). -/
theorem noteOffApply_cases (note : Note) (s : State) :
    (∃ i j, findActive note s = some (i, j) ∧
      noteOffApply note s = s.setVoice i (envReleaseEnter (s.voice i))) ∨
    (findActive note s = none ∧ noteOffApply note s = s) := by
  unfold noteOffApply
  split
  · rename_i i j hf
    exact .inl ⟨i, j, hf, rfl⟩
  · rename_i hf
    exact .inr ⟨hf, rfl⟩

theorem PortValue.number?_some {v : PortValue} {x : Datum} : v.number? = some x ↔ v = .finite x := by
  cases v <;> simp [PortValue.number?]

/-- A sample exists exactly when all seven ports are finite, 44_parameter_snapshot.md R226 (a). -/
theorem Ports.sample_some {p : Ports} {x : PortSample} :
    p.sample = some x ↔
      p = ⟨.finite x.volumeDb, .finite x.panning, .finite x.attackMs, .finite x.holdMs,
        .finite x.decayMs, .finite x.releaseMs, .finite x.sustainLevel⟩ := by
  obtain ⟨a, b, c, d, e, f, g⟩ := p
  simp only [Ports.sample, Option.bind_eq_bind, Option.bind_eq_some_iff, PortValue.number?_some,
    Option.pure_def, Option.some.injEq, Ports.mk.injEq]
  constructor
  · rintro ⟨v1, rfl, v2, rfl, v3, rfl, v4, rfl, v5, rfl, v6, rfl, v7, rfl, rfl⟩
    exact ⟨rfl, rfl, rfl, rfl, rfl, rfl, rfl⟩
  · rintro ⟨rfl, rfl, rfl, rfl, rfl, rfl, rfl⟩
    exact ⟨_, rfl, _, rfl, _, rfl, _, rfl, _, rfl, _, rfl, _, rfl, rfl⟩

/-- SNAPSHOT succeeds exactly on a finite legal sample whose stages fit
(44_parameter_snapshot.md R220, R226). -/
theorem takeSnapshot_ok {s : State} {x : Snapshot} :
    takeSnapshot s = .ok x ↔
      ∃ p, s.ports.sample = some p ∧ p.legal s.params.num = true ∧ p.durationsFit s.params.num s.fs = true ∧
        x = snapshotOf s.params s.fs p := by
  unfold takeSnapshot
  cases s.ports.sample with
  | none => exact ⟨fun h => (by cases h), fun ⟨p, h, _⟩ => (by cases h)⟩
  | some p =>
    dsimp only
    constructor
    · intro h
      split at h
      · cases h
      · split at h
        · cases h
        · rename_i hl hd
          exact ⟨p, rfl, by simpa using hl, by simpa using hd, by cases h; rfl⟩
    · rintro ⟨q, hq, hl, hd, rfl⟩
      cases hq
      rw [if_neg (by rw [hl]; decide), if_neg (by rw [hd]; decide)]

/-- INIT that is not refused, 43_block_renderer.md R190. -/
theorem execInit_next {fs : Counter} {s t : State} (h : execInit fs s = .next t) :
    fs ≠ 0 ∧ s.mode = .uninit ∧ t = ((freeAllVoices (s.setFs fs)).setAc 0).setMode .idle := by
  unfold execInit at h
  split at h
  · cases h
  · split at h
    · cases h
    · rename_i hf hm
      exact ⟨hf, not_not.mp hm, by cases h; rfl⟩

/-- BLOCK that is not refused, R191. -/
theorem execBlock_next {n : Counter} {s t : State} (h : execBlock n s = .next t) :
    s.mode = .idle ∧ ∃ x, takeSnapshot s = .ok x ∧
      t = (((s.setSnap x).setBlen n).setCur 0).setMode .inBlock := by
  unfold execBlock at h
  split at h
  · cases h
  · rename_i hm
    split at h
    · cases h
    · rename_i x hx
      exact ⟨not_not.mp hm, x, hx, by cases h; rfl⟩

/-- END that is not refused, R192. -/
theorem execEnd_next {s t : State} (h : execEnd s = .next t) :
    s.mode = .inBlock ∧ s.activeInRange = true ∧ t = (advanceTo s.blen s).setMode .idle := by
  unfold execEnd at h
  split at h
  · cases h
  · rename_i hm
    split at h
    · rename_i ha
      exact ⟨not_not.mp hm, ha, by cases h; rfl⟩
    · cases h

/-- NOTE_OFF that is not refused, 42_voice_allocator.md R177. -/
theorem execNoteOff_next {offset : Counter} {note : Note} {vel : Velocity} {s t : State}
    (h : execNoteOff offset note vel s = .next t) :
    checkEvent offset s = none ∧ s.activeInRange = true ∧
      t = noteOffApply note (advanceTo offset s) := by
  obtain ⟨hc, ha, ht⟩ := afterAdvance_next h
  exact ⟨hc, ha, by cases ht; rfl⟩

/-- NOTE_ON that is not refused, R173 and R176. -/
theorem execNoteOn_next {offset : Counter} {note : Note} {vel : Velocity} {s t : State}
    (h : execNoteOn offset note vel s = .next t) :
    checkEvent offset s = none ∧ s.activeInRange = true ∧
      ((vel = 0 ∧ t = noteOffApply note (advanceTo offset s)) ∨
        (vel ≠ 0 ∧ noteOnApply note vel (advanceTo offset s) = .next t)) := by
  unfold execNoteOn at h
  split at h
  · rename_i hv
    split at h
    · cases h
    · obtain ⟨hc, ha, ht⟩ := afterAdvance_next h
      exact ⟨hc, ha, .inl ⟨hv, by cases ht; rfl⟩⟩
  · rename_i hv
    obtain ⟨hc, ha, ht⟩ := afterAdvance_next h
    exact ⟨hc, ha, .inr ⟨hv, ht⟩⟩

/-- An unrecognised event that is not refused, R178. -/
theorem ignoreEvent_next {s t : State} (h : ignoreEvent s = .next t) : s.mode = .inBlock ∧ t = s := by
  unfold ignoreEvent at h
  split at h
  · cases h
  · rename_i hm
    exact ⟨not_not.mp hm, by cases h; rfl⟩

/-- A pushed word that is not refused runs the command it decodes to. -/
theorem command_next {w : CommandWord} {s t : State} (h : command w s = .next t) :
    ∃ i, decode w = .ok i ∧ exec i s = .next t := by
  unfold command at h
  split at h
  · rename_i i hi
    exact ⟨i, hi, h⟩
  · cases h

/-- Everything one step can do: wait, run a command, or take a host action. -/
theorem step_next {s t : State} (h : step s = .next t) :
    (s.stream = [] ∧ t = s) ∨
    (∃ w rest i, s.stream = .command w :: rest ∧ decode w = .ok i ∧
      exec i (s.setStream rest) = .next t) ∨
    (∃ port value rest, s.stream = .portWrite port value :: rest ∧
      t = (s.setStream rest).setPorts (s.ports.set port value)) ∨
    (∃ c k v rest, s.stream = .outWrite c k v :: rest ∧ t = (s.setStream rest).hostOutWrite c k v) ∨
    (∃ rest, s.stream = .reset :: rest ∧ t = (s.setStream rest).assertReset) := by
  unfold step at h
  split at h
  · rename_i hs
    exact .inl ⟨hs, by cases h; rfl⟩
  · rename_i a rest hs
    unfold hostAction at h
    split at h
    · obtain ⟨i, hi, ht⟩ := command_next h
      exact .inr (.inl ⟨_, rest, i, hs, hi, ht⟩)
    · exact .inr (.inr (.inl ⟨_, _, rest, hs, by cases h; rfl⟩))
    · exact .inr (.inr (.inr (.inl ⟨_, _, _, rest, hs, by cases h; rfl⟩)))
    · exact .inr (.inr (.inr (.inr ⟨rest, hs, by cases h; rfl⟩)))

/-- A 32-bit counter holds an integer of its range as it is. -/
theorem toCounter_toNat {z : Int} (h0 : 0 ≤ z) (h1 : z < 2 ^ 32) : ((toCounter z).toNat : Int) = z := by
  unfold toCounter
  rw [if_pos ⟨h0, h1⟩, BitVec.toNat_ofInt]
  norm_num at h1 ⊢
  omega

theorem toCounter_natCast {n : Nat} (h : n < 2 ^ 32) : toCounter (n : Int) = BitVec.ofNat 32 n := by
  unfold toCounter
  rw [if_pos ⟨by omega, by exact_mod_cast h⟩]
  apply BitVec.eq_of_toNat_eq
  rw [BitVec.toNat_ofInt, BitVec.toNat_ofNat]
  omega

end Sys2Proof.Machine
end

