-- ==== Sys2Proof/Laws/Envelope.lean ====
section
/-! SUPPORT. What a tick leaves unchanged in its voice, said once (41_envelope.md R140 to R145). -/

namespace Sys2Proof.Machine

/-- The fields that no tick of the envelope writes. -/
structure SameShape (v w : Voice) : Prop where
  note : w.note = v.note
  phaseIncrement : w.phaseIncrement = v.phaseIncrement
  releasedEnvelopeLevel : w.releasedEnvelopeLevel = v.releasedEnvelopeLevel
  attackLevel : w.attackLevel = v.attackLevel
  sustainLevel : w.sustainLevel = v.sustainLevel
  attackDuration : w.attackDuration = v.attackDuration
  holdDuration : w.holdDuration = v.holdDuration
  decayDuration : w.decayDuration = v.decayDuration
  releaseDuration : w.releaseDuration = v.releaseDuration

theorem SameShape.refl (v : Voice) : SameShape v v := ⟨rfl, rfl, rfl, rfl, rfl, rfl, rfl, rfl, rfl⟩

theorem SameShape.trans {u v w : Voice} (a : SameShape u v) (b : SameShape v w) : SameShape u w :=
  ⟨b.note.trans a.note, b.phaseIncrement.trans a.phaseIncrement,
    b.releasedEnvelopeLevel.trans a.releasedEnvelopeLevel, b.attackLevel.trans a.attackLevel,
    b.sustainLevel.trans a.sustainLevel, b.attackDuration.trans a.attackDuration,
    b.holdDuration.trans a.holdDuration, b.decayDuration.trans a.decayDuration,
    b.releaseDuration.trans a.releaseDuration⟩

/-- ENV_TICK writes the index, the level, the status, and the velocity, which it can only clear. -/
theorem envTick_frame (m : NumMode) (v : Voice) :
    SameShape v (envTick m v) ∧ (envTick m v).phase = v.phase ∧
      ((envTick m v).velocity = v.velocity ∨ (envTick m v).velocity = 0) := by
  unfold envTick tickAttack tickHold tickDecay tickSustain tickRelease
  repeat' first
    | split
    | exact ⟨⟨rfl, rfl, rfl, rfl, rfl, rfl, rfl, rfl, rfl⟩, rfl, .inl rfl⟩
    | exact ⟨⟨rfl, rfl, rfl, rfl, rfl, rfl, rfl, rfl, rfl⟩, rfl, .inr rfl⟩

/-- VOICE_STEP of 43_block_renderer.md R195: the oscillator advances the phase, the envelope does
the rest. -/
theorem voiceTick_frame (m : NumMode) (x : Snapshot) (v : Voice) :
    SameShape v (voiceTick m x v).2 ∧
      (voiceTick m x v).2.phase = advancePhase m v.phase v.phaseIncrement ∧
      ((voiceTick m x v).2.velocity = v.velocity ∨ (voiceTick m x v).2.velocity = 0) := by
  obtain ⟨h, hp, hv⟩ := envTick_frame m (oscStep m v).2
  exact ⟨⟨h.note, h.phaseIncrement, h.releasedEnvelopeLevel, h.attackLevel, h.sustainLevel,
    h.attackDuration, h.holdDuration, h.decayDuration, h.releaseDuration⟩, hp, hv⟩

/-- The envelope of a voice does not depend on its phase. -/
theorem voiceTick_voice (m : NumMode) (x : Snapshot) (v : Voice) :
    (voiceTick m x v).2 =
      envTick m { v with phase := advancePhase m v.phase v.phaseIncrement } := rfl

end Sys2Proof.Machine
end

