-- ==== Sys2Proof/Laws/Num.lean ====
section
/-! SUPPORT. What the operations of `NUM` mean over the reals, said once each. -/

namespace Sys2Proof

/-! The exact domain's operations are those of the data. -/

@[simp] theorem NumMode.exact_lit (q : Rat) : NumMode.exactReals.lit q = .ofRat q := rfl
@[simp] theorem NumMode.exact_add (x y : Scalar) : NumMode.exactReals.add x y = x.add y := rfl
@[simp] theorem NumMode.exact_sub (x y : Scalar) : NumMode.exactReals.sub x y = x.sub y := rfl
@[simp] theorem NumMode.exact_mul (x y : Scalar) : NumMode.exactReals.mul x y = x.mul y := rfl
@[simp] theorem NumMode.exact_div (x y : Scalar) : NumMode.exactReals.div x y = x.div y := rfl
@[simp] theorem NumMode.exact_lt (x y : Scalar) : NumMode.exactReals.lt x y = x.lt y := rfl
@[simp] theorem NumMode.exact_le (x y : Scalar) : NumMode.exactReals.le x y = x.le y := rfl
@[simp] theorem NumMode.exact_floor (x : Scalar) : NumMode.exactReals.floor x = x.floor := rfl
@[simp] theorem NumMode.exact_pitchLit (q : Rat) : NumMode.exactReals.pitchLit q = .ofRat q := rfl
@[simp] theorem NumMode.exact_pitchAdd (x y : Pitch) :
    NumMode.exactReals.pitchAdd x y = x.add y := rfl
@[simp] theorem NumMode.exact_pitchSub (x y : Pitch) :
    NumMode.exactReals.pitchSub x y = x.sub y := rfl
@[simp] theorem NumMode.exact_pitchMul (x y : Pitch) :
    NumMode.exactReals.pitchMul x y = x.mul y := rfl
@[simp] theorem NumMode.exact_pitchDiv (x y : Pitch) :
    NumMode.exactReals.pitchDiv x y = x.div y := rfl
@[simp] theorem NumMode.exact_pitchFloor (x : Pitch) :
    NumMode.exactReals.pitchFloor x = x.floor := rfl
@[simp] theorem NumMode.exact_fullTurn : NumMode.exactReals.fullTurn = .ofRat 2048 := rfl
@[simp] theorem NumMode.exact_ampLit (q : Rat) : NumMode.exactReals.ampLit q = .ofRat q := rfl
@[simp] theorem NumMode.exact_ampAdd (a b : Amp) : NumMode.exactReals.ampAdd a b = a.add b := rfl
@[simp] theorem NumMode.exact_ampMul (a b : Amp) : NumMode.exactReals.ampMul a b = a.mul b := rfl

/-! Scalars. -/

@[simp] theorem Scalar.ofRat_real (q : Rat) : (Scalar.ofRat q).toReal = q := by
  simp [Scalar.ofRat, Scalar.toReal, Scalar.eval]

@[simp] theorem Datum.toScalar_real (x : Datum) : x.toScalar.toReal = x.toReal := by
  cases x <;> simp [Datum.toScalar, Datum.toReal, Scalar.toReal, Scalar.eval]

/-- The sum of multiples of named reals. -/
noncomputable def partsReal (ps : List (Nat × Rat)) : ℝ :=
  (ps.map fun p => (p.2 : ℝ) * realNames.value p.1).sum

theorem Scalar.toReal_eq (x : Scalar) : x.toReal = x.rat + partsReal x.parts := rfl

theorem addPart_real (p : Nat × Rat) (ps : List (Nat × Rat)) :
    partsReal (addPart p ps) = p.2 * realNames.value p.1 + partsReal ps := by
  induction ps with
  | nil =>
    simp only [addPart]
    split
    · rename_i h
      simp [partsReal, h]
    · simp [partsReal]
  | cons r rs ih =>
    simp only [addPart]
    split
    · rename_i h
      split
      · rename_i h0
        have h0 : (p.2 : ℝ) + r.2 = 0 := by exact_mod_cast h0
        simp only [partsReal, List.map_cons, List.sum_cons, h]
        linear_combination -(realNames.value r.1) * h0
      · simp only [partsReal, List.map_cons, List.sum_cons, h]
        push_cast
        ring
    · split
      · split
        · rename_i h
          simp [partsReal, h]
        · simp [partsReal]
      · simp only [partsReal, List.map_cons, List.sum_cons] at ih ⊢
        rw [ih]
        ring

@[simp] theorem Scalar.add_real (x y : Scalar) : (x.add y).toReal = x.toReal + y.toReal := by
  have h : ∀ ps qs : List (Nat × Rat),
      partsReal (ps.foldr addPart qs) = partsReal ps + partsReal qs := by
    intro ps qs
    induction ps with
    | nil => simp [partsReal]
    | cons p ps ih =>
      rw [List.foldr_cons, addPart_real, ih]
      simp only [partsReal, List.map_cons, List.sum_cons]
      ring
  simp only [Scalar.toReal_eq, Scalar.add, h]
  push_cast
  ring

@[simp] theorem Scalar.scale_real (q : Rat) (x : Scalar) : (x.scale q).toReal = q * x.toReal := by
  unfold Scalar.scale
  split
  · rename_i h
    simp [Scalar.toReal_eq, partsReal, h]
  · have h : ∀ ps : List (Nat × Rat),
        partsReal (ps.map fun p => (p.1, q * p.2)) = q * partsReal ps := by
      intro ps
      induction ps with
      | nil => simp [partsReal]
      | cons p ps ih =>
        simp only [partsReal, List.map_cons, List.sum_cons] at ih ⊢
        rw [ih]
        push_cast
        ring
    simp only [Scalar.toReal_eq, h]
    push_cast
    ring

@[simp] theorem Scalar.sub_real (x y : Scalar) : (x.sub y).toReal = x.toReal - y.toReal := by
  rw [Scalar.sub, Scalar.add_real, Scalar.scale_real]
  push_cast
  ring

@[simp] theorem Scalar.mul_ofRat_real (x : Scalar) (q : Rat) :
    (x.mul (.ofRat q)).toReal = x.toReal * q := by
  rw [Scalar.mul, if_pos (show (Scalar.ofRat q).parts = [] from rfl), Scalar.scale_real]
  exact mul_comm _ _

/-- A quotient's floor is that of the reals (`RealNames.exact`). -/
theorem Scalar.floorQuotient_real (x y : Scalar) :
    x.floorQuotient y = ⌊x.toReal / y.toReal⌋ := by
  unfold Scalar.floorQuotient
  split
  · rename_i h
    simp only [Scalar.toReal_eq, h.1, h.2, partsReal, List.map_nil, List.sum_nil, add_zero]
    rw [← Rat.cast_div, Rat.floor_cast]
  · exact realNames.exact x y

theorem Scalar.floor_real (x : Scalar) : x.floor = ⌊x.toReal⌋ := by
  rw [Scalar.floor, Scalar.floorQuotient_real, Scalar.ofRat_real]
  norm_num

/-- Comparison is that of the reals (00_scope.md R14). -/
@[simp] theorem Scalar.lt_iff (x y : Scalar) : x.lt y = true ↔ x.toReal < y.toReal := by
  rw [Scalar.lt, decide_eq_true_eq, Scalar.floor_real, Scalar.sub_real, Int.floor_lt]
  constructor <;> intro h <;> norm_num at h ⊢ <;> linarith

@[simp] theorem Scalar.le_iff (x y : Scalar) : x.le y = true ↔ x.toReal ≤ y.toReal := by
  rw [Scalar.le, Bool.not_eq_true', ← Bool.not_eq_true, Scalar.lt_iff, not_lt]

theorem Scalar.isZero_iff (x : Scalar) : x.isZero = true ↔ x.toReal = 0 := by
  rw [Scalar.isZero, Bool.and_eq_true, Scalar.le_iff, Scalar.le_iff, Scalar.ofRat_real]
  push_cast
  exact antisymm_iff

@[simp] theorem Datum.isZero_iff (x : Datum) : x.isZero = true ↔ x.toReal = 0 := by
  rw [Datum.isZero, Scalar.isZero_iff, Datum.toScalar_real]

theorem Scalar.div_ofRat_real (x : Scalar) {q : Rat} (h : q ≠ 0) :
    (x.div (.ofRat q)).toReal = x.toReal / q := by
  have hz : ¬ (Scalar.ofRat q).isZero = true := by
    rw [Scalar.isZero_iff, Scalar.ofRat_real]
    exact_mod_cast h
  rw [Scalar.div, if_neg hz, if_pos (show (Scalar.ofRat q).parts = [] from rfl), Scalar.scale_real]
  push_cast [Scalar.ofRat]
  ring

/-! On rationals the operations are those of the rationals. -/

theorem Scalar.scale_ofRat (q p : Rat) : (Scalar.ofRat p).scale q = .ofRat (q * p) := by
  unfold Scalar.scale
  split
  · rename_i h
    rw [h, zero_mul]
    rfl
  · rfl

theorem Scalar.ofRat_add (p q : Rat) : (Scalar.ofRat p).add (.ofRat q) = .ofRat (p + q) := rfl

theorem Scalar.ofRat_sub (p q : Rat) : (Scalar.ofRat p).sub (.ofRat q) = .ofRat (p - q) := by
  rw [Scalar.sub, Scalar.scale_ofRat, Scalar.ofRat_add]
  congr 1
  ring

theorem Scalar.ofRat_mul (p q : Rat) : (Scalar.ofRat p).mul (.ofRat q) = .ofRat (p * q) := by
  rw [Scalar.mul, if_pos (show (Scalar.ofRat q).parts = [] from rfl), Scalar.scale_ofRat]
  congr 1
  exact mul_comm _ _

theorem Scalar.ofRat_div (p : Rat) {q : Rat} (h : q ≠ 0) :
    (Scalar.ofRat p).div (.ofRat q) = .ofRat (p / q) := by
  have hz : ¬ (Scalar.ofRat q).isZero = true := by
    rw [Scalar.isZero_iff, Scalar.ofRat_real]
    exact_mod_cast h
  rw [Scalar.div, if_neg hz, if_pos (show (Scalar.ofRat q).parts = [] from rfl),
    Scalar.scale_ofRat]
  congr 1
  rw [Scalar.ofRat]
  field_simp

/-- `floor(a * (x / y))` over the reals, 41_envelope.md R150. -/
theorem NumMode.exact_floorMulDiv (a : Nat) (x : Scalar) {y : Scalar} (h : y.toReal ≠ 0) :
    NumMode.exactReals.floorMulDiv a x y = ⌊(a : ℝ) * (x.toReal / y.toReal)⌋ := by
  have hz : ¬ y.isZero = true := by rwa [Scalar.isZero_iff]
  rw [NumMode.floorMulDiv, if_neg hz, Scalar.floorQuotient_real, Scalar.scale_real, mul_div_assoc]
  norm_num

/-! Pitches. -/

/-- The search keeps its bounds: the root stays between what is found and one above it. -/
theorem rootSearch_spec (n : Nat) : ∀ (bits r : Nat), r ^ 12 ≤ n → n < (r + 2 ^ bits) ^ 12 →
    (rootSearch n bits r) ^ 12 ≤ n ∧ n < (rootSearch n bits r + 1) ^ 12
  | 0, r, h1, h2 => by simpa [rootSearch] using ⟨h1, h2⟩
  | bits + 1, r, h1, h2 => by
    rw [rootSearch]
    split
    · rename_i h
      refine rootSearch_spec n bits _ h ?_
      rwa [add_assoc, ← two_mul, ← pow_succ']
    · rename_i h
      exact rootSearch_spec n bits r h1 (not_le.mp h)

/-- The twelfth root is the greatest number whose twelfth power is not above `n`. -/
theorem twelfthRoot_spec (n : Nat) : twelfthRoot n ^ 12 ≤ n ∧ n < (twelfthRoot n + 1) ^ 12 := by
  refine rootSearch_spec n _ 0 (by simp) ?_
  rw [zero_add, ← pow_mul]
  have := Nat.lt_log2_self (n := n)
  exact lt_of_lt_of_le this (Nat.pow_le_pow_right (by norm_num) (by omega))

theorem rootPow (k : Nat) : ((2 : ℝ) ^ ((k : ℝ) / 12)) ^ 12 = 2 ^ k := by
  rw [← Real.rpow_natCast, ← Real.rpow_mul (by norm_num)]
  norm_num

/-- The floor of an integer times a twelfth root of a power of two (00_scope.md R14). -/
theorem floorTimesRoot_spec (c : Int) (k : Nat) :
    floorTimesRoot c k = ⌊(c : ℝ) * (2 : ℝ) ^ ((k : ℝ) / 12)⌋ := by
  set b : ℝ := (2 : ℝ) ^ ((k : ℝ) / 12) with hb
  have hb0 : 0 < b := by positivity
  have hb12 : b ^ 12 = 2 ^ k := rootPow k
  set n := c.natAbs ^ 12 * 2 ^ k with hn
  obtain ⟨h1, h2⟩ := twelfthRoot_spec n
  set r := twelfthRoot n with hr
  have hx : ((c.natAbs : ℝ) * b) ^ 12 = (n : ℝ) := by
    rw [mul_pow, hb12, hn]; push_cast; ring
  have hx0 : 0 ≤ (c.natAbs : ℝ) * b := by positivity
  have hle : (r : ℝ) ≤ (c.natAbs : ℝ) * b := by
    refine le_of_pow_le_pow_left₀ (n := 12) (by norm_num) hx0 ?_
    rw [hx]; exact_mod_cast h1
  have hlt : (c.natAbs : ℝ) * b < (r : ℝ) + 1 := by
    refine lt_of_pow_lt_pow_left₀ 12 (by positivity) ?_
    rw [hx]; exact_mod_cast h2
  have hu : floorTimesRoot c k = if 0 ≤ c then (r : Int) else if r ^ 12 = n then -(r : Int) else -((r + 1 : Nat) : Int) := rfl
  rw [hu, eq_comm, Int.floor_eq_iff]
  split
  · rename_i hc
    have : (c : ℝ) = (c.natAbs : ℝ) := by
      have : c = ((c.natAbs : ℕ) : ℤ) := (Int.natAbs_of_nonneg hc).symm
      rw [← Int.cast_natCast, ← this]
    rw [this]
    exact ⟨by exact_mod_cast hle, by exact_mod_cast hlt⟩
  · rename_i hc
    have hc' : (c : ℝ) = -(c.natAbs : ℝ) := by
      have : (c.natAbs : ℤ) = -c := by omega
      have h2 : c = -((c.natAbs : ℕ) : ℤ) := by omega
      rw [← Int.cast_natCast, ← Int.cast_neg, ← h2]
    rw [hc', neg_mul]
    split
    · rename_i he
      have : (c.natAbs : ℝ) * b = r := by
        refine (pow_left_inj₀ hx0 (by positivity) (n := 12) (by norm_num)).mp ?_
        rw [hx, ← he]; push_cast; rfl
      rw [this]; push_cast
      constructor <;> linarith
    · rename_i he
      have hne : (r : ℝ) ≠ (c.natAbs : ℝ) * b := by
        intro h
        apply he
        have : ((r : ℝ)) ^ 12 = n := by rw [h, hx]
        exact_mod_cast this
      have := lt_of_le_of_ne hle hne
      push_cast
      constructor <;> linarith

theorem Pitch.norm_real (rat coef : Rat) (gen : Generator) :
    (Pitch.norm rat coef gen).toReal = rat + coef * gen.toReal := by
  unfold Pitch.norm
  split
  · rename_i h
    subst h
    simp [Pitch.toReal, Generator.toReal]
  · split
    · rename_i h
      simp [Pitch.toReal, Generator.toReal, h]
    · simp [Pitch.toReal, Generator.toReal]

/-- Adding summable pitches adds their reals (entry 4). -/
theorem Pitch.add_real {x y : Pitch} (h : x.Summable y) : (x.add y).toReal = x.toReal + y.toReal := by
  unfold Pitch.add
  split
  · rename_i hy
    rw [Pitch.norm_real]
    simp only [Pitch.toReal, hy]
    push_cast
    ring
  · split
    · rename_i hx
      rw [Pitch.norm_real]
      simp only [Pitch.toReal, hx]
      push_cast
      ring
    · split
      · rename_i he
        rw [Pitch.norm_real]
        simp only [Pitch.toReal, he]
        push_cast
        ring
      · rename_i hy hx hr
        rcases h with h | h | h
        · exact absurd h hx
        · exact absurd h hy
        · exact absurd h hr

theorem Pitch.norm_summable {r c : Rat} {k : Generator} {y : Pitch}
    (h : c = 0 ∨ y.coef = 0 ∨ k = y.gen) : (Pitch.norm r c k).Summable y := by
  unfold Pitch.norm Pitch.Summable
  split
  · exact .inl rfl
  · split
    · exact .inl rfl
    · exact h

/-- A sum of summable pitches is summable with what both summands are summable with. -/
theorem Pitch.add_summable {x y z : Pitch} (hxy : x.Summable y) (hx : x.Summable z)
    (hy : y.Summable z) : (x.add y).Summable z := by
  unfold Pitch.add
  split
  · exact Pitch.norm_summable hx
  · split
    · exact Pitch.norm_summable hy
    · rename_i hyc hxc
      split
      · exact Pitch.norm_summable (.inr (hx.resolve_left hxc))
      · rename_i hr
        rcases hxy with h | h | h
        · exact absurd h hxc
        · exact absurd h hyc
        · exact absurd h hr

theorem Pitch.scale_real (q : Rat) (x : Pitch) : (x.scale q).toReal = q * x.toReal := by
  rw [Pitch.scale, Pitch.norm_real, Pitch.toReal]
  push_cast
  ring

@[simp] theorem Pitch.ofRat_real (q : Rat) : (Pitch.ofRat q).toReal = q := by
  simp [Pitch.ofRat, Pitch.toReal]

/-- Scaling keeps what a pitch can be added to. -/
theorem Pitch.scale_summable {x y : Pitch} (q : Rat) (h : x.Summable y) :
    (x.scale q).Summable y := by
  rcases h with h | h | h
  · exact Pitch.norm_summable (.inl (by rw [h, mul_zero]))
  · exact Pitch.norm_summable (.inr (.inl h))
  · exact Pitch.norm_summable (.inr (.inr h))

theorem Pitch.Summable.symm {x y : Pitch} (h : x.Summable y) : y.Summable x := by
  rcases h with h | h | h
  · exact .inr (.inl h)
  · exact .inl h
  · exact .inr (.inr h.symm)

/-- A rational can be added to everything. -/
theorem Pitch.ofRat_summable (q : Rat) (x : Pitch) : (Pitch.ofRat q).Summable x := .inl rfl

theorem Pitch.sub_real {x y : Pitch} (h : x.Summable y) :
    (x.sub y).toReal = x.toReal - y.toReal := by
  rw [Pitch.sub, Pitch.add_real (Pitch.scale_summable (-1) h.symm).symm, Pitch.scale_real]
  push_cast
  ring

theorem Pitch.mul_ofRat_real (x : Pitch) (q : Rat) :
    (x.mul (.ofRat q)).toReal = x.toReal * q := by
  rw [Pitch.mul, if_pos (show (Pitch.ofRat q).coef = 0 from rfl), Pitch.scale_real]
  exact mul_comm _ _

theorem Pitch.ofRat_mul_real (x : Pitch) (q : Rat) :
    ((Pitch.ofRat q).mul x).toReal = q * x.toReal := by
  unfold Pitch.mul
  split
  · rename_i h
    rw [Pitch.scale_real, Pitch.ofRat_real]
    simp only [Pitch.toReal, h]
    push_cast
    ring
  · rw [if_pos (show (Pitch.ofRat q).coef = 0 from rfl), Pitch.scale_real]
    rfl

theorem Pitch.div_ofRat_real (x : Pitch) {q : Rat} (h : q ≠ 0) :
    (x.div (.ofRat q)).toReal = x.toReal / q := by
  rw [Pitch.div, if_pos (show (Pitch.ofRat q).coef = 0 from rfl),
    if_neg (show (Pitch.ofRat q).rat ≠ 0 from h), Pitch.scale_real]
  push_cast [Pitch.ofRat]
  ring

theorem tenPow_real (z : Int) : ((tenPow z : Rat) : ℝ) = (10:ℝ) ^ z := by
  unfold tenPow
  split
  · rename_i h
    obtain ⟨n, rfl⟩ := Int.eq_ofNat_of_zero_le h
    simp
  · rename_i h
    obtain ⟨n, rfl⟩ : ∃ n : ℕ, z = -(n : ℤ) := ⟨(-z).toNat, by omega⟩
    simp

/-- Inserting a term adds its real number. -/
theorem insertTerm_real (t : Term) (ts : List Term) :
    ((insertTerm t ts).map Term.toReal).sum = t.toReal + (ts.map Term.toReal).sum := by
  induction ts with
  | nil =>
    simp only [insertTerm]
    split
    · rename_i h; simp [Term.toReal, h]
    · simp
  | cons u us ih =>
    simp only [insertTerm]
    split
    · rename_i h
      simp only [Term.sameKey, Bool.and_eq_true, decide_eq_true_eq] at h
      split
      · rename_i h0
        have : (t.coef : ℝ) + u.coef = 0 := by exact_mod_cast h0
        simp only [List.map_cons, List.sum_cons, Term.toReal, h.1.1, h.1.2, h.2]
        linear_combination (-(u.factors.map Factor.toReal).prod * (10:ℝ) ^ (u.tenExp:ℝ) * Real.cos (2 * Real.pi * u.wave / 2048)) * this
      · simp only [List.map_cons, List.sum_cons, Term.toReal, h.1.1, h.1.2, h.2]
        push_cast; ring
    · split
      · split
        · rename_i h; simp [Term.toReal, h]
        · simp
      · simp only [List.map_cons, List.sum_cons, ih]; ring

theorem foldr_insert_real (ts us : List Term) :
    ((ts.foldr insertTerm us).map Term.toReal).sum = (ts.map Term.toReal).sum + (us.map Term.toReal).sum := by
  induction ts with
  | nil => simp
  | cons t ts ih => simp only [List.foldr_cons, insertTerm_real, ih, List.map_cons, List.sum_cons]; ring

theorem ofTerms_real (ts : List Term) : (Amp.ofTerms ts).toReal = (ts.map Term.toReal).sum := by
  simp [Amp.ofTerms, Amp.toReal, foldr_insert_real]

/-- The symmetries of the cosine (40_wavetable_oscillator.md R120). -/
theorem foldWave_real (n : Nat) :
    ((foldWave n).1 : ℝ) * Real.cos (2 * Real.pi * (foldWave n).2 / 2048) = Real.cos (2 * Real.pi * n / 2048) := by
  have hm : Real.cos (2 * Real.pi * n / 2048) = Real.cos (2 * Real.pi * (n % 2048 : ℕ) / 2048) := by
    have : (n : ℝ) = (n % 2048 : ℕ) + 2048 * (n / 2048 : ℕ) := by exact_mod_cast (Nat.mod_add_div n 2048).symm
    rw [this, show 2 * Real.pi * (((n % 2048 : ℕ) : ℝ) + 2048 * (n / 2048 : ℕ)) / 2048 = 2 * Real.pi * ((n % 2048 : ℕ) : ℝ) / 2048 + (n / 2048 : ℕ) * (2 * Real.pi) by ring]
    rw [Real.cos_add_nat_mul_two_pi]
    
  rw [hm]
  have hlt : n % 2048 < 2048 := Nat.mod_lt _ (by norm_num)
  unfold foldWave
  generalize n % 2048 = m at *
  dsimp only
  set h := if 1024 < m then 2048 - m else m with hh
  have hc : Real.cos (2 * Real.pi * m / 2048) = Real.cos (2 * Real.pi * h / 2048) := by
    rw [hh]; split
    · rw [Nat.cast_sub hlt.le, ← Real.cos_two_pi_sub]; congr 1; push_cast; ring
    · rfl
  have hb : h ≤ 1024 := by rw [hh]; split <;> omega
  rw [hc]
  split
  · rename_i e
    rw [e]; push_cast
    rw [show 2 * Real.pi * 512 / 2048 = Real.pi / 2 by ring]; simp
  · split
    · push_cast [Nat.cast_sub hb]
      rw [show 2 * Real.pi * (1024 - (h:ℝ)) / 2048 = Real.pi - 2 * Real.pi * h / 2048 by ring, Real.cos_pi_sub]; ring
    · simp

theorem cosTerm_real (fs : List Factor) (e c : Rat) (n : Nat) :
    (cosTerm fs e c n).toReal = (fs.map Factor.toReal).prod *
      (c * (10:ℝ) ^ (e:ℝ) * Real.cos (2 * Real.pi * n / 2048)) := by
  rw [← foldWave_real n]
  simp only [cosTerm, Term.toReal]; push_cast; ring

/-- The two terms of a product of terms sum to the product of the reals. -/
theorem mulTerm_real (t u : Term) : ((mulTerm t u).map Term.toReal).sum = t.toReal * u.toReal := by
  simp only [mulTerm, List.map_cons, List.map_nil, List.sum_cons, List.sum_nil, cosTerm_real,
    List.map_append, List.prod_append]
  push_cast [tenPow_real]
  have h10 : (10:ℝ) ^ ((t.tenExp:ℝ)) * (10:ℝ) ^ ((u.tenExp:ℝ)) =
     (10:ℝ) ^ ((t.tenExp:ℝ) + u.tenExp - (⌊t.tenExp + u.tenExp⌋ : ℤ)) * (10:ℝ) ^ (⌊t.tenExp + u.tenExp⌋ : ℤ) := by
    rw [← Real.rpow_intCast, ← Real.rpow_add (by norm_num), ← Real.rpow_add (by norm_num)]; congr 1; ring
  have hcos : Real.cos (2 * Real.pi * ((t.wave:ℝ) + u.wave) / 2048) + Real.cos (2 * Real.pi * (((t.wave - u.wave : ℕ):ℝ) + (u.wave - t.wave : ℕ)) / 2048)
     = 2 * (Real.cos (2 * Real.pi * t.wave / 2048) * Real.cos (2 * Real.pi * u.wave / 2048)) := by
    have : Real.cos (2 * Real.pi * (((t.wave - u.wave : ℕ):ℝ) + (u.wave - t.wave : ℕ)) / 2048) = Real.cos (2 * Real.pi * ((t.wave:ℝ) - u.wave) / 2048) := by
      rcases le_total t.wave u.wave with h | h
      · rw [Nat.sub_eq_zero_of_le h, Nat.cast_sub h, ← Real.cos_neg]; congr 1; push_cast; ring
      · rw [Nat.sub_eq_zero_of_le h, Nat.cast_sub h]; congr 1; push_cast; ring
    rw [this]
    rw [show 2 * Real.pi * ((t.wave:ℝ) + u.wave) / 2048 = 2 * Real.pi * t.wave / 2048 + 2 * Real.pi * u.wave / 2048 by ring,
      show 2 * Real.pi * ((t.wave:ℝ) - u.wave) / 2048 = 2 * Real.pi * t.wave / 2048 - 2 * Real.pi * u.wave / 2048 by ring,
      Real.cos_add, Real.cos_sub]; ring
  simp only [Term.toReal]
  set F := (t.factors.map Factor.toReal).prod
  set G := (u.factors.map Factor.toReal).prod
  have e : F * ((t.coef : ℝ) * (10:ℝ) ^ ((t.tenExp:ℝ)) * Real.cos (2 * Real.pi * t.wave / 2048)) * (G * (u.coef * (10:ℝ) ^ ((u.tenExp:ℝ)) * Real.cos (2 * Real.pi * u.wave / 2048)))
    = F * G * t.coef * u.coef * ((10:ℝ) ^ ((t.tenExp:ℝ)) * (10:ℝ) ^ ((u.tenExp:ℝ))) * (Real.cos (2 * Real.pi * t.wave / 2048) * Real.cos (2 * Real.pi * u.wave / 2048)) := by ring
  rw [e, h10]
  linear_combination (F * G * t.coef * u.coef * (10:ℝ) ^ (⌊t.tenExp + u.tenExp⌋ : ℤ) / 2 * (10:ℝ) ^ ((t.tenExp:ℝ) + u.tenExp - (⌊t.tenExp + u.tenExp⌋ : ℤ))) * hcos

theorem sum_flatMap {α : Type} (f : α → List Term) (g : α → ℝ) (h : ∀ a, ((f a).map Term.toReal).sum = g a) (xs : List α) :
    ((xs.flatMap f).map Term.toReal).sum = (xs.map g).sum := by
  induction xs with
  | nil => simp
  | cons x xs ih => simp [List.flatMap_cons, h, ih]

/-- A power of ten, whole part and fraction. -/
theorem tenToThe_real (e : Rat) : (tenToThe e).toReal = (10:ℝ) ^ (e:ℝ) := by
  simp only [tenToThe, ofTerms_real, List.map_cons, List.map_nil, List.sum_cons, List.sum_nil, Term.toReal, tenPow_real,
    List.prod_nil, one_mul]
  rw [← Real.rpow_intCast]
  simp only [Nat.cast_zero, mul_zero, zero_div, Real.cos_zero, mul_one, add_zero]
  rw [← Real.rpow_add (by norm_num)]; congr 1; push_cast; ring

end Sys2Proof
end

