-- ==== Sys2Proof/Laws/PerInstr.lean ====
section
/-! SUPPORT. Statements made for every command, one lemma for each constructor of Instr. -/

namespace Sys2Proof.Laws

/-- The mask of a command's row, 30_encoding.md R95 to R100 and spec/opcode_table.json. -/
def rowMask : Instr → CommandWord
  | .init _ => 0xFFFFFFFF00000000
  | .block _ => 0xFFFFFFFF00000000
  | .noteOff _ _ _ => 0xFFFF808000000000
  | .noteOn _ _ _ => 0xFFFF808000000000
  | .eventK7 _ _ => 0xF800000000000000
  | .eventK6 _ _ => 0xFC00000000000000
  | .eventK5 _ _ => 0xFE00000000000000
  | .eventK4 _ _ => 0xFF00000000000000
  | .eventK3 _ _ => 0xFF80000000000000
  | .eventK2 _ _ => 0xFFC0000000000000
  | .eventK1 _ _ => 0xFFE0000000000000
  | .endBlock => 0xFFFFFFFFFFFFFFFF

/-- The match of a command's row. -/
def rowMatch : Instr → CommandWord
  | .init _ => 0x1000000000000000
  | .block _ => 0x2000000000000000
  | .noteOff _ _ _ => 0x3000000000000000
  | .noteOn _ _ _ => 0x3010000000000000
  | .eventK7 _ _ => 0x3800000000000000
  | .eventK6 _ _ => 0x3400000000000000
  | .eventK5 _ _ => 0x3200000000000000
  | .eventK4 _ _ => 0x3100000000000000
  | .eventK3 _ _ => 0x3080000000000000
  | .eventK2 _ _ => 0x3040000000000000
  | .eventK1 _ _ => 0x3020000000000000
  | .endBlock => 0x4000000000000000

/-- The word of a command is its row's match under its row's mask, whatever its operands. -/
def MatchMask.Statement (i : Instr) : Prop := encode i &&& rowMask i = rowMatch i

theorem and_append {a b : Nat} (x y : BitVec a) (u v : BitVec b) :
    (x ++ u) &&& (y ++ v) = (x &&& y) ++ (u &&& v) := by
  ext i h
  simp only [BitVec.getElem_and, BitVec.getElem_append]
  split <;> rfl

theorem MatchMask.init (fs : Counter) : Statement (.init fs) := by
  show (1#4 ++ 0#8 ++ 0#4 ++ 0#1 ++ 0#7 ++ 0#1 ++ 0#7 ++ fs) &&& (0xFFFFFFFF#32 ++ 0#32) =
    0x1000000000000000#64
  rw [and_append, BitVec.and_zero]
  rfl

theorem MatchMask.block (n : Counter) : Statement (.block n) := by
  show (2#4 ++ 0#8 ++ 0#4 ++ 0#1 ++ 0#7 ++ 0#1 ++ 0#7 ++ n) &&& (0xFFFFFFFF#32 ++ 0#32) =
    0x2000000000000000#64
  rw [and_append, BitVec.and_zero]
  rfl

theorem MatchMask.noteOff (offset : Counter) (note : Note) (vel : Velocity) :
    Statement (.noteOff offset note vel) := by
  show (3#4 ++ 0#8 ++ 0#4 ++ 0#1 ++ note ++ 0#1 ++ vel ++ offset) &&&
    (0xFFFF#16 ++ 1#1 ++ 0#7 ++ 1#1 ++ 0#7 ++ 0#32) = 0x3000000000000000#64
  rw [and_append, and_append, and_append, and_append, BitVec.and_zero (x := note),
    BitVec.and_zero (x := vel), BitVec.and_zero (x := offset)]
  rfl

theorem MatchMask.noteOn (offset : Counter) (note : Note) (vel : Velocity) :
    Statement (.noteOn offset note vel) := by
  show (3#4 ++ 1#8 ++ 0#4 ++ 0#1 ++ note ++ 0#1 ++ vel ++ offset) &&&
    (0xFFFF#16 ++ 1#1 ++ 0#7 ++ 1#1 ++ 0#7 ++ 0#32) = 0x3010000000000000#64
  rw [and_append, and_append, and_append, and_append, BitVec.and_zero (x := note),
    BitVec.and_zero (x := vel), BitVec.and_zero (x := offset)]
  rfl

theorem MatchMask.eventK7 (kind : BitVec 7) (rest : BitVec 52) :
    Statement (.eventK7 kind rest) := by
  show (3#4 ++ 1#1 ++ kind ++ rest) &&& (0xF#4 ++ 1#1 ++ 0#7 ++ 0#52) =
    0x3800000000000000#64
  rw [and_append, and_append, BitVec.and_zero (x := kind), BitVec.and_zero (x := rest)]
  rfl

theorem MatchMask.eventK6 (kind : BitVec 6) (rest : BitVec 52) :
    Statement (.eventK6 kind rest) := by
  show (3#4 ++ 1#2 ++ kind ++ rest) &&& (0xF#4 ++ 3#2 ++ 0#6 ++ 0#52) =
    0x3400000000000000#64
  rw [and_append, and_append, BitVec.and_zero (x := kind), BitVec.and_zero (x := rest)]
  rfl

theorem MatchMask.eventK5 (kind : BitVec 5) (rest : BitVec 52) :
    Statement (.eventK5 kind rest) := by
  show (3#4 ++ 1#3 ++ kind ++ rest) &&& (0xF#4 ++ 7#3 ++ 0#5 ++ 0#52) =
    0x3200000000000000#64
  rw [and_append, and_append, BitVec.and_zero (x := kind), BitVec.and_zero (x := rest)]
  rfl

theorem MatchMask.eventK4 (kind : BitVec 4) (rest : BitVec 52) :
    Statement (.eventK4 kind rest) := by
  show (3#4 ++ 1#4 ++ kind ++ rest) &&& (0xF#4 ++ 15#4 ++ 0#4 ++ 0#52) =
    0x3100000000000000#64
  rw [and_append, and_append, BitVec.and_zero (x := kind), BitVec.and_zero (x := rest)]
  rfl

theorem MatchMask.eventK3 (kind : BitVec 3) (rest : BitVec 52) :
    Statement (.eventK3 kind rest) := by
  show (3#4 ++ 1#5 ++ kind ++ rest) &&& (0xF#4 ++ 31#5 ++ 0#3 ++ 0#52) =
    0x3080000000000000#64
  rw [and_append, and_append, BitVec.and_zero (x := kind), BitVec.and_zero (x := rest)]
  rfl

theorem MatchMask.eventK2 (kind : BitVec 2) (rest : BitVec 52) :
    Statement (.eventK2 kind rest) := by
  show (3#4 ++ 1#6 ++ kind ++ rest) &&& (0xF#4 ++ 63#6 ++ 0#2 ++ 0#52) =
    0x3040000000000000#64
  rw [and_append, and_append, BitVec.and_zero (x := kind), BitVec.and_zero (x := rest)]
  rfl

theorem MatchMask.eventK1 (kind : BitVec 1) (rest : BitVec 52) :
    Statement (.eventK1 kind rest) := by
  show (3#4 ++ 1#7 ++ kind ++ rest) &&& (0xF#4 ++ 127#7 ++ 0#1 ++ 0#52) =
    0x3020000000000000#64
  rw [and_append, and_append, BitVec.and_zero (x := kind), BitVec.and_zero (x := rest)]
  rfl

theorem MatchMask.endBlock : Statement .endBlock := rfl

end Sys2Proof.Laws
end

