-- ==== Sys2Proof/Tests/Slice0.lean ====
section
/-! SUPPORT. Tests whose expected values are those of spec/95_test_vectors.md or of a worked example
of a rule, and, for each obligation that has hypotheses, a named state and operands that meet them. -/

namespace Sys2Proof.Tests

open Sys2Proof.Machine

/-! ## Well-formedness -/

/-- R101 (e): a rate of 0 is the one ill-formed operand. -/
theorem test_initOfRateZeroIsIllFormed : (Instr.init 0).wellFormed = false := by decide

theorem test_initOfRateOneIsWellFormed : (Instr.init 1).wellFormed = true := by decide

/-! ## Decoding: words of T30-1 and T30-2, and of 30_encoding.md R99 -/

theorem test_decodeInit : decode 0x100000000000BB80#64 = .ok (.init 48000) := by decide
theorem test_decodeInitLargest : decode 0x10000000FFFFFFFF#64 = .ok (.init 4294967295) := by decide
theorem test_decodeBlock : decode 0x2000000000017700#64 = .ok (.block 96000) := by decide
theorem test_decodeBlockZero : decode 0x2000000000000000#64 = .ok (.block 0) := by decide
theorem test_decodeNoteOff : decode 0x30004F7F00000005#64 = .ok (.noteOff 5 79 127) := by decide
theorem test_decodeNoteOn : decode 0x3010455A00000010#64 = .ok (.noteOn 16 69 90) := by decide
theorem test_decodeNoteOnLargest :
    decode 0x30107F7FFFFFFFFF#64 = .ok (.noteOn 4294967295 127 127) := by decide
theorem test_decodeEventK7 :
    decode 0x3B00076400000006#64 = .ok (.eventK7 0x30 0x0076400000006) := by decide
theorem test_decodeEventK7ReservedBits :
    decode 0x3B01FFFF00000006#64 = .ok (.eventK7 0x30 0x1FFFF00000006) := by decide
/-- `KIND` 0x7F, the last of R99's second row. -/
theorem test_decodeEventK6 : decode 0x37F0000000000000#64 = .ok (.eventK6 0x3F 0) := by decide
/-- `KIND` 0x20. -/
theorem test_decodeEventK5 : decode 0x3200000000000000#64 = .ok (.eventK5 0 0) := by decide
/-- `KIND` 0x1F. -/
theorem test_decodeEventK4 : decode 0x31F0000000000000#64 = .ok (.eventK4 0xF 0) := by decide
/-- `KIND` 0x08. -/
theorem test_decodeEventK3 : decode 0x3080000000000000#64 = .ok (.eventK3 0 0) := by decide
/-- `KIND` 0x07. -/
theorem test_decodeEventK2 : decode 0x3070000000000000#64 = .ok (.eventK2 3 0) := by decide
theorem test_decodeEventK1 : decode 0x3020000000000000#64 = .ok (.eventK1 0 0) := by decide
theorem test_decodeEnd : decode 0x4000000000000000#64 = .ok .endBlock := by decide

theorem test_malformedZeroWord : decode 0#64 = .error .reservedOp := by decide
theorem test_malformedInitMiddle : decode 0x100000010000BB80#64 = .error .reservedBits := by decide
theorem test_malformedEndArgument : decode 0x4000000000000001#64 = .error .endArgument := by decide
theorem test_malformedNoteOnZ1 : decode 0x3010C56400000000#64 = .error .eventReservedBits := by
  decide
theorem test_malformedInitZero : decode 0x1000000000000000#64 = .error .zeroRate := by decide

/-! ## States of program P2 of 95_test_vectors.md -/

/-- An outcome that is a next state with a property. -/
def nextAnd (o : Host.Outcome State Fault Refusal) (p : State → Bool) : Bool :=
  match o with
  | .next t => p t
  | .fault _ => false
  | .refused _ => false

/-- An outcome that is a given refusal. -/
def refusedWith (o : Host.Outcome State Fault Refusal) (r : Refusal) : Bool :=
  match o with
  | .next _ => false
  | .fault _ => false
  | .refused q => decide (q = r)

def portsOf (v p a h d r s : Rat) : Ports :=
  ⟨.finite (.rational v), .finite (.rational p), .finite (.rational a), .finite (.rational h),
    .finite (.rational d), .finite (.rational r), .finite (.rational s)⟩

def sampleOf (v p a h d r s : Rat) : PortSample :=
  ⟨.rational v, .rational p, .rational a, .rational h, .rational d, .rational r, .rational s⟩

/-- P2 after INIT 1760, with its ports. -/
def ready : State :=
  { State.reset with mode := .idle, fs := 1760, ports := portsOf 0 (-1) 5 2 3 3 (1 / 2) }

/-- P2's ports as one sample. -/
def readySample : PortSample := sampleOf 0 (-1) 5 2 3 3 (1 / 2)

/-- P2 after BLOCK 40. -/
def open40 : State :=
  { ready with
    mode := .inBlock
    blen := 40
    snap := ⟨Amp.ofRat 1, Amp.ofRat 1, Amp.zero, 8, 3, 5, 5, .ofRat (1 / 2)⟩ }

/-- P2's voice before the tick of sample 24. -/
def sustained : Voice :=
  { note := 69, velocity := 100, phase := .ofRat 0, phaseIncrement := .ofRat 512
    envelopeIndex := 0, envelopeLevel := .ofRat (1 / 2), releasedEnvelopeLevel := .ofRat 0
    attackLevel := .ofRat 1, sustainLevel := .ofRat (1 / 2), attackDuration := 8, holdDuration := 3
    decayDuration := 5, releaseDuration := 5, status := .sustain }

/-- P2 before the NOTE_OFF at offset 24: slot 0 sounds. -/
def sounding : State :=
  { open40 with cur := 24, voices := State.reset.voices.set 0 sustained, ac := 1 }

/-- P2's voice after that NOTE_OFF. -/
def released : Voice := 
  { sustained with releasedEnvelopeLevel := .ofRat (1 / 2), status := .release }

/-! ## One step of each command -/

/-- R190's example: INIT 48000. -/
theorem test_init : nextAnd (exec (.init 48000) State.reset) (fun t =>
    decide (t.fs = 48000 ∧ t.mode = .idle ∧ t.ac = 0 ∧ (t.voice 127).velocity = 0)) = true := by
  decide +kernel

theorem test_initTwiceIsRefused : refusedWith (exec (.init 48000) ready) .wrongMode = true := by
  decide +kernel

/-- P2 after BLOCK 40. -/
theorem test_block : nextAnd (exec (.block 40) ready) (fun t =>
    decide (t.snap = open40.snap ∧ t.blen = 40 ∧ t.cur = 0 ∧ t.mode = .inBlock)) = true := by
  decide +kernel

/-- A port that holds no number: P4 (R226 (a)). -/
theorem test_blockRefusesNotANumber :
    refusedWith (exec (.block 40) { ready with ports := ready.ports.set .panning .notANumber })
      .illegalPort = true := by
  decide +kernel

/-- P2's first event, on the ready block. -/
theorem test_noteOnFresh : nextAnd (exec (.noteOn 0 69 100) open40) (fun t =>
    decide (t.activeList = [0] ∧ t.voice 0 =
      { sustained with envelopeLevel := .ofRat 0, status := .attack })) = true := by
  decide +kernel

/-- P3's re-attack at level 3/5 with `A = 8`: index 4, the old velocity, the old phase. -/
theorem test_noteOnReattack : nextAnd (exec (.noteOn 24 69 90)
      (sounding.setVoice 0 { released with envelopeLevel := .ofRat (3 / 5) })) (fun t =>
    decide (t.activeList = [0] ∧ (t.voice 0).status = .attack ∧ (t.voice 0).envelopeIndex = 4 ∧
      (t.voice 0).velocity = 100)) = true := by
  decide +kernel

/-- R177's example: released from 1/2. -/
theorem test_noteOff : nextAnd (exec (.noteOff 24 69 0) sounding) (fun t =>
    decide (t.voice 0 = released ∧ t.activeList = [0] ∧ t.cur = 24)) = true := by
  decide +kernel

/-- T60-3: an offset at `BLEN` is refused with P3. -/
theorem test_noteOffPastTheBlock : refusedWith (exec (.noteOff 40 69 0) sounding) .offsetOrder = true := by
  decide +kernel

/-- P2, samples 24 to 39: 0, 3/10, 0, -1/10, 0, 0, then silence; the voice retires on sample 29. -/
theorem test_end : nextAnd (exec .endBlock (sounding.setVoice 0 released)) (fun t =>
    decide ((List.range 8).map (fun k => t.outl.read (24 + k)) =
        [Amp.zero, Amp.ofRat (3 / 10), Amp.zero, Amp.ofRat (-1 / 10), Amp.zero, Amp.zero, Amp.zero,
          Amp.zero] ∧
      t.outr.cells = [] ∧ t.ac = 0 ∧ (t.voice 0).velocity = 0 ∧ (t.voice 0).envelopeIndex = 6 ∧
      (t.voice 0).phase = .ofRat 1024 ∧ t.cur = 40 ∧ t.mode = .idle)) = true := by
  decide +kernel

theorem test_endOutsideABlock : refusedWith (exec .endBlock ready) .wrongMode = true := by
  decide +kernel

/-- P4's EVENT 0xB0: nothing changes, `CUR` included. -/
theorem test_eventK7 : exec (.eventK7 0x30 0x0076400000006) sounding = .next sounding := rfl
theorem test_eventK6 : exec (.eventK6 0x3F 0) sounding = .next sounding := rfl
theorem test_eventK5 : exec (.eventK5 0 0) sounding = .next sounding := rfl
theorem test_eventK4 : exec (.eventK4 0xF 0) sounding = .next sounding := rfl
theorem test_eventK3 : exec (.eventK3 0 0) sounding = .next sounding := rfl
theorem test_eventK2 : exec (.eventK2 3 0) sounding = .next sounding := rfl
theorem test_eventK1 : exec (.eventK1 0 0) sounding = .next sounding := rfl
theorem test_eventOutsideABlock : exec (.eventK1 0 0) ready = .refused .wrongMode := rfl

/-! ## The oscillator: T40-2 to T40-4 -/

theorem test_lookupTieGoesUp : lookupIndex .exactReals (.ofRat (1 / 2)) = 1 := by decide +kernel
theorem test_lookupWraps : lookupIndex .exactReals (.ofRat (4095 / 2)) = 0 := by decide +kernel
theorem test_incrementOf440 : noteIncrement defaultParams 48000 69 = .ofRat (1408 / 75) := by
  decide +kernel
theorem test_advanceByMoreThanAPeriod :
    advancePhase .exactReals (.ofRat 1808) (.ofRat 5000) = .ofRat 664 := by decide +kernel

/-! ## Named reals: 10_state.md R30 and R33 with values that are no rationals -/

/-- A named volume that is not 0 gives its gain (44_parameter_snapshot.md R221), a named sustain level
is copied (R224). -/
theorem test_blockOfNamedValues (h : realNames.value 0 ≠ 0) :
    let x := snapshotOf defaultParams 1760
      { readySample with volumeDb := .named 0, sustainLevel := .named 1 }
    x.vol = ⟨[⟨[.gain .decibel (.named 0)], 0, 0, 1⟩]⟩ ∧ x.sus = ⟨0, [(1, 1)]⟩ :=
  ⟨if_neg (mt (Datum.isZero_iff (.named 0)).mp h), rfl⟩

/-- A named volume that is 0 gives the constant 1 in every number domain (R221). -/
theorem test_gainOfNamedZero (m : NumMode) (law : GainLaw) (h : realNames.value 0 = 0) :
    gainOfDecibels m law (.named 0) = m.ampLit 1 :=
  if_pos ((Datum.isZero_iff (.named 0)).mpr h)

/-- A named frequency of name 7 at 48000 Hz: the increment is 2048/48000 of it (R124). -/
theorem test_incrementOfNamedFrequency :
    noteIncrement { defaultParams with freq := Vector.replicate 128 ⟨0, 1, .named 7⟩ } 48000 69 =
      ⟨0, 16 / 375, .named 7⟩ := by
  decide +kernel

/-! ## States and operands that meet the hypotheses of the obligations -/

/-- `ready` with the two ends of every closed port range and the longest stage (R226 (e)). -/
def edge : State :=
  { ready with fs := 1000, ports := portsOf 0 1 4294967294 0 0 0 1, params := defaultParams }

def edgeSample : PortSample := sampleOf 0 1 4294967294 0 0 0 1

/-- A block in which every slot is occupied and the active list names none of them. -/
def full : State :=
  { open40 with voices := Vector.replicate 128 { resetVoice with velocity := 1 } }

theorem sounding_voice (i : Slot) : sounding.voice i = if i = 0 then sustained else resetVoice := by
  by_cases h : i = 0
  · subst h
    rfl
  · have h0 : (0 : Nat) ≠ i.toNat := fun e => h (BitVec.eq_of_toNat_eq e.symm)
    rw [if_neg h]
    simp [State.voice, sounding, State.reset, h0]

theorem sounding_activeList : sounding.activeList = [0] := by decide +kernel

theorem witness_sounding_poolInv : PoolInv sounding where
  countBound := by decide
  distinct := by rw [sounding_activeList]; decide
  activeOccupied := by
    intro i hi
    rw [sounding_activeList, List.mem_singleton] at hi
    rw [sounding_voice, if_pos hi]
    decide
  occupiedActive := by
    intro i hi
    rw [sounding_activeList, List.mem_singleton]
    by_contra h
    rw [sounding_voice, if_neg h] at hi
    exact hi rfl
  notesDistinct := by
    intro i hi k hk _
    rw [sounding_activeList, List.mem_singleton] at hi hk
    rw [hi, hk]

theorem sustained_voiceInv : VoiceInv sustained where
  attackPositive := by norm_num [sustained]
  levelNonneg := by norm_num [sustained]
  levelBound := by norm_num [sustained]
  sustainNonneg := by norm_num [sustained]
  sustainBound := by norm_num [sustained]
  releasedRange := fun h => nomatch h
  attackFits := by decide
  holdFits := by decide
  decayFits := by decide
  releaseFits := by decide
  index := rfl
  phaseNonneg := by norm_num [sustained]
  phaseBound := by norm_num [sustained]
  incrementPositive := by norm_num [sustained]
  phaseAdds := .inl rfl

/-- Every entry of the default table is positive. -/
theorem defaultFreq_pos (n : Nat) : 0 < (defaultFreq n).toReal := by
  rw [defaultFreq, Pitch.norm_real]
  have h : (0 : Rat) < if 0 ≤ ((n : Int) - 69) / 12 then 2 ^ (((n : Int) - 69) / 12).toNat
      else 1 / 2 ^ (-(((n : Int) - 69) / 12)).toNat := by
    split <;> positivity
  have h' := (Rat.cast_pos (K := ℝ)).mpr h
  rw [Generator.toReal]
  push_cast at h' ⊢
  rw [zero_add]
  exact mul_pos (mul_pos (by norm_num) h') (Real.rpow_pos_of_pos (by norm_num) _)

/-- The gain 1 is the real 1. -/
theorem ofRat_one_real : (Amp.ofRat 1).toReal = 1 := by
  simp [Amp.ofRat, ofTerms_real, Term.toReal]

theorem witness_sounding_engineInv : EngineInv sounding where
  pool := witness_sounding_poolInv
  voices := by
    intro i hi
    rw [sounding_activeList, List.mem_singleton] at hi
    rw [sounding_voice, if_pos hi]
    exact sustained_voiceInv
  cursor := by decide
  rate := fun _ => by decide
  snap := fun _ => ⟨by norm_num [sounding, open40, ofRat_one_real],
    by norm_num [sounding, open40], by norm_num [sounding, open40], by decide, by decide, by decide,
    by decide⟩
  outlCanonical := rfl
  outrCanonical := rfl
  frequencies := by
    intro n
    have : sounding.params.freq[n] = defaultFreq n.val := by
      simp [sounding, open40, ready, State.reset, defaultParams]
    rw [this]
    exact defaultFreq_pos n.val
  attackLevel := by norm_num [sounding, open40, ready, State.reset, defaultParams, Datum.toReal]
  exactNum := rfl

/-- DecodeOfEncodeReturnsTheCommand, EncodeOfDecodeReturnsTheWord. -/
theorem witness_wellFormedCommand : (Instr.noteOn 16 69 90).wellFormed = true ∧
    decode 0x3010455A00000010#64 = .ok (.noteOn 16 69 90) := by decide

/-- MalformedWordsAreClausesAToE: a word of each clause, as the host's next action. -/
theorem witness_malformedWords :
    (∃ e, decode 0xF000000000000001#64 = .error e) ∧ (∃ e, decode 0x4000000100000000#64 = .error e) ∧
    (∃ e, decode 0x4000000000000001#64 = .error e) ∧ (∃ e, decode 0x301045E400000000#64 = .error e) ∧
    (∃ e, decode 0x1000000000000000#64 = .error e) ∧
    ({ sounding with stream := [.command 0#64] } : State).stream = .command 0#64 :: [] :=
  ⟨⟨_, rfl⟩, ⟨_, rfl⟩, ⟨_, rfl⟩, ⟨_, rfl⟩, ⟨_, rfl⟩, rfl⟩

/-- StepRunsTheDecodedCommand. -/
theorem witness_pendingCommand :
    ({ ready with stream := [.command 0x2000000000000028#64] } : State).stream =
      .command 0x2000000000000028#64 :: [] ∧
    decode 0x2000000000000028#64 = .ok (.block 40) := ⟨rfl, rfl⟩

/-- HostActionsChangeOnlyTheirTarget, ResetInputEntersUninit, one pending action of each kind. -/
theorem witness_pendingHostActions :
    sounding.stream = [] ∧
    ({ sounding with stream := [.portWrite .panning (.finite (.named 3))] } : State).stream =
      .portWrite .panning (.finite (.named 3)) :: [] ∧
    (({ sounding with stream := [.outWrite .left 0 (Amp.ofRat 1)] } : State).outl.wf = true ∧
      ({ sounding with stream := [.outWrite .left 0 (Amp.ofRat 1)] } : State).stream =
        .outWrite .left 0 (Amp.ofRat 1) :: []) ∧
    (({ sounding with stream := [.outWrite .right 39 (Amp.ofRat 1)] } : State).outr.wf = true ∧
      ({ sounding with stream := [.outWrite .right 39 (Amp.ofRat 1)] } : State).stream =
        .outWrite .right 39 (Amp.ofRat 1) :: []) ∧
    ({ sounding with stream := [.reset] } : State).stream = .reset :: [] :=
  ⟨rfl, rfl, ⟨rfl, rfl⟩, ⟨rfl, rfl⟩, rfl⟩

/-- ConfigurationAndSampleRateAreImmutable, BuffersStayCanonical, EveryStepKeepsThePoolInvariant,
EveryStepKeepsTheEngineInvariant: a step that answers, from a state that sounds and has no reset
pending. -/
theorem witness_stepAnswers :
    (∃ t, step sounding = .next t) ∧ sounding.mode ≠ .uninit ∧
    (∀ rest, sounding.stream ≠ .reset :: rest) ∧ sounding.outl.wf = true ∧ sounding.outr.wf = true ∧
    PoolInv sounding ∧ EngineInv sounding :=
  ⟨⟨_, rfl⟩, by decide, (fun _ h => nomatch h), rfl, rfl, witness_sounding_poolInv,
    witness_sounding_engineInv⟩

/-- InitFreesAllVoicesAndGoesIdle: the lowest and the highest rate in UNINIT, and another mode. -/
theorem witness_initModes : (1 : Counter) ≠ 0 ∧ (4294967295 : Counter) ≠ 0 ∧
    State.reset.mode = .uninit ∧ ready.mode ≠ .uninit := by decide

/-- BlockLatchesSnapshotAndOpens, BlockLatchesTheRealValues: P2's ports, and the ends of the
ranges. -/
theorem witness_legalPorts :
    (ready.params.num = .exactReals ∧ ready.params.gainLaw = .decibel ∧ ready.mode = .idle ∧
      ready.ports.sample = some readySample ∧ readySample.legal ready.params.num = true ∧
      readySample.durationsFit ready.params.num ready.fs = true ∧ readySample.volumeDb = .rational 0) ∧
    (edge.params.num = .exactReals ∧ edge.mode = .idle ∧ edge.ports.sample = some edgeSample ∧
      edgeSample.legal edge.params.num = true ∧
      edgeSample.durationsFit edge.params.num edge.fs = true) := by
  decide +kernel

/-- BlockLatchesSnapshotAndOpens: P2's volume is the real 0. -/
theorem witness_zeroDecibels : readySample.volumeDb.toReal = 0 := by
  simp [readySample, sampleOf, Datum.toReal]

/-- BlockRefusesIllegalPorts: each clause, just past its bound, in exact arithmetic. -/
theorem witness_illegalPorts :
    (ready.mode = .idle ∧ ready.params.num = .exactReals ∧
      ∀ x, (ready.ports.set .volumeDb (.infinite true)).get .volumeDb ≠ .finite x) ∧
    (({ readySample with panning := .rational (1001 / 1000) }).legal .exactReals = false ∧
      (edgeSample.legal .exactReals = true ∧
        ({ edgeSample with attackMs := .rational 4294967295 }).durationsFit .exactReals edge.fs =
          false)) ∧
    ((ready.ports.set .panning (.finite (.rational (-1001 / 1000)))).panning =
        .finite (.rational (-1001 / 1000)) ∧ (Datum.rational (-1001 / 1000)).toReal < -1 ∧
      1 < (Datum.rational (1001 / 1000)).toReal) ∧
    ((ready.ports.set .sustainLevel (.finite (.rational (1001 / 1000)))).sustainLevel =
        .finite (.rational (1001 / 1000)) ∧ (Datum.rational (-1 / 1000)).toReal < 0) ∧
    ((ready.ports.set .releaseMs (.finite (.rational (-1 / 1000)))).get .releaseMs =
      .finite (.rational (-1 / 1000))) ∧
    (({ edge with ports := portsOf 0 1 4294967295 0 0 0 1 } : State).ports.sample =
        some { edgeSample with attackMs := .rational 4294967295 } ∧
      2 ^ 32 - 2 < ⌊(Datum.rational 4294967295).toReal * (1000 : ℝ) / 1000⌋) := by
  refine ⟨⟨rfl, rfl, (fun _ h => nomatch h)⟩, ⟨by decide +kernel, by decide +kernel,
    by decide +kernel⟩, ⟨rfl, ?_, ?_⟩, ⟨rfl, ?_⟩, rfl, by decide +kernel, ?_⟩
  all_goals norm_num [Datum.toReal]

/-- EndRendersTheRestOfTheBlock: elements just below `CUR` and at `BLEN`. -/
theorem witness_endOfBlock : ready.mode ≠ .inBlock ∧ sounding.mode = .inBlock ∧ sounding.ac.toNat ≤ 128 ∧
    (23 < sounding.cur.toNat ∧ sounding.blen.toNat ≤ 40) := by decide

/-- CommandsFollowTheModeMachine: a refused command and one that answers. -/
theorem witness_modes :
    decode 0x5000000000000000#64 = .error .reservedOp ∧
    ((Instr.block 40).wellFormed = true ∧ sounding.mode ≠ legalMode (.block 40)) ∧
    ∃ t, exec (.block 40) ready = .next t := by
  refine ⟨by decide, by decide, ?_⟩
  cases h : exec (.block 40) ready with
  | next t => exact ⟨t, rfl⟩
  | fault f =>
    have := test_block
    rw [h] at this
    exact nomatch this
  | refused r =>
    have := test_block
    rw [h] at this
    exact nomatch this

/-- NoteOffReleasesTheHeldNote: the note held and not held, at `CUR` and at `BLEN - 1`. -/
theorem witness_noteOff :
    (sounding.mode = .inBlock ∧ sounding.cur ≤ 24 ∧ (24 : Counter) < sounding.blen ∧
      sounding.ac.toNat ≤ 128 ∧ findActive 69 (advanceTo 24 sounding) = some (0, 0)) ∧
    (sounding.cur ≤ 39 ∧ (39 : Counter) < sounding.blen ∧
      findActive 70 (advanceTo 39 sounding) = none) := by
  decide +kernel

/-- NoteOnStartsAFreshVoice: the first and the last offset. -/
theorem witness_noteOnFresh :
    (open40.mode = .inBlock ∧ open40.cur ≤ 0 ∧ (0 : Counter) < open40.blen ∧ open40.ac.toNat ≤ 128 ∧
      (1 : Velocity) ≠ 0 ∧ findActive 69 (advanceTo 0 open40) = none ∧
      firstFree (advanceTo 0 open40) = some 0 ∧ (advanceTo 0 open40).ac.toNat < 128) ∧
    (sounding.mode = .inBlock ∧ sounding.cur ≤ 39 ∧ (39 : Counter) < sounding.blen ∧
      sounding.ac.toNat ≤ 128 ∧ (127 : Velocity) ≠ 0 ∧ findActive 127 (advanceTo 39 sounding) = none ∧
      firstFree (advanceTo 39 sounding) = some 1 ∧ (advanceTo 39 sounding).ac.toNat < 128) := by
  decide +kernel

/-- The voice of `sounding` is in SUSTAIN at every sample of its block. -/
theorem sounding_level : ((advanceTo 39 sounding).voice 0).envelopeLevel = .ofRat (1 / 2) ∧
    ((advanceTo 39 sounding).voice 0).attackLevel = .ofRat 1 := by decide +kernel

/-- NoteOnReattacksTheHeldNote: a voice in SUSTAIN, below full level. -/
theorem witness_noteOnReattack :
    (sounding.mode = .inBlock ∧ sounding.cur ≤ 39 ∧ (39 : Counter) < sounding.blen ∧
      sounding.ac.toNat ≤ 128 ∧ (90 : Velocity) ≠ 0 ∧
      findActive 69 (advanceTo 39 sounding) = some (0, 0) ∧ sounding.params.num = .exactReals) ∧
    0 < ((advanceTo 39 sounding).voice 0).attackLevel.toReal ∧
    0 ≤ ((advanceTo 39 sounding).voice 0).envelopeLevel.toReal ∧
    ((advanceTo 39 sounding).voice 0).envelopeLevel.toReal ≤
      ((advanceTo 39 sounding).voice 0).attackLevel.toReal := by
  refine ⟨by decide +kernel, ?_, ?_, ?_⟩
  all_goals norm_num [sounding_level.1, sounding_level.2]

/-- NoteOnWithNoFreeSlotIsDropped. -/
theorem witness_noFreeSlot :
    full.mode = .inBlock ∧ full.cur ≤ 0 ∧ (0 : Counter) < full.blen ∧ full.ac.toNat ≤ 128 ∧
    (1 : Velocity) ≠ 0 ∧ findActive 69 (advanceTo 0 full) = none ∧
    firstFree (advanceTo 0 full) = none := by
  decide +kernel

/-- NoteOnOfVelocityZeroFollowsThePolicy, NoteEventsCheckModeThenOffset: both policies, a wrong mode,
an offset below `CUR`, one at `BLEN`, one inside. -/
theorem witness_eventChecks :
    sounding.params.vel0Policy = .asNoteOff ∧
    ({ defaultParams with vel0Policy := .refuse } : Params).vel0Policy = .refuse ∧
    ready.mode ≠ .inBlock ∧ sounding.mode = .inBlock ∧
    (23 : Counter) < sounding.cur ∧ sounding.blen ≤ 40 ∧
    sounding.cur ≤ 24 ∧ (24 : Counter) < sounding.blen := by
  decide

/-- UnrecognisedEventsChangeNothing, NoteEventsWriteOnlyTheirSpanAndVoices,
PortsDoNotReachTheRunningBlock, NoteOffOfAnUnheldNoteIsInvisible, SoundingVoicesKeepTheirShape: note
events that answer, one of them for a note nobody holds, with later events at its own offset and at
the last; a NOTE_ON of the held note, whose slot 0 is not the free slot it would find. -/
theorem witness_noteEventsAnswer :
    sounding.mode = .inBlock ∧ legalMode (.noteOff 30 70 0) = .inBlock ∧
    (∃ t, exec (.noteOff 30 70 0) sounding = .next t) ∧
    (∃ t, exec (.noteOn 24 69 90) sounding = .next t) ∧
    findActive 70 (advanceTo 30 sounding) = none ∧ ((30 : Counter) ≤ 30 ∧ (30 : Counter) ≤ 39) ∧
    (∀ o n v, Instr.noteOff 30 70 0 ≠ .noteOn o n v) ∧
    firstFree (advanceTo 24 sounding) ≠ some 0 := by
  refine ⟨rfl, rfl, ⟨_, rfl⟩, ?_, by decide +kernel, by decide, (fun _ _ _ h => nomatch h),
    by decide +kernel⟩
  have h : nextAnd (exec (.noteOn 24 69 90) sounding) (fun _ => true) = true := by decide +kernel
  cases e : exec (.noteOn 24 69 90) sounding with
  | next t => exact ⟨t, rfl⟩
  | fault f => rw [e] at h; exact nomatch h
  | refused r => rw [e] at h; exact nomatch h

/-- RenderSampleTicksEachActiveVoiceOnce, OutputSampleSumsInListOrder, OutputSampleIsTheRealMix,
RenderLeavesTheRestUnchanged: one voice in the list, others not. -/
theorem witness_renderOneVoice :
    sounding.params.num = .exactReals ∧ sounding.activeList.Nodup ∧ sounding.outl.wf = true ∧
    sounding.outr.wf = true ∧ (0 : Slot) ∈ sounding.activeList ∧ (1 : Slot) ∉ sounding.activeList := by
  rw [sounding_activeList]
  exact ⟨rfl, by decide, rfl, rfl, by decide, by decide⟩

/-- SpansCompose, EmptyPoolRendersSilence. -/
theorem witness_silentSpan : (24 ≤ 24 ∧ 24 ≤ 40) ∧ open40.ac = 0 ∧ open40.outl.wf = true ∧
    open40.outr.wf = true := by decide

/-- The five ticks, before and on the crossing: T41-7 a, b, f, g, h, i, j, m, o. -/
theorem witness_ticks :
    (sustained.status = .sustain ∧ released.status = .release) ∧
    (({ sustained with status := .attack, envelopeIndex := 7 } : Voice).envelopeIndex.toNat + 1 ≤
        sustained.attackDuration.toNat ∧
      sustained.attackDuration.toNat <
        ({ sustained with status := .attack, envelopeIndex := 8 } : Voice).envelopeIndex.toNat + 1) ∧
    (({ sustained with status := .hold, envelopeIndex := 2 } : Voice).envelopeIndex.toNat + 1 ≤
        sustained.holdDuration.toNat ∧
      sustained.holdDuration.toNat <
        ({ sustained with status := .hold, envelopeIndex := 3 } : Voice).envelopeIndex.toNat + 1) ∧
    (({ sustained with status := .decay, envelopeIndex := 4 } : Voice).envelopeIndex.toNat + 1 ≤
        sustained.decayDuration.toNat ∧
      sustained.decayDuration.toNat <
        ({ sustained with status := .decay, envelopeIndex := 5 } : Voice).envelopeIndex.toNat + 1 ∧
      0 < sustained.sustainLevel.toReal ∧
      ({ sustained with sustainLevel := .ofRat 0 } : Voice).sustainLevel.toReal = 0) ∧
    (({ released with envelopeIndex := 4 } : Voice).envelopeIndex.toNat + 1 ≤
        released.releaseDuration.toNat ∧
      released.releaseDuration.toNat <
        ({ released with envelopeIndex := 5 } : Voice).envelopeIndex.toNat + 1 ∧
      ({ released with envelopeIndex := 5 } : Voice).envelopeIndex.toNat + 1 < 2 ^ 32) := by
  refine ⟨by decide, by decide, by decide, ⟨by decide, by decide, ?_, ?_⟩, by decide⟩
  all_goals norm_num [sustained]

/-- AttackLastsDurationPlusOneTicks, FreshVoiceReachesSustainOnTime (a positive sustain level and
a zero one), ReleaseRetiresAfterDurationPlusOneTicks, ZeroDurationsReachSustainInTwoTicks. -/
theorem witness_freshVoices :
    (({ sustained with status := .attack } : Voice).status = .attack ∧
      ({ sustained with status := .attack } : Voice).envelopeIndex = 0 ∧ sustained.velocity ≠ 0 ∧
      0 < sustained.sustainLevel.toReal) ∧
    (({ sustained with status := .attack, sustainLevel := .ofRat 0 } : Voice).status = .attack ∧
      ({ sustained with status := .attack, sustainLevel := .ofRat 0 } : Voice).velocity ≠ 0 ∧
      ({ sustained with status := .attack, sustainLevel := .ofRat 0 } : Voice).sustainLevel.toReal =
        0) ∧
    (released.status = .release ∧ released.envelopeIndex = 0 ∧ released.velocity ≠ 0) ∧
    (resetVoice.status = .attack ∧ resetVoice.envelopeIndex = 0 ∧ resetVoice.attackDuration = 0 ∧
      resetVoice.holdDuration = 0 ∧ resetVoice.decayDuration = 0 ∧
      0 < ({ resetVoice with sustainLevel := .ofRat (1 / 2) } : Voice).sustainLevel.toReal) := by
  refine ⟨⟨rfl, rfl, by decide, ?_⟩, ⟨rfl, by decide, ?_⟩, by decide, rfl, rfl, rfl, rfl, rfl, ?_⟩
  all_goals norm_num [sustained]

/-- FreshVoiceReachesSustainOnTime: with a zero sustain level the voice is there one tick before it
retires, and retires on the tick that the statement names. -/
theorem test_zeroSustainRetires :
    let v : Voice := { sustained with
      status := .attack, attackDuration := 1, holdDuration := 0, decayDuration := 1
      sustainLevel := .ofRat 0 }
    (ticks .exactReals 3 v).velocity = 100 ∧ (ticks .exactReals 4 v).velocity = 0 := by
  decide +kernel

/-- TickKeepsTheVoiceRanges, ReattackIsContinuous: below full level, and at full level. -/
theorem witness_voiceRanges : VoiceInv sustained ∧
    (0 < sustained.attackLevel.toReal ∧ 0 ≤ sustained.envelopeLevel.toReal ∧
      sustained.envelopeLevel.toReal ≤ sustained.attackLevel.toReal) ∧
    ((envReattack .exactReals sustained).envelopeIndex.toNat < sustained.attackDuration.toNat ∧
      (envReattack .exactReals { sustained with envelopeLevel := .ofRat 1 }).envelopeIndex.toNat =
        sustained.attackDuration.toNat) :=
  ⟨sustained_voiceInv, ⟨sustained_voiceInv.attackPositive, sustained_voiceInv.levelNonneg,
    sustained_voiceInv.levelBound⟩, by decide +kernel⟩

/-- WavetableIsTheSine, NoteIncrementIsFrequencyOverRate, DefaultFrequenciesAreEqualTempered,
PanGainsHaveConstantPower. -/
theorem witness_tables : 2047 < 2048 ∧ 127 < 128 ∧ defaultParams.num = .exactReals ∧
    (1 : Counter) ≠ 0 ∧ readySample.legal .exactReals = true ∧
    edgeSample.legal .exactReals = true := by
  decide +kernel

/-- AllocateTakesTheLowestFreeSlot, RetireRemovesOneEntry, UnheldNoteAlwaysFindsAFreeSlot,
NoStepFaultsUnderThePoolInvariant. -/
theorem witness_pool : sounding.ac.toNat < 128 ∧ sounding.ac.toNat ≤ 128 ∧ 0 < sounding.ac.toNat ∧
    PoolInv sounding ∧ findActive 70 sounding = none :=
  ⟨by decide, by decide, by decide, witness_sounding_poolInv, by decide +kernel⟩

end Sys2Proof.Tests
end

section
/-! Amplitudes and pitches over the reals (00_scope.md R8, R14). -/

namespace Sys2Proof

@[simp] theorem Amp.add_real (a b : Amp) : (a.add b).toReal = a.toReal + b.toReal :=
  foldr_insert_real a.terms b.terms

/-- A product is summed term by term: distributivity over both lists. -/
@[simp] theorem Amp.mul_real (a b : Amp) : (a.mul b).toReal = a.toReal * b.toReal := by
  have row (t : Term) : ((b.terms.flatMap (mulTerm t)).map Term.toReal).sum = t.toReal * b.toReal := by
    rw [sum_flatMap _ _ (mulTerm_real t), List.sum_map_mul_left, Amp.toReal]
  rw [Amp.mul, ofTerms_real, sum_flatMap _ _ row, List.sum_map_mul_right, ← Amp.toReal]

/-- A term of no power of ten and no cosine is its coefficient times its factors. -/
theorem Term.plain_real (fs : List Factor) (c : Rat) :
    (Term.mk fs 0 0 c).toReal = (fs.map Factor.toReal).prod * c := by
  simp [Term.toReal]

@[simp] theorem Amp.ofRat_real (q : Rat) : (Amp.ofRat q).toReal = q := by
  simp [Amp.ofRat, ofTerms_real, Term.plain_real]

/-- The rational part and each named part of a level become one term each. -/
@[simp] theorem Amp.ofScalar_real (x : Scalar) : (Amp.ofScalar x).toReal = x.toReal := by
  have part (p : Nat × Rat) :
      (Term.mk [.named p.1] 0 0 p.2).toReal = (p.2 : ℝ) * realNames.value p.1 := by
    simp [Term.plain_real, Factor.toReal, mul_comm]
  simp [Amp.ofScalar, ofTerms_real, Term.plain_real, part, Scalar.toReal_eq, partsReal,
    Function.comp_def]

/-- Over the common denominator the floor of a real quotient is an integer quotient. -/
theorem floorWithRoot_real (rat coef : Rat) (k : Nat) :
    floorWithRoot rat coef k = ⌊(rat : ℝ) + coef * (2 : ℝ) ^ ((k : ℝ) / 12)⌋ := by
  have common : (rat : ℝ) + coef * (2 : ℝ) ^ ((k : ℝ) / 12) =
      (((rat.num * coef.den : ℤ) : ℝ) + ((coef.num * rat.den : ℤ) : ℝ) * (2 : ℝ) ^ ((k : ℝ) / 12)) /
        ((rat.den * coef.den : ℕ) : ℝ) := by
    have hr : (rat.den : ℝ) ≠ 0 := Nat.cast_ne_zero.mpr rat.den_nz
    have hc : (coef.den : ℝ) ≠ 0 := Nat.cast_ne_zero.mpr coef.den_nz
    rw [Rat.cast_def rat, Rat.cast_def coef]
    push_cast
    field_simp
  rw [common, Int.floor_div_natCast, Int.floor_intCast_add, ← floorTimesRoot_spec, Nat.cast_mul]
  rfl

theorem Pitch.floor_real (x : Pitch) : x.floor = ⌊x.toReal⌋ := by
  obtain ⟨rat, coef, gen⟩ := x
  cases gen with
  | root k => exact floorWithRoot_real rat coef k
  | named n =>
    calc Scalar.floor ⟨rat, addPart (n, coef) []⟩
        = ⌊(rat : ℝ) + partsReal (addPart (n, coef) [])⌋ := Scalar.floor_real _
      _ = ⌊(rat : ℝ) + coef * realNames.value n⌋ := by
        rw [addPart_real]
        simp [partsReal]

/-- The octave factor of `defaultFreq` is the integer power of two. -/
theorem octaveFactor_real (q : Int) :
    ((if 0 ≤ q then 2 ^ q.toNat else 1 / 2 ^ (-q).toNat : Rat) : ℝ) = (2 : ℝ) ^ q := by
  cases q with
  | ofNat n => simp
  | negSucc n => simp [zpow_negSucc]

/-- The distance from A4 in semitones is its octaves and the rest below twelve. -/
theorem defaultFreq_real (n : Nat) :
    (defaultFreq n).toReal = 440 * (2 : ℝ) ^ (((n : ℝ) - 69) / 12) := by
  have hdiv : 12 * (((n : Int) - 69) / 12) + (((n : Int) - 69) % 12).toNat = (n : Int) - 69 := by
    omega
  have hlt : (((n : Int) - 69) % 12).toNat < 12 := by omega
  unfold defaultFreq
  dsimp only
  generalize ((n : Int) - 69) / 12 = q at hdiv ⊢
  generalize (((n : Int) - 69) % 12).toNat = r at hdiv hlt ⊢
  have hexp : ((n : ℝ) - 69) / 12 = (q : ℝ) + (r : ℝ) / 12 := by
    have : 12 * (q : ℝ) + r = (n : ℝ) - 69 := by exact_mod_cast hdiv
    linarith
  rw [Pitch.norm_real, hexp, Real.rpow_add (by norm_num), Real.rpow_intCast, Rat.cast_mul,
    octaveFactor_real, Generator.toReal, Fin.val_ofNat, Nat.mod_eq_of_lt hlt]
  push_cast
  ring

/-- Settles O46: sums by insertion term by term, products by distributivity. -/
theorem amplitudeArithmeticIsExact : Obligations.AmplitudeArithmeticIsExact :=
  fun a b x q => ⟨Amp.add_real a b, Amp.mul_real a b, Amp.ofScalar_real x, Amp.ofRat_real q⟩

/-- Settles O47, by the two kinds of generator. -/
theorem pitchFloorIsTheRealFloor : Obligations.PitchFloorIsTheRealFloor :=
  Pitch.floor_real

/-- Settles O51, for every note number at once. -/
theorem defaultFrequenciesAreEqualTempered : Obligations.DefaultFrequenciesAreEqualTempered := by
  intro n h
  rw [defaultParams, Vector.getElem_ofFn]
  exact defaultFreq_real n

end Sys2Proof
end

section
/-! The pool invariant along a rendered span, and the model's fault (10_state.md R27, entry 19). -/

namespace Sys2Proof.Machine

/-! ## INV1: the number of active voices -/

theorem retire_ac_le (j : Nat) (s : State) : (retire j s).ac.toNat ≤ 128 := by
  have hlen : (s.activeList.eraseIdx j).length ≤ 128 := by
    have := List.length_eraseIdx_le (l := s.activeList) (i := j)
    have := activeList_length s
    omega
  rw [retire, setActive_ac, BitVec.toNat_ofNat]
  omega

theorem mixVoices_ac_le (rest : List Slot) (j : Nat) (accL accR : Amp) {s : State}
    (h : s.ac.toNat ≤ 128) : (mixVoices rest j accL accR s).2.ac.toNat ≤ 128 := by
  induction rest generalizing j accL accR s with
  | nil => exact h
  | cons i rest ih =>
    rw [mixVoices_cons]
    dsimp only
    split
    · exact ih _ _ _ (retire_ac_le _ _)
    · exact ih _ _ _ h

/-! ## One sample, then a span -/

section
variable {s : State} (hs : PoolInv s)
include hs

theorem PoolInv.renderSample_voice (k : Nat) (i : Slot) :
    (renderSample k s).voice i =
      if i ∈ s.activeList then (voiceTick s.params.num s.snap (s.voice i)).2 else s.voice i :=
  mixVoices_voice _ hs.distinct _ _ _ _ _

theorem PoolInv.renderSample_activeList (k : Nat) :
    (renderSample k s).activeList = s.activeList.filter fun i =>
      !(voiceTick s.params.num s.snap (s.voice i)).2.isFree :=
  mixVoices_activeList s.activeList hs.distinct [] _ _ s rfl

/-- A slot is active after a sample exactly if it was, and the tick did not free its voice. -/
theorem PoolInv.mem_renderSample_activeList (k : Nat) (i : Slot) :
    i ∈ (renderSample k s).activeList ↔
      i ∈ s.activeList ∧ (voiceTick s.params.num s.snap (s.voice i)).2.velocity ≠ 0 := by
  rw [hs.renderSample_activeList]
  simp [Voice.isFree]

/-- A sample keeps INV1 to INV5: it retires exactly the voices it frees. -/
theorem PoolInv.after_sample (k : Nat) : PoolInv (renderSample k s) where
  countBound := mixVoices_ac_le _ _ _ _ hs.countBound
  distinct := by
    rw [hs.renderSample_activeList]
    exact hs.distinct.filter _
  activeOccupied i hi := by
    obtain ⟨hmem, hvel⟩ := (hs.mem_renderSample_activeList k i).mp hi
    rwa [hs.renderSample_voice, if_pos hmem]
  occupiedActive i hi := by
    rw [hs.renderSample_voice] at hi
    split at hi
    · rename_i hmem
      exact (hs.mem_renderSample_activeList k i).mpr ⟨hmem, hi⟩
    · rename_i hmem
      exact absurd (hs.occupiedActive i hi) hmem
  notesDistinct i hi n hn hnote := by
    obtain ⟨hi, -⟩ := (hs.mem_renderSample_activeList k i).mp hi
    obtain ⟨hn, -⟩ := (hs.mem_renderSample_activeList k n).mp hn
    rw [hs.renderSample_voice, hs.renderSample_voice, if_pos hi, if_pos hn,
      (voiceTick_frame _ _ _).1.note, (voiceTick_frame _ _ _).1.note] at hnote
    exact hs.notesDistinct i hi n hn hnote

/-- The pool invariant reads the voices, `AL` and `AC` only. -/
theorem PoolInv.of_same_pool {t : State} (hv : t.voices = s.voices) (hl : t.al = s.al)
    (ha : t.ac = s.ac) : PoolInv t := by
  obtain ⟨hcount, hdistinct, hoccupied, hactive, hnotes⟩ := hs
  constructor <;> simpa only [State.activeList, State.voice, hv, hl, ha]

/-- EVENT_ADVANCE's span keeps INV1 to INV5. -/
theorem PoolInv.after_advance (offset : Counter) : PoolInv (advanceTo offset s) :=
  (render_keeps (fun k _ h => h.after_sample k) _ _ _ hs).of_same_pool rfl rfl rfl

theorem PoolInv.activeInRange : s.activeInRange = true :=
  decide_eq_true hs.countBound

/-- A free slot is no entry of the list, so the list is shorter than the 128 slots. -/
theorem PoolInv.room_of_free {i : Slot} (hi : (s.voice i).velocity = 0) : s.ac.toNat < 128 := by
  have hmem : i ∉ s.activeList := fun h => hs.activeOccupied i h hi
  have hsub : (i :: s.activeList).length ≤ allSlots.length :=
    ((List.nodup_cons.mpr ⟨hmem, hs.distinct⟩).subperm fun k _ => mem_allSlots k).length_le
  have hall : allSlots.length = 128 := by simp [allSlots]
  have := activeList_length s
  rw [List.length_cons] at hsub
  omega

end

/-! ## Where a fault can come from -/

/-- NOTE_ON's own fault: a free slot, and no room in the list (entry 19). -/
theorem noteOnApply_fault {note : Note} {vel : Velocity} {s : State} {f : Fault}
    (h : noteOnApply note vel s = .fault f) : ∃ i, firstFree s = some i ∧ ¬ s.ac.toNat < 128 := by
  unfold noteOnApply at h
  split at h
  · cases h
  · split at h
    · cases h
    · rename_i i hfree
      split at h
      · cases h
      · rename_i hroom
        exact ⟨i, hfree, hroom⟩

/-- The fault of an event is the range of `AC` or the event's own. -/
theorem afterAdvance_fault {offset : Counter} {event : State → Host.Outcome State Fault Refusal}
    {s : State} {f : Fault} (h : afterAdvance offset event s = .fault f) :
    s.activeInRange = false ∨ event (advanceTo offset s) = .fault f := by
  unfold afterAdvance at h
  split at h
  · cases h
  · split at h
    · exact .inr h
    · rename_i ha
      exact .inl (Bool.eq_false_iff.mpr ha)

theorem execInit_ne_fault (fs : Counter) (s : State) (f : Fault) : execInit fs s ≠ .fault f := by
  unfold execInit
  split
  · exact nofun
  · split <;> exact nofun

theorem execBlock_ne_fault (n : Counter) (s : State) (f : Fault) : execBlock n s ≠ .fault f := by
  unfold execBlock
  split
  · exact nofun
  · split <;> exact nofun

theorem ignoreEvent_ne_fault (s : State) (f : Fault) : ignoreEvent s ≠ .fault f := by
  unfold ignoreEvent
  split <;> exact nofun

section
variable {s : State} (hs : PoolInv s)
include hs

theorem PoolInv.noteOnApply_ne_fault (note : Note) (vel : Velocity) (f : Fault) :
    noteOnApply note vel s ≠ .fault f := by
  intro h
  obtain ⟨i, hfree, hfull⟩ := noteOnApply_fault h
  exact hfull (hs.room_of_free (firstFree_some hfree))

/-- EVENT_ADVANCE adds no fault to an event that has none after the span. -/
theorem PoolInv.afterAdvance_ne_fault {offset : Counter}
    {event : State → Host.Outcome State Fault Refusal} {f : Fault}
    (hevent : ∀ t, PoolInv t → event t ≠ .fault f) : afterAdvance offset event s ≠ .fault f := by
  intro h
  rcases afterAdvance_fault h with hrange | hfault
  · exact Bool.eq_false_iff.mp hrange hs.activeInRange
  · exact hevent _ (hs.after_advance offset) hfault

theorem PoolInv.execNoteOff_ne_fault (offset : Counter) (note : Note) (vel : Velocity) (f : Fault) :
    execNoteOff offset note vel s ≠ .fault f :=
  hs.afterAdvance_ne_fault fun _ _ => nofun

theorem PoolInv.execNoteOn_ne_fault (offset : Counter) (note : Note) (vel : Velocity) (f : Fault) :
    execNoteOn offset note vel s ≠ .fault f := by
  unfold execNoteOn
  split
  · split
    · exact nofun
    · exact hs.afterAdvance_ne_fault fun _ _ => nofun
  · exact hs.afterAdvance_ne_fault fun _ ht => ht.noteOnApply_ne_fault note vel f

theorem PoolInv.execEnd_ne_fault (f : Fault) : execEnd s ≠ .fault f := by
  unfold execEnd
  rw [if_pos hs.activeInRange]
  split <;> exact nofun

theorem PoolInv.exec_ne_fault (i : Instr) (f : Fault) : exec i s ≠ .fault f := by
  cases i with
  | init fs => exact execInit_ne_fault fs s f
  | block n => exact execBlock_ne_fault n s f
  | noteOff offset note vel => exact hs.execNoteOff_ne_fault offset note vel f
  | noteOn offset note vel => exact hs.execNoteOn_ne_fault offset note vel f
  | endBlock => exact hs.execEnd_ne_fault f
  | _ => exact ignoreEvent_ne_fault s f

theorem PoolInv.hostAction_ne_fault (a : HostAction) (f : Fault) : hostAction a s ≠ .fault f := by
  cases a with
  | command w =>
    show command w s ≠ .fault f
    unfold command
    split
    · exact hs.exec_ne_fault _ f
    · exact nofun
  | _ => exact nofun

end

/-- Settles O60: a span keeps INV1 to INV5, so a NOTE_ON that finds a free slot finds room in the
list. -/
theorem noStepFaultsUnderThePoolInvariant : Obligations.NoStepFaultsUnderThePoolInvariant := by
  intro s f hs
  unfold step
  split
  · exact nofun
  · rename_i a rest _
    have htaken : PoolInv (s.setStream rest) := hs.of_same_pool rfl rfl rfl
    exact htaken.hostAction_ne_fault a f

end Sys2Proof.Machine
end

section
/-! What the host's own actions do, and what no step changes (10_state.md R30, R37, 20_memory.md R64,
R68, 43_block_renderer.md R190). -/

namespace Sys2Proof.Machine

/-! ## Host actions -/

theorem step_of_no_action {s : State} (h : s.stream = []) : step s = .next s := by
  simp [step, h]

theorem step_of_action {s : State} {a : HostAction} {rest : List HostAction}
    (h : s.stream = a :: rest) : step s = hostAction a (s.setStream rest) := by
  simp [step, h]

/-- Reading the ports after a write is the pointwise update of reading them before it. -/
theorem Ports.get_set (p : Ports) (port : PortName) (x : PortValue) :
    (p.set port x).get = Function.update p.get port x := by
  funext q
  cases port <;> cases q <;> rfl

/-- Settles O7: a step that takes a host action is that action, and each write is read back at its
own port or element and nowhere else. -/
theorem hostActionsChangeOnlyTheirTarget : Obligations.HostActionsChangeOnlyTheirTarget := by
  refine ⟨fun s => step_of_no_action, fun s rest port x h => ?port, fun s rest k x hwf h => ?left,
    fun s rest k x hwf h => ?right⟩
  case port =>
    refine ⟨_, step_of_action h, rfl, ?_, fun q hq => ?_⟩
    · exact (congrFun (Ports.get_set s.ports port x) port).trans (Function.update_self ..)
    · exact (congrFun (Ports.get_set s.ports port x) q).trans (Function.update_of_ne hq ..)
  case left =>
    exact ⟨_, step_of_action h, rfl, Memory.read_write_same s.outl k.toNat x hwf,
      fun n hn => Memory.read_write_ne s.outl x hn⟩
  case right =>
    exact ⟨_, step_of_action h, rfl, Memory.read_write_same s.outr k.toNat x hwf,
      fun n hn => Memory.read_write_ne s.outr x hn⟩

/-! ## The note events write the pool only -/

theorem setVoice_same (s : State) (i : Slot) (v : Voice) : SameOutside s (s.setVoice i v) :=
  ⟨rfl, rfl, rfl, rfl, rfl, rfl, rfl⟩

theorem noteOffApply_same (note : Note) (s : State) : SameOutside s (noteOffApply note s) := by
  obtain ⟨i, j, -, h⟩ | ⟨-, h⟩ := noteOffApply_cases note s
  · rw [h]
    exact setVoice_same s i _
  · rw [h]
    exact SameOutside.refl s

theorem noteOnFresh_append_same (i : Slot) (note : Note) (vel : Velocity) (s : State) :
    SameOutside s (noteOnFresh i note vel (appendActive i s)) :=
  ⟨rfl, rfl, rfl, rfl, rfl, rfl, rfl⟩

theorem noteOnApply_same {note : Note} {vel : Velocity} {s t : State}
    (h : noteOnApply note vel s = .next t) : SameOutside s t := by
  obtain ⟨i, j, -, rfl⟩ | ⟨-, -, rfl⟩ | ⟨i, -, -, -, rfl⟩ := noteOnApply_next h
  · exact setVoice_same s i _
  · exact SameOutside.refl _
  · exact noteOnFresh_append_same i note vel s

theorem execNoteOff_same {offset : Counter} {note : Note} (vel : Velocity) {s t : State}
    (h : execNoteOff offset note vel s = .next t) : SameOutside s t := by
  obtain ⟨-, -, rfl⟩ := execNoteOff_next h
  exact (advanceTo_same offset s).1.trans (noteOffApply_same note _)

theorem execNoteOn_same {offset : Counter} {note : Note} {vel : Velocity} {s t : State}
    (h : execNoteOn offset note vel s = .next t) : SameOutside s t := by
  obtain ⟨-, -, ⟨-, rfl⟩ | ⟨-, happly⟩⟩ := execNoteOn_next h
  · exact (advanceTo_same offset s).1.trans (noteOffApply_same note _)
  · exact (advanceTo_same offset s).1.trans (noteOnApply_same happly)

/-! ## The configuration and the sample rate -/

/-- `t` has the configuration of `s`, and its `FS` too if `s` is initialised. -/
def KeepsConfigurationAndRate (s t : State) : Prop :=
  t.params = s.params ∧ (s.mode ≠ .uninit → t.fs = s.fs)

theorem SameOutside.keepsConfigurationAndRate {s t : State} (h : SameOutside s t) :
    KeepsConfigurationAndRate s t :=
  ⟨h.params, fun _ => h.fs⟩

/-- INIT is the one command that writes `FS`, and it answers in UNINIT only (R190). -/
theorem exec_keepsConfigurationAndRate {i : Instr} {s t : State} (h : exec i s = .next t) :
    KeepsConfigurationAndRate s t := by
  cases i with
  | init fs =>
    obtain ⟨-, hmode, rfl⟩ := execInit_next h
    exact ⟨rfl, fun hinit => absurd hmode hinit⟩
  | block n =>
    obtain ⟨-, x, -, rfl⟩ := execBlock_next h
    exact ⟨rfl, fun _ => rfl⟩
  | noteOff offset note vel => exact (execNoteOff_same vel h).keepsConfigurationAndRate
  | noteOn offset note vel => exact (execNoteOn_same h).keepsConfigurationAndRate
  | endBlock =>
    obtain ⟨-, -, rfl⟩ := execEnd_next h
    exact (advanceTo_same s.blen s).1.keepsConfigurationAndRate
  | _ =>
    obtain ⟨-, rfl⟩ := ignoreEvent_next h
    exact (SameOutside.refl _).keepsConfigurationAndRate

/-- Settles O15, by what a step can do: a command keeps both, a host write touches neither, and RST
keeps the configuration. -/
theorem configurationAndSampleRateAreImmutable :
    Obligations.ConfigurationAndSampleRateAreImmutable := by
  intro s t h
  obtain ⟨-, rfl⟩ | ⟨w, rest, i, -, -, hexec⟩ | ⟨port, x, rest, -, rfl⟩ | ⟨c, k, x, rest, -, rfl⟩ |
    ⟨rest, hreset, rfl⟩ := step_next h
  · exact ⟨rfl, fun _ _ => rfl⟩
  · obtain ⟨hparams, hfs⟩ := exec_keepsConfigurationAndRate hexec
    exact ⟨hparams, fun hinit _ => hfs hinit⟩
  · exact ⟨rfl, fun _ _ => rfl⟩
  · cases c <;> exact ⟨rfl, fun _ _ => rfl⟩
  · exact ⟨rfl, fun _ hnone => absurd hreset (hnone rest)⟩

end Sys2Proof.Machine
end

section
/-! The order of commands and the canonical form of the output buffers (20_memory.md R64, R67, entry
14). -/

namespace Sys2Proof.Machine

/-! ## The pending word -/

theorem step_of_command {s : State} {w : CommandWord} {rest : List HostAction} {i : Instr}
    (hs : s.stream = .command w :: rest) (hi : decode w = .ok i) :
    step s = exec i (s.setStream rest) := by
  calc step s = command w (s.setStream rest) := step_of_action hs
    _ = exec i (s.setStream rest) := by simp only [command, hi]

/-- A word of 64 bits is put before the pending actions as it is. -/
theorem withFetchWord_stream (s : State) (w : CommandWord) :
    (s.withFetchWord 64 w.toNat).stream = .command w :: s.stream := by
  have hword : BitVec.ofNat 64 (w.toNat % 2 ^ 64) = w := by
    rw [Nat.mod_eq_of_lt w.isLt, BitVec.ofNat_toNat, BitVec.setWidth_eq]
  rw [State.withFetchWord, setStream_stream, hword]

/-- Taking the placed word off again gives the machine before it was placed. -/
theorem withFetchWord_setStream (s : State) (nbits w : Nat) :
    (s.withFetchWord nbits w).setStream s.stream = s := rfl

/-- Settles O6: the pending word is the host action that the step takes. -/
theorem stepRunsTheDecodedCommand : Obligations.StepRunsTheDecodedCommand := by
  refine ⟨fun s w rest i => step_of_command, fun s w i hi => ?_⟩
  have hstep := step_of_command (withFetchWord_stream s w) hi
  rwa [withFetchWord_setStream] at hstep

/-! ## The output buffers -/

/-- Both output buffers are in the canonical form. -/
def BuffersCanonical (s : State) : Prop := s.outl.wf = true ∧ s.outr.wf = true

/-- The note events write no buffer: only the span before them does. -/
theorem noteOffApply_buffers (note : Note) (s : State) :
    (noteOffApply note s).outl = s.outl ∧ (noteOffApply note s).outr = s.outr := by
  obtain ⟨i, j, -, h⟩ | ⟨-, h⟩ := noteOffApply_cases note s
  · rw [h]
    exact ⟨rfl, rfl⟩
  · rw [h]
    exact ⟨rfl, rfl⟩

theorem noteOnApply_buffers {note : Note} {vel : Velocity} {s t : State}
    (h : noteOnApply note vel s = .next t) : t.outl = s.outl ∧ t.outr = s.outr := by
  obtain ⟨i, j, -, rfl⟩ | ⟨-, -, rfl⟩ | ⟨i, -, -, -, rfl⟩ := noteOnApply_next h <;>
    exact ⟨rfl, rfl⟩

section
variable {s : State} (hs : BuffersCanonical s)
include hs

theorem BuffersCanonical.of_same_buffers {t : State} (h : t.outl = s.outl ∧ t.outr = s.outr) :
    BuffersCanonical t := by
  obtain ⟨hl, hr⟩ := h
  rwa [BuffersCanonical, hl, hr]

theorem BuffersCanonical.after_advance (offset : Counter) : BuffersCanonical (advanceTo offset s) :=
  render_wf (offset.toNat - s.cur.toNat) s.cur.toNat s hs.1 hs.2

theorem BuffersCanonical.after_hostOutWrite (c : Channel) (k : Counter) (x : Amp) :
    BuffersCanonical (s.hostOutWrite c k x) := by
  obtain ⟨hl, hr⟩ := hs
  cases c with
  | left => exact ⟨Memory.write_wf s.outl k.toNat x hl, hr⟩
  | right => exact ⟨hl, Memory.write_wf s.outr k.toNat x hr⟩

theorem BuffersCanonical.after_noteOff {offset : Counter} {note : Note} (vel : Velocity) {t : State}
    (h : execNoteOff offset note vel s = .next t) : BuffersCanonical t := by
  obtain ⟨-, -, rfl⟩ := execNoteOff_next h
  exact (hs.after_advance offset).of_same_buffers (noteOffApply_buffers note _)

theorem BuffersCanonical.after_noteOn {offset : Counter} {note : Note} {vel : Velocity} {t : State}
    (h : execNoteOn offset note vel s = .next t) : BuffersCanonical t := by
  obtain ⟨-, -, ⟨-, rfl⟩ | ⟨-, happly⟩⟩ := execNoteOn_next h
  · exact (hs.after_advance offset).of_same_buffers (noteOffApply_buffers note _)
  · exact (hs.after_advance offset).of_same_buffers (noteOnApply_buffers happly)

/-- Only the commands that render a span write the buffers. -/
theorem BuffersCanonical.after_exec {i : Instr} {t : State} (h : exec i s = .next t) :
    BuffersCanonical t := by
  cases i with
  | init fs =>
    obtain ⟨-, -, rfl⟩ := execInit_next h
    exact hs
  | block n =>
    obtain ⟨-, x, -, rfl⟩ := execBlock_next h
    exact hs
  | noteOff offset note vel => exact hs.after_noteOff vel h
  | noteOn offset note vel => exact hs.after_noteOn h
  | endBlock =>
    obtain ⟨-, -, rfl⟩ := execEnd_next h
    exact hs.after_advance s.blen
  | _ =>
    obtain ⟨-, rfl⟩ := ignoreEvent_next h
    exact hs

end

/-- Settles O33, by what a step can do: the span of a command and a buffer write of the host keep the
form, and everything else leaves the buffers alone. -/
theorem buffersStayCanonical : Obligations.BuffersStayCanonical := by
  intro s t hl hr h
  have hs : BuffersCanonical s := ⟨hl, hr⟩
  obtain ⟨-, rfl⟩ | ⟨w, rest, i, -, -, hexec⟩ | ⟨port, x, rest, -, rfl⟩ | ⟨c, k, x, rest, -, rfl⟩ |
    ⟨rest, -, rfl⟩ := step_next h
  · exact hs
  · have htaken : BuffersCanonical (s.setStream rest) := hs
    exact htaken.after_exec hexec
  · exact hs
  · have htaken : BuffersCanonical (s.setStream rest) := hs
    exact htaken.after_hostOutWrite c k x
  · exact hs

end Sys2Proof.Machine
end

section
/-! The command words: their fields, the masks of these fields, and what decodes to what
(30_encoding.md R90 to R101). -/

namespace Sys2Proof

/-! ## Fields and masks -/

/-- Two neighbouring fields are one field. -/
theorem extractLsb'_eq_append_iff {s n m : Nat} (w : CommandWord) (a : BitVec m) (b : BitVec n) :
    w.extractLsb' s (m + n) = a ++ b ↔ w.extractLsb' (s + n) m = a ∧ w.extractLsb' s n = b := by
  have hsplit : w.extractLsb' (s + n) m ++ w.extractLsb' s n = w.extractLsb' s (m + n) :=
    BitVec.extractLsb'_append_extractLsb'_eq_extractLsb' rfl
  constructor
  · intro h
    rw [← hsplit] at h
    have hhigh := congrArg (BitVec.extractLsb' n m) h
    have hlow := congrArg (BitVec.extractLsb' 0 n) h
    rw [BitVec.extractLsb'_append_eq_left, BitVec.extractLsb'_append_eq_left] at hhigh
    rw [BitVec.extractLsb'_append_eq_right, BitVec.extractLsb'_append_eq_right] at hlow
    exact ⟨hhigh, hlow⟩
  · rintro ⟨rfl, rfl⟩
    exact hsplit.symm

/-- The word with `v` in the bits from `s` on and 0 elsewhere. -/
def fieldAt (s : Nat) {n : Nat} (v : BitVec n) : CommandWord := v.setWidth 64 <<< s

theorem extractLsb'_fieldAt {s n : Nat} (v : BitVec n) (h : s + n ≤ 64) :
    (fieldAt s v).extractLsb' s n = v := by
  ext i hi
  have hlt : s + i < 64 := by omega
  simp [fieldAt, hlt, hi]

theorem and_fieldAt_allOnes (s n : Nat) (w : CommandWord) :
    w &&& fieldAt s (BitVec.allOnes n) = fieldAt s (w.extractLsb' s n) := by
  ext i hi
  by_cases hs : i < s
  · simp [fieldAt, hs]
  · have hpos : s + (i - s) = i := by omega
    simp [fieldAt, hs, hpos, hi, Bool.and_comm]

/-- A mask of `n` ones from bit `s` on reads the field that stands there. -/
theorem and_fieldAt_eq_iff (s : Nat) {n : Nat} (w : CommandWord) (v : BitVec n) (h : s + n ≤ 64) :
    w &&& fieldAt s (BitVec.allOnes n) = fieldAt s v ↔ w.extractLsb' s n = v := by
  rw [and_fieldAt_allOnes]
  constructor
  · intro heq
    rw [← extractLsb'_fieldAt (w.extractLsb' s n) h, heq, extractLsb'_fieldAt v h]
  · rintro rfl
    rfl

/-- A mask that is the union of two masks asks both questions at once. -/
theorem and_or_eq_iff {w p q a b : CommandWord} (hp : (a ||| b) &&& p = a)
    (hq : (a ||| b) &&& q = b) : w &&& (p ||| q) = a ||| b ↔ w &&& p = a ∧ w &&& q = b := by
  constructor
  · intro h
    have absorb (x y : CommandWord) : (x ||| y) &&& x = x := by
      ext i hi
      simpa using Or.inl
    constructor
    · rw [← absorb p q, ← BitVec.and_assoc, h, hp]
    · rw [← absorb q p, BitVec.or_comm, ← BitVec.and_assoc, h, hq]
  · rintro ⟨rfl, rfl⟩
    ext i hi
    simp [Bool.and_or_distrib_left]

/-! ## The fields of a command's word -/

/-- The word `w` has the fixed fields and the operands of the row of `i`, R95 to R100. The `KIND` of
an unrecognised event is the bits down to its highest set one, fixed by the row, and those below
(R99). -/
def HasFields (w : CommandWord) : Instr → Prop
  | .init fs => wordOp w = 1#4 ∧ wordMiddle w = 0#28 ∧ wordArg w = fs
  | .block n => wordOp w = 2#4 ∧ wordMiddle w = 0#28 ∧ wordArg w = n
  | .noteOff offset note vel => wordOp w = 3#4 ∧ wordKind w = 0#8 ∧ wordRsv0 w = 0#4 ∧
      wordZ1 w = 0#1 ∧ wordNote w = note ∧ wordZ0 w = 0#1 ∧ wordVel w = vel ∧ wordArg w = offset
  | .noteOn offset note vel => wordOp w = 3#4 ∧ wordKind w = 1#8 ∧ wordRsv0 w = 0#4 ∧
      wordZ1 w = 0#1 ∧ wordNote w = note ∧ wordZ0 w = 0#1 ∧ wordVel w = vel ∧ wordArg w = offset
  | .eventK7 kind rest => wordOp w = 3#4 ∧ w.extractLsb' 59 1 = 1#1 ∧
      w.extractLsb' 52 7 = kind ∧ wordRest w = rest
  | .eventK6 kind rest => wordOp w = 3#4 ∧ w.extractLsb' 58 2 = 1#2 ∧
      w.extractLsb' 52 6 = kind ∧ wordRest w = rest
  | .eventK5 kind rest => wordOp w = 3#4 ∧ w.extractLsb' 57 3 = 1#3 ∧
      w.extractLsb' 52 5 = kind ∧ wordRest w = rest
  | .eventK4 kind rest => wordOp w = 3#4 ∧ w.extractLsb' 56 4 = 1#4 ∧
      w.extractLsb' 52 4 = kind ∧ wordRest w = rest
  | .eventK3 kind rest => wordOp w = 3#4 ∧ w.extractLsb' 55 5 = 1#5 ∧
      w.extractLsb' 52 3 = kind ∧ wordRest w = rest
  | .eventK2 kind rest => wordOp w = 3#4 ∧ w.extractLsb' 54 6 = 1#6 ∧
      w.extractLsb' 52 2 = kind ∧ wordRest w = rest
  | .eventK1 kind rest => wordOp w = 3#4 ∧ w.extractLsb' 53 7 = 1#7 ∧
      w.extractLsb' 52 1 = kind ∧ wordRest w = rest
  | .endBlock => wordOp w = 4#4 ∧ wordMiddle w = 0#28 ∧ wordArg w = 0#32

section
variable (w : CommandWord)

/-- The layout of INIT, BLOCK and END. -/
theorem word_eq_plainWord_iff (op : BitVec 4) (arg : Counter) :
    w.extractLsb' 0 (4 + 28 + 32) = op ++ 0#28 ++ arg ↔
      wordOp w = op ∧ wordMiddle w = 0#28 ∧ wordArg w = arg := by
  rw [extractLsb'_eq_append_iff, extractLsb'_eq_append_iff, and_assoc]
  rfl

/-- The layout of NOTE_OFF and NOTE_ON. -/
theorem word_eq_noteWord_iff (kind : BitVec 8) (note : Note) (vel : Velocity) (offset : Counter) :
    w.extractLsb' 0 (4 + 8 + 4 + 1 + 7 + 1 + 7 + 32) =
        3#4 ++ kind ++ 0#4 ++ 0#1 ++ note ++ 0#1 ++ vel ++ offset ↔
      wordOp w = 3#4 ∧ wordKind w = kind ∧ wordRsv0 w = 0#4 ∧ wordZ1 w = 0#1 ∧
        wordNote w = note ∧ wordZ0 w = 0#1 ∧ wordVel w = vel ∧ wordArg w = offset := by
  simp only [extractLsb'_eq_append_iff, and_assoc]
  rfl

/-- The layout of an unrecognised event: its row fixes `n` bits of `KIND`, and `k` are free. -/
theorem word_eq_eventWord_iff {n k : Nat} (kind : BitVec k) (rest : BitVec 52) (h : k + n = 8) :
    w.extractLsb' 0 (4 + n + k + 52) = 3#4 ++ 1#n ++ kind ++ rest ↔
      wordOp w = 3#4 ∧ w.extractLsb' (k + 52) n = 1#n ∧ w.extractLsb' 52 k = kind ∧
        wordRest w = rest := by
  have hbelow : 0 + 52 + k = k + 52 := by omega
  have hop : k + 52 + n = 60 := by omega
  rw [extractLsb'_eq_append_iff, extractLsb'_eq_append_iff, extractLsb'_eq_append_iff,
    hbelow, hop, and_assoc, and_assoc]
  rfl

theorem encode_eq_iff (i : Instr) : encode i = w ↔ HasFields w i := by
  have hword : encode i = w ↔ w.extractLsb' 0 64 = encode i := by
    rw [BitVec.extractLsb'_eq_self, eq_comm]
  rw [hword]
  cases i with
  | init fs => exact word_eq_plainWord_iff w 1#4 fs
  | block n => exact word_eq_plainWord_iff w 2#4 n
  | noteOff offset note vel => exact word_eq_noteWord_iff w 0#8 note vel offset
  | noteOn offset note vel => exact word_eq_noteWord_iff w 1#8 note vel offset
  | eventK7 kind rest => exact word_eq_eventWord_iff w (n := 1) kind rest rfl
  | eventK6 kind rest => exact word_eq_eventWord_iff w (n := 2) kind rest rfl
  | eventK5 kind rest => exact word_eq_eventWord_iff w (n := 3) kind rest rfl
  | eventK4 kind rest => exact word_eq_eventWord_iff w (n := 4) kind rest rfl
  | eventK3 kind rest => exact word_eq_eventWord_iff w (n := 5) kind rest rfl
  | eventK2 kind rest => exact word_eq_eventWord_iff w (n := 6) kind rest rfl
  | eventK1 kind rest => exact word_eq_eventWord_iff w (n := 7) kind rest rfl
  | endBlock => exact word_eq_plainWord_iff w 4#4 0#32

end

/-! ## What a word decodes to -/

/-- The top bits of a `KIND` are 0...01 exactly when it lies between two powers of two. -/
theorem kindTop_eq_one_iff (w : CommandWord) {n k : Nat} (h : k + n = 8) (hn : 0 < n) :
    w.extractLsb' (k + 52) n = 1#n ↔
      2 ^ k ≤ (wordKind w).toNat ∧ (wordKind w).toNat < 2 * 2 ^ k := by
  have htop : w.extractLsb' (k + 52) n = (wordKind w).extractLsb' k n := by
    ext i hi
    have hlt : k + i < 8 := by omega
    simp [wordKind, hlt, Nat.add_assoc, Nat.add_left_comm]
  have hpos : 0 < 2 ^ k := Nat.two_pow_pos k
  have hpow : 2 ^ n * 2 ^ k = 2 ^ 8 := by rw [← Nat.pow_add, Nat.add_comm, h]
  have hlt : (wordKind w).toNat / 2 ^ k < 2 ^ n := by
    rw [Nat.div_lt_iff_lt_mul hpos, hpow]
    exact (wordKind w).isLt
  rw [htop, ← BitVec.toNat_inj, BitVec.extractLsb'_toNat, Nat.shiftRight_eq_div_pow,
    Nat.mod_eq_of_lt hlt, BitVec.toNat_one hn, Nat.div_eq_iff hpos]
  omega

/-- The unrecognised event that `w` carries when bit `k` is the highest set bit of its `KIND`. -/
def eventOfTopBit (w : CommandWord) : Nat → Instr
  | 7 => .eventK7 (w.extractLsb' 52 7) (wordRest w)
  | 6 => .eventK6 (w.extractLsb' 52 6) (wordRest w)
  | 5 => .eventK5 (w.extractLsb' 52 5) (wordRest w)
  | 4 => .eventK4 (w.extractLsb' 52 4) (wordRest w)
  | 3 => .eventK3 (w.extractLsb' 52 3) (wordRest w)
  | 2 => .eventK2 (w.extractLsb' 52 2) (wordRest w)
  | _ => .eventK1 (w.extractLsb' 52 1) (wordRest w)

theorem decodeUnrecognised_eq_eventOfTopBit {w : CommandWord} {k : Nat} (hpos : 0 < k) (hk : k < 8)
    (hlow : 2 ^ k ≤ (wordKind w).toNat) (hhigh : (wordKind w).toNat < 2 * 2 ^ k) :
    decodeUnrecognised w = eventOfTopBit w k := by
  simp only [decodeUnrecognised, BitVec.le_def, BitVec.toNat_ofNat, Nat.reducePow, Nat.reduceMod]
  interval_cases k <;> simp (disch := omega) only [if_pos, if_neg, eventOfTopBit]

theorem decodeUnrecognised_wellFormed (w : CommandWord) :
    (decodeUnrecognised w).wellFormed = true := by
  simp only [decodeUnrecognised]
  split_ifs <;> rfl

section
variable {w : CommandWord} (hop : wordOp w = 3#4)
include hop

/-- A word with the fixed bits of a row of R99 decodes to the event of that row. -/
theorem decode_of_kindTop {n k : Nat} (htop : w.extractLsb' (k + 52) n = 1#n)
    (h : k + n = 8) (hpos : 0 < k) (hn : 0 < n) : decode w = .ok (eventOfTopBit w k) := by
  obtain ⟨hlow, hhigh⟩ := (kindTop_eq_one_iff w h hn).1 htop
  have hkind : 2#8 ≤ wordKind w := by
    rw [BitVec.le_def]
    exact (Nat.pow_le_pow_right two_pos hpos).trans hlow
  simp [decode, decodeEvent, hop, hkind,
    decodeUnrecognised_eq_eventOfTopBit hpos (by omega) hlow hhigh]

theorem hasFields_decodeUnrecognised (hkind : 2#8 ≤ wordKind w) :
    HasFields w (decodeUnrecognised w) := by
  simp only [decodeUnrecognised]
  split_ifs
  all_goals exact ⟨hop, (kindTop_eq_one_iff w rfl (by decide)).2 (by bv_omega), rfl, rfl⟩

theorem hasFields_of_decodeEvent {i : Instr} (h : decodeEvent w = .ok i) :
    HasFields w i ∧ i.wellFormed = true := by
  simp only [decodeEvent] at h
  split_ifs at h with hkind hreserved hoff
  · obtain rfl := Except.ok.inj h
    exact ⟨hasFields_decodeUnrecognised hop hkind, decodeUnrecognised_wellFormed w⟩
  · push Not at hreserved
    obtain ⟨hrsv0, hz1, hz0⟩ := hreserved
    obtain rfl := Except.ok.inj h
    exact ⟨⟨hop, hoff, hrsv0, hz1, rfl, hz0, rfl, rfl⟩, rfl⟩
  · push Not at hreserved
    obtain ⟨hrsv0, hz1, hz0⟩ := hreserved
    have hon : wordKind w = 1#8 := by bv_omega
    obtain rfl := Except.ok.inj h
    exact ⟨⟨hop, hon, hrsv0, hz1, rfl, hz0, rfl, rfl⟩, rfl⟩

end

section
variable {w : CommandWord} {i : Instr}

theorem hasFields_of_decode (h : decode w = .ok i) : HasFields w i ∧ i.wellFormed = true := by
  simp only [decode] at h
  split_ifs at h with hinit hmiddle harg hblock hmiddle hevent hend hmiddle harg
  · obtain rfl := Except.ok.inj h
    exact ⟨⟨hinit, not_not.1 hmiddle, rfl⟩, bne_iff_ne.2 harg⟩
  · obtain rfl := Except.ok.inj h
    exact ⟨⟨hblock, not_not.1 hmiddle, rfl⟩, rfl⟩
  · exact hasFields_of_decodeEvent hevent h
  · obtain rfl := Except.ok.inj h
    exact ⟨⟨hend, not_not.1 hmiddle, not_not.1 harg⟩, rfl⟩

theorem decode_of_hasFields (h : HasFields w i) (hi : i.wellFormed = true) : decode w = .ok i := by
  cases i with
  | init fs =>
    obtain ⟨hop, hmiddle, rfl⟩ := h
    have harg : wordArg w ≠ 0#32 := bne_iff_ne.1 hi
    simp [decode, hop, hmiddle, harg]
  | block n =>
    obtain ⟨hop, hmiddle, rfl⟩ := h
    simp [decode, hop, hmiddle]
  | noteOff offset note vel | noteOn offset note vel =>
    obtain ⟨hop, hkind, hrsv0, hz1, rfl, hz0, rfl, rfl⟩ := h
    simp [decode, decodeEvent, hop, hkind, hrsv0, hz1, hz0]
  | endBlock =>
    obtain ⟨hop, hmiddle, harg⟩ := h
    simp [decode, hop, hmiddle, harg]
  | eventK7 kind rest | eventK6 kind rest | eventK5 kind rest | eventK4 kind rest
  | eventK3 kind rest | eventK2 kind rest | eventK1 kind rest =>
    obtain ⟨hop, htop, rfl, rfl⟩ := h
    exact decode_of_kindTop hop htop rfl (by decide) (by decide)

end

/-- The decoder reads exactly the rows of R95 to R100. -/
theorem decode_eq_ok_iff {w : CommandWord} {i : Instr} :
    decode w = .ok i ↔ HasFields w i ∧ i.wellFormed = true :=
  ⟨hasFields_of_decode, fun ⟨h, hi⟩ => decode_of_hasFields h hi⟩

/-- Settles O1: the word of a command has the fields of its row. -/
theorem decodeOfEncodeReturnsTheCommand : Obligations.DecodeOfEncodeReturnsTheCommand := by
  intro i hi
  exact decode_eq_ok_iff.2 ⟨(encode_eq_iff _ i).1 rfl, hi⟩

/-- Settles O2: a word is determined by the fields of its row. -/
theorem encodeOfDecodeReturnsTheWord : Obligations.EncodeOfDecodeReturnsTheWord := by
  intro w i h
  obtain ⟨hfields, hi⟩ := decode_eq_ok_iff.1 h
  exact ⟨(encode_eq_iff w i).2 hfields, hi⟩

/-! ## Masks -/

section
variable (w : CommandWord)

/-- The fixed bits of INIT and BLOCK. -/
theorem plainWord_mask (op : BitVec 4) :
    wordOp w = op ∧ wordMiddle w = 0#28 ↔ w &&& 0xFFFFFFFF00000000#64 = fieldAt 32 (op ++ 0#28) :=
  calc wordOp w = op ∧ wordMiddle w = 0#28
    _ ↔ w.extractLsb' 32 (4 + 28) = op ++ 0#28 := (extractLsb'_eq_append_iff w op 0#28).symm
    _ ↔ w &&& 0xFFFFFFFF00000000#64 = fieldAt 32 (op ++ 0#28) :=
      (and_fieldAt_eq_iff 32 w _ (by decide)).symm

theorem arg_mask : wordArg w = 0#32 ↔ w &&& 0x00000000FFFFFFFF#64 = 0#64 :=
  (and_fieldAt_eq_iff 0 w 0#32 (by decide)).symm

theorem middle_mask : wordMiddle w = 0#28 ↔ w &&& 0x0FFFFFFF00000000#64 = 0#64 :=
  (and_fieldAt_eq_iff 32 w 0#28 (by decide)).symm

/-- The bits of clause (d) of R101. -/
theorem reserved_mask : wordRsv0 w = 0#4 ∧ wordZ1 w = 0#1 ∧ wordZ0 w = 0#1 ↔
    w &&& 0x000F808000000000#64 = 0#64 :=
  calc wordRsv0 w = 0#4 ∧ wordZ1 w = 0#1 ∧ wordZ0 w = 0#1
    _ ↔ w.extractLsb' 47 (4 + 1) = 0#4 ++ 0#1 ∧ w.extractLsb' 39 1 = 0#1 := by
      rw [extractLsb'_eq_append_iff, and_assoc]
      rfl
    _ ↔ w &&& fieldAt 47 (BitVec.allOnes 5) = fieldAt 47 (0#4 ++ 0#1) ∧
        w &&& fieldAt 39 (BitVec.allOnes 1) = fieldAt 39 0#1 := by
      rw [and_fieldAt_eq_iff 47 w _ (by decide), and_fieldAt_eq_iff 39 w _ (by decide)]
    _ ↔ w &&& 0x000F808000000000#64 = 0#64 := (and_or_eq_iff (by decide) (by decide)).symm

/-- The fixed bits of the two recognised kinds of event. -/
theorem noteWord_mask {kind : BitVec 8} (hkind : kind = 0#8 ∨ kind = 1#8) :
    wordOp w = 3#4 ∧ wordKind w = kind ∧ wordRsv0 w = 0#4 ∧ wordZ1 w = 0#1 ∧ wordZ0 w = 0#1 ↔
      w &&& 0xFFFF808000000000#64 = fieldAt 47 (3#4 ++ kind ++ 0#4 ++ 0#1) :=
  calc wordOp w = 3#4 ∧ wordKind w = kind ∧ wordRsv0 w = 0#4 ∧ wordZ1 w = 0#1 ∧ wordZ0 w = 0#1
    _ ↔ w.extractLsb' 47 (4 + 8 + 4 + 1) = 3#4 ++ kind ++ 0#4 ++ 0#1 ∧
        w.extractLsb' 39 1 = 0#1 := by
      simp only [extractLsb'_eq_append_iff, and_assoc]
      rfl
    _ ↔ w &&& fieldAt 47 (BitVec.allOnes 17) = fieldAt 47 (3#4 ++ kind ++ 0#4 ++ 0#1) ∧
        w &&& fieldAt 39 (BitVec.allOnes 1) = fieldAt 39 0#1 := by
      rw [and_fieldAt_eq_iff 47 w _ (by decide), and_fieldAt_eq_iff 39 w _ (by decide)]
    _ ↔ w &&& (fieldAt 47 (BitVec.allOnes 17) ||| fieldAt 39 (BitVec.allOnes 1)) =
        fieldAt 47 (3#4 ++ kind ++ 0#4 ++ 0#1) ||| fieldAt 39 0#1 := by
      obtain rfl | rfl := hkind
      · exact (and_or_eq_iff (by decide) (by decide)).symm
      · exact (and_or_eq_iff (by decide) (by decide)).symm
    _ ↔ w &&& 0xFFFF808000000000#64 = fieldAt 47 (3#4 ++ kind ++ 0#4 ++ 0#1) := by
      have hzero : fieldAt 39 0#1 = 0#64 := by decide
      rw [hzero, BitVec.or_zero]
      rfl

/-- The fixed bits of an unrecognised event, whose mask is all ones from bit `s` on. -/
theorem eventWord_mask {s n : Nat} (h : s + n = 60) :
    wordOp w = 3#4 ∧ w.extractLsb' s n = 1#n ↔
      w &&& fieldAt s (BitVec.allOnes (4 + n)) = fieldAt s (3#4 ++ 1#n) := by
  rw [and_fieldAt_eq_iff s w _ (by omega), extractLsb'_eq_append_iff, h]
  rfl

/-- `OP` is the word shifted down by 60 bits. -/
theorem toNat_shiftRight_sixty : (w >>> 60).toNat = (wordOp w).toNat := by
  simp only [wordOp, BitVec.toNat_ushiftRight, BitVec.extractLsb'_toNat]
  omega

/-- `KIND` is the low byte of the word shifted down by 52 bits. -/
theorem toNat_shiftRight_and : (w >>> 52 &&& 0xFF#64).toNat = (wordKind w).toNat := by
  rw [BitVec.toNat_and, BitVec.toNat_ushiftRight, wordKind, BitVec.extractLsb'_toNat]
  exact Nat.and_two_pow_sub_one_eq_mod _ 8

theorem wordOp_eq_iff (v : BitVec 4) : wordOp w = v ↔ w >>> 60 = v.setWidth 64 := by
  rw [← BitVec.toNat_inj, ← BitVec.toNat_inj, toNat_shiftRight_sixty,
    BitVec.toNat_setWidth_of_le (by decide)]

theorem le_wordOp_iff (v : BitVec 4) : v ≤ wordOp w ↔ v.setWidth 64 ≤ w >>> 60 := by
  rw [BitVec.le_def, BitVec.le_def, toNat_shiftRight_sixty,
    BitVec.toNat_setWidth_of_le (by decide)]

theorem wordKind_le_iff (v : BitVec 8) :
    wordKind w ≤ v ↔ w >>> 52 &&& 0xFF#64 ≤ v.setWidth 64 := by
  rw [BitVec.le_def, BitVec.le_def, toNat_shiftRight_and, BitVec.toNat_setWidth_of_le (by decide)]

end

/-- Settles O4: the mask of a row selects its fixed fields, and its operands are free. -/
theorem tableRowsDecodeByMatchAndMask : Obligations.TableRowsDecodeByMatchAndMask := by
  intro w
  simp only [decode_eq_ok_iff, HasFields, Instr.wellFormed, bne_iff_ne, and_true, and_assoc,
    exists_and_left, exists_eq', exists_eq_left']
  refine ⟨?init, plainWord_mask w 2#4, noteWord_mask w (.inl rfl), noteWord_mask w (.inr rfl),
    eventWord_mask w rfl, eventWord_mask w rfl, eventWord_mask w rfl, eventWord_mask w rfl,
    eventWord_mask w rfl, eventWord_mask w rfl, eventWord_mask w rfl, ?endBlock⟩
  case init =>
    rw [← and_assoc, plainWord_mask, ne_eq, arg_mask]
    rfl
  case endBlock => exact (encode_eq_iff w .endBlock).symm.trans eq_comm

/-! ## Malformed words -/

/-- A choice fails when the branch taken fails. -/
theorem exists_ite_eq_error_iff {ε α : Type} (p : Prop) [Decidable p] (a b : Except ε α) :
    (∃ e, (if p then a else b) = .error e) ↔
      (p ∧ ∃ e, a = .error e) ∨ (¬ p ∧ ∃ e, b = .error e) := by
  by_cases h : p <;> simp [h]

theorem decodeEvent_error_iff {w : CommandWord} : (∃ e, decodeEvent w = .error e) ↔
    wordKind w ≤ 1#8 ∧ ¬ (wordRsv0 w = 0#4 ∧ wordZ1 w = 0#1 ∧ wordZ0 w = 0#1) := by
  have hkind : wordKind w ≤ 1#8 ↔ ¬ 2#8 ≤ wordKind w := by bv_omega
  simp only [decodeEvent, exists_ite_eq_error_iff, hkind]
  simp [imp_iff_not_or]

/-- The clauses (a) to (e) of R101, read from the fields. -/
theorem decode_error_iff {w : CommandWord} : (∃ e, decode w = .error e) ↔
    (wordOp w = 0#4 ∨ 5#4 ≤ wordOp w) ∨
    ((wordOp w = 1#4 ∨ wordOp w = 2#4 ∨ wordOp w = 4#4) ∧ wordMiddle w ≠ 0#28) ∨
    (wordOp w = 4#4 ∧ wordArg w ≠ 0#32) ∨
    (wordOp w = 3#4 ∧ wordKind w ≤ 1#8 ∧
      ¬ (wordRsv0 w = 0#4 ∧ wordZ1 w = 0#1 ∧ wordZ0 w = 0#1)) ∨
    (wordOp w = 1#4 ∧ wordArg w = 0#32) := by
  simp only [decode, exists_ite_eq_error_iff, decodeEvent_error_iff]
  by_cases hinit : wordOp w = 1#4
  · simp [hinit, or_and_left, em']
  by_cases hblock : wordOp w = 2#4
  · simp [hblock]
  by_cases hevent : wordOp w = 3#4
  · simp [hevent]
  by_cases hend : wordOp w = 4#4
  · simp [hend, or_and_left, em']
  have hother : wordOp w = 0#4 ∨ 5#4 ≤ wordOp w := by bv_omega
  simp [hinit, hblock, hevent, hend, hother]

section
open Machine

theorem step_of_malformed {s : State} {w : CommandWord} {rest : List HostAction} {e : Malformed}
    (hs : s.stream = .command w :: rest) (he : decode w = .error e) :
    step s = .refused (.malformed e) :=
  calc step s = command w (s.setStream rest) := step_of_action hs
    _ = .refused (.malformed e) := by simp only [command, he]

end

/-- Settles O3, clause by clause: the masks of R101 select the fields the decoder reads. -/
theorem malformedWordsAreClausesAToE : Obligations.MalformedWordsAreClausesAToE := by
  refine fun w => ⟨?clauses, fun e s rest he hs => step_of_malformed hs he⟩
  rw [decode_error_iff]
  simp only [ne_eq, wordOp_eq_iff, le_wordOp_iff, wordKind_le_iff, middle_mask, arg_mask,
    reserved_mask]
  rfl

/-- Settles O5, by running the decoder. -/
theorem writtenOutWordsDecode : Obligations.WrittenOutWordsDecode := by
  unfold Obligations.WrittenOutWordsDecode
  decide

end Sys2Proof
end

section
/-! The wavetable and the oscillator in exact arithmetic (40_wavetable_oscillator.md R120 to R126). -/

namespace Sys2Proof

/-! ## The wavetable -/

/-- The table holds the sine as the cosine three quarters of a period on. -/
theorem sineEntry_real (k : Nat) : (sineEntry k).toReal = Real.sin (2 * Real.pi * k / 2048) := by
  have angle : 2 * Real.pi * ((k + 1536 : ℕ) : ℝ) / 2048 =
      2 * Real.pi * k / 2048 - Real.pi / 2 + 2 * Real.pi := by
    push_cast
    ring
  rw [sineEntry, ofTerms_real, List.map_singleton, List.sum_singleton, cosTerm_real, angle,
    Real.cos_add_two_pi, Real.cos_sub_pi_div_two]
  simp

theorem waveTable_exact_real {k : Nat} (h : k < 2048) :
    (waveTable .exactReals k).toReal = Real.sin (2 * Real.pi * k / 2048) := by
  rw [waveTable, Nat.mod_eq_of_lt h, sineEntry_real]

/-! ## The true modulo of 00_scope.md R14 -/

/-- `x mod p = x - p * floor(x / p)` over the reals. -/
noncomputable def realMod (x p : ℝ) : ℝ := x - p * ⌊x / p⌋

theorem realMod_nonneg (x : ℝ) {p : ℝ} (hp : 0 < p) : 0 ≤ realMod x p := by
  rw [realMod, mul_comm]
  exact Int.sub_floor_div_mul_nonneg x hp

theorem realMod_lt (x : ℝ) {p : ℝ} (hp : 0 < p) : realMod x p < p := by
  rw [realMod, mul_comm]
  exact Int.sub_floor_div_mul_lt x hp

theorem realMod_of_mem {x p : ℝ} (h0 : 0 ≤ x) (h1 : x < p) : realMod x p = x := by
  have hfloor : ⌊x / p⌋ = 0 :=
    Int.floor_eq_zero_iff.mpr ⟨div_nonneg h0 (h0.trans h1.le), (div_lt_one (h0.trans_lt h1)).mpr h1⟩
  rw [realMod, hfloor, Int.cast_zero, mul_zero, sub_zero]

/-- A wrap inside a sum that is wrapped again makes no difference. -/
theorem realMod_realMod_add (x y : ℝ) {p : ℝ} (hp : 0 < p) :
    realMod (realMod x p + y) p = realMod (x + y) p := by
  have shift : (realMod x p + y) / p = (x + y) / p - (⌊x / p⌋ : ℤ) := by
    rw [realMod]
    field_simp
    ring
  rw [realMod, shift, Int.floor_sub_intCast, realMod, realMod]
  push_cast
  ring

/-! ## The modulo of two pitches -/

section
variable (x : Pitch) (q : Rat)

/-- The multiple of a rational period that the modulo takes off adds to everything. -/
theorem Pitch.ofRat_mul_ofRat_summable (p : Rat) : ((Pitch.ofRat p).mul (.ofRat q)).Summable x := by
  rw [Pitch.mul, if_pos (show (Pitch.ofRat q).coef = 0 from rfl)]
  exact Pitch.scale_summable _ (Pitch.ofRat_summable p x)

theorem NumMode.exact_pitchMod : NumMode.exactReals.pitchMod x (.ofRat q) =
    x.sub ((Pitch.ofRat q).mul (.ofRat (x.div (.ofRat q)).floor)) := rfl

theorem NumMode.exact_pitchMod_real (h : q ≠ 0) :
    (NumMode.exactReals.pitchMod x (.ofRat q)).toReal = realMod x.toReal q := by
  rw [NumMode.exact_pitchMod, Pitch.sub_real (Pitch.ofRat_mul_ofRat_summable x _ q).symm,
    Pitch.ofRat_mul_real, Pitch.ofRat_real, Pitch.floor_real, Pitch.div_ofRat_real x h,
    Rat.cast_intCast, realMod]

theorem NumMode.exact_pitchMod_summable {y : Pitch} (h : x.Summable y) :
    (NumMode.exactReals.pitchMod x (.ofRat q)).Summable y := by
  rw [NumMode.exact_pitchMod, Pitch.sub]
  exact Pitch.add_summable
    (Pitch.scale_summable _ (Pitch.ofRat_mul_ofRat_summable x _ q)).symm h
    (Pitch.scale_summable _ (Pitch.ofRat_mul_ofRat_summable y _ q))

end

namespace Machine

/-! ## LOOKUP and OSC_SEED -/

theorem tableIndex_lt (k : Int) : tableIndex k < 2048 := by
  unfold tableIndex
  omega

theorem tableIndex_cast (k : Int) : ((tableIndex k : ℕ) : Int) = k % 2048 := by
  unfold tableIndex
  omega

/-- The index of LOOKUP (R122): in table steps, the factor 2048 and the period cancel. -/
theorem lookupIndex_exact (u : Pitch) :
    lookupIndex .exactReals u = tableIndex ⌊u.toReal + 1 / 2⌋ := by
  have steps : ((u.mul (.ofRat 2048)).div (.ofRat 2048)).toReal = u.toReal := by
    rw [Pitch.div_ofRat_real _ (by norm_num), Pitch.mul_ofRat_real]
    norm_num
  have half : (((u.mul (.ofRat 2048)).div (.ofRat 2048)).add (.ofRat (1 / 2))).toReal =
      u.toReal + 1 / 2 := by
    rw [Pitch.add_real (Pitch.ofRat_summable _ _).symm, steps, Pitch.ofRat_real]
    norm_num
  rw [← half, ← Pitch.floor_real]
  rfl

theorem lookup_exact_real (u : Pitch) : (lookup .exactReals u).toReal =
    Real.sin (2 * Real.pi * ((⌊u.toReal + 1 / 2⌋ % 2048 : ℤ) : ℝ) / 2048) := by
  rw [lookup, lookupIndex_exact, waveTable_exact_real (tableIndex_lt _), ← tableIndex_cast,
    Int.cast_natCast]

theorem noteIncrement_exact_real {p : Params} {fs : Counter} (note : Note)
    (hp : p.num = .exactReals) (hfs : fs ≠ 0) : (noteIncrement p fs note).toReal =
      2048 * (p.freq[note.toNat]'note.isLt).toReal / (fs.toNat : ℝ) := by
  have hrate : ((fs.toNat : ℕ) : Rat) ≠ 0 := by
    rw [Nat.cast_ne_zero]
    exact fun h => hfs (BitVec.eq_of_toNat_eq h)
  rw [noteIncrement, hp, NumMode.exact_pitchDiv, NumMode.exact_pitchLit, NumMode.exact_pitchMul,
    NumMode.exact_fullTurn, Pitch.div_ofRat_real _ hrate, Pitch.ofRat_mul_real]
  norm_num

/-! ## OSC_STEP -/

section
variable {phase increment : Pitch} (h : phase.Summable increment)
include h

/-- One advance adds the increment and wraps (R125). -/
theorem advancePhase_exact_real : (advancePhase .exactReals phase increment).toReal =
    realMod (phase.toReal + increment.toReal) 2048 := by
  rw [advancePhase, NumMode.exact_fullTurn, NumMode.exact_pitchMod_real _ _ (by norm_num),
    NumMode.exact_pitchAdd, Pitch.add_real h]
  norm_num

/-- An advanced phase still adds to its increment (entry 4). -/
theorem advancePhase_exact_summable :
    (advancePhase .exactReals phase increment).Summable increment :=
  NumMode.exact_pitchMod_summable _ _ (Pitch.add_summable h h (.inr (.inr rfl)))

/-- R126 from any phase within the period; each advance wraps, and only the last wrap counts. -/
theorem advances_exact_real (n : Nat) (h0 : 0 ≤ phase.toReal) (h1 : phase.toReal < 2048) :
    (advances .exactReals n phase increment).toReal =
      realMod (phase.toReal + n * increment.toReal) 2048 := by
  induction n generalizing phase with
  | zero => rw [advances, Nat.cast_zero, zero_mul, add_zero, realMod_of_mem h0 h1]
  | succ n ih =>
    have hphase := advancePhase_exact_real h
    calc (advances .exactReals n (advancePhase .exactReals phase increment) increment).toReal
        = realMod (realMod (phase.toReal + increment.toReal) 2048 + n * increment.toReal) 2048 := by
          rw [ih (advancePhase_exact_summable h), hphase]
          · exact hphase ▸ realMod_nonneg _ (by norm_num)
          · exact hphase ▸ realMod_lt _ (by norm_num)
      _ = realMod (phase.toReal + ((n + 1 : ℕ) : ℝ) * increment.toReal) 2048 := by
          rw [realMod_realMod_add _ _ (by norm_num)]
          congr 1
          push_cast
          ring

end

/-! ## The obligations of the family -/

/-- Settles O45, by the cosine's shift. -/
theorem wavetableIsTheSine : Obligations.WavetableIsTheSine := by
  intro k h
  rw [waveTable_exact_real h, mul_comm (2 * Real.pi), mul_assoc (k : ℝ)]

/-- Settles O48, by the real floor of the phase in table steps. -/
theorem lookupReadsTheNearestEntry : Obligations.LookupReadsTheNearestEntry :=
  lookup_exact_real

/-- Settles O49: product and quotient by rationals are exact. -/
theorem noteIncrementIsFrequencyOverRate : Obligations.NoteIncrementIsFrequencyOverRate :=
  fun _ _ note hp hfs => noteIncrement_exact_real note hp hfs

/-- Settles O50, by induction on the advances, started at phase 0. -/
theorem phaseIsTicksTimesIncrementModPeriod :
    Obligations.PhaseIsTicksTimesIncrementModPeriod := by
  intro t du
  have hphase : (advances .exactReals t (.ofRat 0) du).toReal = realMod (t * du.toReal) 2048 := by
    rw [advances_exact_real (Pitch.ofRat_summable 0 du) t (by simp) (by simp), Pitch.ofRat_real,
      Rat.cast_zero, zero_add]
  refine ⟨hphase, realMod_nonneg _ (by norm_num), realMod_lt _ (by norm_num), ?_⟩
  rw [lookup_exact_real, hphase]
  rfl

end Machine
end Sys2Proof
end

section
/-! The envelope of one voice (41_envelope.md R140 to R150), stage by stage. A stage has a length
and a ramp; a tick inside it writes the next index and the level of the ramp, the tick that crosses
it writes the level it aims at. -/

namespace Sys2Proof.Machine

/-! ## The stages -/

/-- The number of ticks the current stage lasts before the one that crosses it (R146); SUSTAIN
counts none (R144). -/
def Voice.stageLength (v : Voice) : Nat :=
  match v.status with
  | .attack => v.attackDuration.toNat
  | .hold => v.holdDuration.toNat
  | .decay => v.decayDuration.toNat
  | .sustain => 0
  | .release => v.releaseDuration.toNat

/-- The level that the tick crossing the current stage writes (R141 to R145). -/
def Voice.stageTarget (m : NumMode) (v : Voice) : Scalar :=
  match v.status with
  | .attack | .hold => v.attackLevel
  | .decay | .sustain => v.sustainLevel
  | .release => m.lit 0

/-- The level at index `k` of the current stage over the reals (R141 to R145). -/
noncomputable def Voice.rampLevel (v : Voice) (k : Nat) : ℝ :=
  match v.status with
  | .attack => v.attackLevel.toReal * k / v.attackDuration.toNat
  | .hold => v.attackLevel.toReal
  | .decay => v.attackLevel.toReal -
      (v.attackLevel.toReal - v.sustainLevel.toReal) * k / v.decayDuration.toNat
  | .sustain => v.sustainLevel.toReal
  | .release => v.releasedEnvelopeLevel.toReal * (1 - k / v.releaseDuration.toNat)

theorem Voice.indexInStage_iff (v : Voice) :
    v.indexInStage ↔ v.envelopeIndex.toNat ≤ v.stageLength := by
  unfold Voice.indexInStage Voice.stageLength
  cases v.status with
  | sustain =>
    rw [Nat.le_zero, ← BitVec.toNat_inj]
    rfl
  | _ => rfl

theorem Voice.stageLength_of_attack {v : Voice} (hs : v.status = .attack) :
    v.stageLength = v.attackDuration.toNat := by rw [Voice.stageLength, hs]

theorem Voice.stageLength_of_hold {v : Voice} (hs : v.status = .hold) :
    v.stageLength = v.holdDuration.toNat := by rw [Voice.stageLength, hs]

theorem Voice.stageLength_of_decay {v : Voice} (hs : v.status = .decay) :
    v.stageLength = v.decayDuration.toNat := by rw [Voice.stageLength, hs]

theorem Voice.stageLength_of_sustain {v : Voice} (hs : v.status = .sustain) :
    v.stageLength = 0 := by rw [Voice.stageLength, hs]

theorem Voice.stageLength_of_release {v : Voice} (hs : v.status = .release) :
    v.stageLength = v.releaseDuration.toNat := by rw [Voice.stageLength, hs]

theorem Voice.stageLength_lt (v : Voice) : v.stageLength < 2 ^ 32 := by
  unfold Voice.stageLength
  cases v.status with
  | sustain => norm_num
  | _ => exact BitVec.isLt _

theorem Voice.one_le_nextIndex (v : Voice) : 1 ≤ v.nextIndex := Nat.le_add_left 1 _

theorem Voice.toCounter_nextIndex {v : Voice} (h : v.nextIndex < 2 ^ 32) :
    toCounter v.nextIndex = v.envelopeIndex + 1 := by
  rw [toCounter_natCast h, Voice.nextIndex, BitVec.ofNat_add, BitVec.ofNat_toNat,
    BitVec.setWidth_eq]
  rfl

/-! ## One tick, in every number domain -/

section
variable {m : NumMode} {v : Voice}

theorem envTick_of_attack (hs : v.status = .attack) : envTick m v = tickAttack m v := by
  rw [envTick, hs]

theorem envTick_of_hold (hs : v.status = .hold) : envTick m v = tickHold v := by
  rw [envTick, hs]

theorem envTick_of_decay (hs : v.status = .decay) : envTick m v = tickDecay m v := by
  rw [envTick, hs]

theorem envTick_of_sustain (hs : v.status = .sustain) : envTick m v = tickSustain v := by
  rw [envTick, hs]

theorem envTick_of_release (hs : v.status = .release) : envTick m v = tickRelease m v := by
  rw [envTick, hs]

/-! A tick of each stage, before the crossing and on it. -/

theorem envTick_attack_ramps (hs : v.status = .attack) (h : v.nextIndex ≤ v.stageLength) :
    envTick m v =
      { v with
        envelopeIndex := v.envelopeIndex + 1
        envelopeLevel :=
          m.div (m.mul v.attackLevel (m.lit v.nextIndex)) (m.lit v.attackDuration.toNat) } := by
  have hidx := Voice.toCounter_nextIndex (h.trans_lt v.stageLength_lt)
  rw [Voice.stageLength_of_attack hs] at h
  rw [envTick_of_attack hs, tickAttack, if_neg h.not_gt, hidx]

theorem envTick_attack_crosses (hs : v.status = .attack) (h : v.stageLength < v.nextIndex) :
    envTick m v =
      { v with
        envelopeLevel := v.attackLevel
        envelopeIndex := 0
        status := if 0 < v.holdDuration.toNat then .hold else .decay } := by
  have hhold : v.holdDuration ≠ 0 ↔ 0 < v.holdDuration.toNat := by
    rw [Nat.pos_iff_ne_zero, ne_eq, ne_eq, ← BitVec.toNat_inj]
    rfl
  rw [Voice.stageLength_of_attack hs] at h
  rw [envTick_of_attack hs, tickAttack, if_pos h]
  simp only [hhold]

theorem envTick_hold_stays (hs : v.status = .hold) (h : v.nextIndex ≤ v.stageLength) :
    envTick m v =
      { v with envelopeLevel := v.attackLevel, envelopeIndex := v.envelopeIndex + 1 } := by
  have hidx := Voice.toCounter_nextIndex (h.trans_lt v.stageLength_lt)
  rw [Voice.stageLength_of_hold hs] at h
  rw [envTick_of_hold hs, tickHold, if_neg h.not_gt, hidx]

theorem envTick_hold_crosses (hs : v.status = .hold) (h : v.stageLength < v.nextIndex) :
    envTick m v =
      { v with envelopeLevel := v.attackLevel, envelopeIndex := 0, status := .decay } := by
  rw [Voice.stageLength_of_hold hs] at h
  rw [envTick_of_hold hs, tickHold, if_pos h]

theorem envTick_decay_ramps (hs : v.status = .decay) (h : v.nextIndex ≤ v.stageLength) :
    envTick m v =
      { v with
        envelopeIndex := v.envelopeIndex + 1
        envelopeLevel :=
          m.sub v.attackLevel
            (m.div (m.mul (m.sub v.attackLevel v.sustainLevel) (m.lit v.nextIndex))
              (m.lit v.decayDuration.toNat)) } := by
  have hidx := Voice.toCounter_nextIndex (h.trans_lt v.stageLength_lt)
  rw [Voice.stageLength_of_decay hs] at h
  rw [envTick_of_decay hs, tickDecay, if_neg h.not_gt, hidx]

theorem envTick_decay_sustains (hs : v.status = .decay) (h : v.stageLength < v.nextIndex)
    (hsus : m.lt (m.lit 0) v.sustainLevel = true) :
    envTick m v =
      { v with envelopeLevel := v.sustainLevel, envelopeIndex := 0, status := .sustain } := by
  rw [Voice.stageLength_of_decay hs] at h
  rw [envTick_of_decay hs, tickDecay, if_pos h, if_pos hsus]

theorem envTick_decay_retires (hs : v.status = .decay) (h : v.stageLength < v.nextIndex)
    (hsus : ¬ m.lt (m.lit 0) v.sustainLevel = true) :
    envTick m v =
      { v with
        envelopeLevel := v.sustainLevel
        envelopeIndex := toCounter v.nextIndex
        velocity := 0 } := by
  rw [Voice.stageLength_of_decay hs] at h
  rw [envTick_of_decay hs, tickDecay, if_pos h, if_neg hsus]

theorem envTick_sustain_stays (hs : v.status = .sustain) :
    envTick m v = { v with envelopeLevel := v.sustainLevel } := envTick_of_sustain hs

theorem envTick_release_ramps (hs : v.status = .release) (h : v.nextIndex ≤ v.stageLength) :
    envTick m v =
      { v with
        envelopeIndex := v.envelopeIndex + 1
        envelopeLevel :=
          m.mul v.releasedEnvelopeLevel
            (m.sub (m.lit 1) (m.div (m.lit v.nextIndex) (m.lit v.releaseDuration.toNat))) } := by
  have hidx := Voice.toCounter_nextIndex (h.trans_lt v.stageLength_lt)
  rw [Voice.stageLength_of_release hs] at h
  rw [envTick_of_release hs, tickRelease, if_neg h.not_gt, hidx]

theorem envTick_release_retires (hs : v.status = .release) (h : v.stageLength < v.nextIndex) :
    envTick m v =
      { v with
        envelopeIndex := toCounter v.nextIndex, envelopeLevel := m.lit 0, velocity := 0 } := by
  rw [Voice.stageLength_of_release hs] at h
  rw [envTick_of_release hs, tickRelease, if_pos h]

/-! A tick of any stage. -/

theorem Voice.status_ne_sustain_of_inside (h : v.nextIndex ≤ v.stageLength) :
    v.status ≠ .sustain := by
  intro hs
  have := v.one_le_nextIndex
  rw [Voice.stageLength_of_sustain hs] at h
  omega

/-- A tick inside a stage writes the index and the level only (R146). -/
theorem envTick_inside (h : v.nextIndex ≤ v.stageLength) :
    envTick m v =
      { v with
        envelopeIndex := v.envelopeIndex + 1
        envelopeLevel := (envTick m v).envelopeLevel } := by
  cases hs : v.status with
  | attack => rw [envTick_attack_ramps hs h, hs]
  | hold => rw [envTick_hold_stays hs h, hs]
  | decay => rw [envTick_decay_ramps hs h, hs]
  | sustain => exact absurd hs (Voice.status_ne_sustain_of_inside h)
  | release => rw [envTick_release_ramps hs h, hs]

/-- What a crossing tick does: it lands on the stage's target, it does not enter RELEASE (only
ENV_RELEASE_ENTER does, R149), and it starts a stage at index 0 or frees the voice. SUSTAIN, of
length 0, is crossed by each of its ticks and stays. -/
theorem envTick_crossed (h : v.stageLength < v.nextIndex) :
    (envTick m v).envelopeLevel = v.stageTarget m ∧
      ((envTick m v).status = .release → v.status = .release) ∧
      (v.status ≠ .sustain → (envTick m v).envelopeIndex = 0 ∨ (envTick m v).velocity = 0) := by
  unfold Voice.stageTarget
  cases hs : v.status with
  | attack =>
    rw [envTick_attack_crosses hs h]
    refine ⟨rfl, fun hr => ?_, fun _ => .inl rfl⟩
    dsimp only at hr
    split at hr <;> cases hr
  | hold =>
    rw [envTick_hold_crosses hs h]
    exact ⟨rfl, nofun, fun _ => .inl rfl⟩
  | decay =>
    by_cases hsus : m.lt (m.lit 0) v.sustainLevel = true
    · rw [envTick_decay_sustains hs h hsus]
      exact ⟨rfl, nofun, fun _ => .inl rfl⟩
    · rw [envTick_decay_retires hs h hsus]
      exact ⟨rfl, hs.symm.trans, fun _ => .inr rfl⟩
  | sustain =>
    rw [envTick_sustain_stays hs]
    exact ⟨rfl, hs.symm.trans, fun hne => absurd rfl hne⟩
  | release =>
    rw [envTick_release_retires hs h]
    exact ⟨rfl, fun _ => rfl, fun _ => .inr rfl⟩

theorem status_of_envTick_release (h : (envTick m v).status = .release) : v.status = .release := by
  by_cases hin : v.nextIndex ≤ v.stageLength
  · rwa [envTick_inside hin] at h
  · exact (envTick_crossed (not_le.mp hin)).2.1 h

/-- A tick that does not free the voice leaves the index inside the stage it is then in. -/
theorem envTick_indexInStage (hv : v.indexInStage) (h : (envTick m v).velocity ≠ 0) :
    (envTick m v).indexInStage := by
  by_cases hin : v.nextIndex ≤ v.stageLength
  · have hnext : (v.envelopeIndex + 1).toNat = v.nextIndex :=
      (BitVec.toNat_add _ _).trans (Nat.mod_eq_of_lt (hin.trans_lt v.stageLength_lt))
    rw [Voice.indexInStage_iff, envTick_inside hin, hnext]
    exact hin
  · by_cases hs : v.status = .sustain
    · rwa [envTick_sustain_stays hs]
    · obtain ⟨-, -, hstart⟩ := envTick_crossed (m := m) (not_le.mp hin)
      rw [Voice.indexInStage_iff, (hstart hs).resolve_right h]
      exact Nat.zero_le _

end

/-! ## The levels over the reals -/

/-- A tick inside a stage writes the level of the stage's ramp at the new index. -/
theorem envTick_exact_level {v : Voice} (h : v.nextIndex ≤ v.stageLength) :
    (envTick .exactReals v).envelopeLevel.toReal = v.rampLevel v.nextIndex := by
  have hlen : (v.stageLength : Rat) ≠ 0 := by
    have := v.one_le_nextIndex
    rw [Nat.cast_ne_zero]
    omega
  unfold Voice.rampLevel
  cases hs : v.status with
  | attack =>
    rw [Voice.stageLength_of_attack hs] at hlen
    rw [envTick_attack_ramps hs h]
    simp [Scalar.div_ofRat_real _ hlen]
  | hold => rw [envTick_hold_stays hs h]
  | decay =>
    rw [Voice.stageLength_of_decay hs] at hlen
    rw [envTick_decay_ramps hs h]
    simp [Scalar.div_ofRat_real _ hlen]
  | sustain => exact absurd hs (Voice.status_ne_sustain_of_inside h)
  | release =>
    rw [Voice.stageLength_of_release hs] at hlen
    rw [envTick_release_ramps hs h]
    simp [Scalar.ofRat_div _ hlen, Scalar.ofRat_sub]

theorem exact_zero_lt_iff (x : Scalar) :
    NumMode.exactReals.lt (NumMode.exactReals.lit 0) x = true ↔ 0 < x.toReal := by
  simp

section
variable {v : Voice} (hv : VoiceInv v)
include hv

/-- The ramps stay between 0 and the attack level (R148). -/
theorem VoiceInv.rampLevel_mem {k : Nat} (hk : k ≤ v.stageLength) :
    v.rampLevel k ∈ Set.Icc 0 v.attackLevel.toReal := by
  have hal := hv.attackPositive.le
  have frac0 : (0 : ℝ) ≤ k / v.stageLength := by positivity
  have frac1 : (k : ℝ) / v.stageLength ≤ 1 :=
    div_le_one_of_le₀ (by exact_mod_cast hk) (by positivity)
  unfold Voice.rampLevel
  rw [Set.mem_Icc]
  cases hs : v.status with
  | attack =>
    rw [Voice.stageLength_of_attack hs] at frac0 frac1
    dsimp only
    rw [mul_div_assoc]
    exact ⟨mul_nonneg hal frac0, mul_le_of_le_one_right hal frac1⟩
  | hold => exact ⟨hal, le_rfl⟩
  | decay =>
    rw [Voice.stageLength_of_decay hs] at frac0 frac1
    have hdrop := sub_nonneg.mpr hv.sustainBound
    have hsus := hv.sustainNonneg
    have hlow := mul_le_of_le_one_right hdrop frac1
    have hhigh := mul_nonneg hdrop frac0
    dsimp only
    rw [mul_div_assoc]
    constructor <;> linarith
  | sustain => exact ⟨hv.sustainNonneg, hv.sustainBound⟩
  | release =>
    rw [Voice.stageLength_of_release hs] at frac0 frac1
    obtain ⟨hrel0, hrel1⟩ := hv.releasedRange hs
    exact ⟨mul_nonneg hrel0 (by linarith),
      (mul_le_of_le_one_right hrel0 (by linarith)).trans hrel1⟩

theorem VoiceInv.stageTarget_mem :
    (v.stageTarget .exactReals).toReal ∈ Set.Icc 0 v.attackLevel.toReal := by
  unfold Voice.stageTarget
  cases v.status with
  | attack | hold => exact ⟨hv.attackPositive.le, le_rfl⟩
  | decay | sustain => exact ⟨hv.sustainNonneg, hv.sustainBound⟩
  | release => simpa using hv.attackPositive.le

/-- R148 (a): inside a stage by its ramp, on the crossing by its target. -/
theorem VoiceInv.envTick_level_mem :
    (envTick .exactReals v).envelopeLevel.toReal ∈ Set.Icc 0 v.attackLevel.toReal := by
  by_cases h : v.nextIndex ≤ v.stageLength
  · rw [envTick_exact_level h]
    exact hv.rampLevel_mem h
  · rw [(envTick_crossed (not_le.mp h)).1]
    exact hv.stageTarget_mem

/-- R148 (d): a tick that does not free the voice keeps its ranges. -/
theorem VoiceInv.after_envTick (h : (envTick .exactReals v).velocity ≠ 0) :
    VoiceInv (envTick .exactReals v) := by
  obtain ⟨hshape, hphase, -⟩ := envTick_frame .exactReals v
  obtain ⟨hlow, hhigh⟩ := hv.envTick_level_mem
  exact {
    attackPositive := hshape.attackLevel ▸ hv.attackPositive
    levelNonneg := hlow
    levelBound := hshape.attackLevel ▸ hhigh
    sustainNonneg := hshape.sustainLevel ▸ hv.sustainNonneg
    sustainBound := hshape.attackLevel ▸ hshape.sustainLevel ▸ hv.sustainBound
    releasedRange := fun hs => hshape.attackLevel ▸ hshape.releasedEnvelopeLevel ▸
      hv.releasedRange (status_of_envTick_release hs)
    attackFits := hshape.attackDuration ▸ hv.attackFits
    holdFits := hshape.holdDuration ▸ hv.holdFits
    decayFits := hshape.decayDuration ▸ hv.decayFits
    releaseFits := hshape.releaseDuration ▸ hv.releaseFits
    index := envTick_indexInStage hv.index h
    phaseNonneg := hphase ▸ hv.phaseNonneg
    phaseBound := hphase ▸ hv.phaseBound
    incrementPositive := hshape.phaseIncrement ▸ hv.incrementPositive
    phaseAdds := hphase ▸ hshape.phaseIncrement ▸ hv.phaseAdds }

end

/-! ## Several ticks -/

theorem ticks_add (m : NumMode) (a b : Nat) (v : Voice) :
    ticks m (a + b) v = ticks m b (ticks m a v) := by
  induction a generalizing v with
  | zero => rw [Nat.zero_add, ticks]
  | succ a ih => rw [Nat.succ_add, ticks, ih, ticks]

theorem ticks_succ (m : NumMode) (n : Nat) (v : Voice) :
    ticks m (n + 1) v = envTick m (ticks m n v) := ticks_add m n 1 v

theorem Voice.nextIndex_ofNat {v : Voice} {k : Nat} (hk : k ≤ v.stageLength) (x : Scalar) :
    ({ v with envelopeIndex := BitVec.ofNat 32 k, envelopeLevel := x } : Voice).nextIndex =
      k + 1 := by
  have := v.stageLength_lt
  rw [Voice.nextIndex, BitVec.toNat_ofNat, Nat.mod_eq_of_lt (by omega)]

/-- A voice in SUSTAIN at its level stays as it is (R144). -/
theorem ticks_of_sustained (m : NumMode) {v : Voice} (hs : v.status = .sustain)
    (hlevel : v.envelopeLevel = v.sustainLevel) (k : Nat) : ticks m k v = v := by
  have hfix : envTick m v = v :=
    (envTick_sustain_stays hs).trans (congrArg (fun x => { v with envelopeLevel := x }) hlevel.symm)
  induction k with
  | zero => rfl
  | succ k ih => rw [ticks, hfix, ih]

section
variable {m : NumMode} {v : Voice} (h0 : v.envelopeIndex = 0)
include h0

/-- From index 0, the ticks within the stage's length write the index and the level only. -/
theorem ticks_inside {k : Nat} (hk : k ≤ v.stageLength) :
    ticks m k v =
      { v with
        envelopeIndex := BitVec.ofNat 32 k, envelopeLevel := (ticks m k v).envelopeLevel } := by
  induction k with
  | zero => exact congrArg (fun i => { v with envelopeIndex := i }) h0
  | succ k ih =>
    have hk' : k ≤ v.stageLength := Nat.le_of_succ_le hk
    have hprev := ih hk'
    have hin : (ticks m k v).nextIndex ≤ (ticks m k v).stageLength := by
      rw [hprev, Voice.nextIndex_ofNat hk']
      exact hk
    rw [ticks_succ, envTick_inside hin, BitVec.ofNat_add, hprev]
    rfl

theorem ticks_nextIndex {k : Nat} (hk : k ≤ v.stageLength) : (ticks m k v).nextIndex = k + 1 := by
  rw [ticks_inside h0 hk, Voice.nextIndex_ofNat hk]

theorem ticks_stageLength {k : Nat} (hk : k ≤ v.stageLength) :
    (ticks m k v).stageLength = v.stageLength := by
  rw [ticks_inside h0 hk]
  rfl

theorem ticks_status {k : Nat} (hk : k ≤ v.stageLength) : (ticks m k v).status = v.status := by
  rw [ticks_inside h0 hk]

theorem ticks_velocity {k : Nat} (hk : k ≤ v.stageLength) :
    (ticks m k v).velocity = v.velocity := by
  rw [ticks_inside h0 hk]

theorem ticks_exact_level {k : Nat} (hpos : 1 ≤ k) (hk : k ≤ v.stageLength) :
    (ticks .exactReals k v).envelopeLevel.toReal = v.rampLevel k := by
  obtain ⟨j, rfl⟩ := Nat.exists_eq_add_of_le' hpos
  have hj : j ≤ v.stageLength := Nat.le_of_succ_le hk
  have hidx := ticks_nextIndex (m := .exactReals) h0 hj
  have hin : (ticks .exactReals j v).nextIndex ≤ (ticks .exactReals j v).stageLength := by
    rwa [hidx, ticks_stageLength h0 hj]
  rw [ticks_succ, envTick_exact_level hin, hidx, ticks_inside h0 hj]
  rfl

/-- The tick after the stage's length crosses it. -/
theorem ticks_stageLength_crosses :
    (ticks m v.stageLength v).stageLength < (ticks m v.stageLength v).nextIndex := by
  rw [ticks_nextIndex h0 le_rfl, ticks_stageLength h0 le_rfl]
  exact Nat.lt_succ_self _

theorem ticks_attack_crosses (hs : v.status = .attack) :
    ticks m (v.stageLength + 1) v =
      { v with
        envelopeLevel := v.attackLevel
        envelopeIndex := 0
        status := if 0 < v.holdDuration.toNat then .hold else .decay } := by
  rw [ticks_succ, envTick_attack_crosses ((ticks_status h0 le_rfl).trans hs)
    (ticks_stageLength_crosses h0), ticks_inside h0 le_rfl]

theorem ticks_hold_crosses (hs : v.status = .hold) :
    ticks m (v.stageLength + 1) v =
      { v with envelopeLevel := v.attackLevel, envelopeIndex := 0, status := .decay } := by
  rw [ticks_succ, envTick_hold_crosses ((ticks_status h0 le_rfl).trans hs)
    (ticks_stageLength_crosses h0), ticks_inside h0 le_rfl]

theorem ticks_decay_sustains (hs : v.status = .decay)
    (hsus : m.lt (m.lit 0) v.sustainLevel = true) :
    ticks m (v.stageLength + 1) v =
      { v with envelopeLevel := v.sustainLevel, envelopeIndex := 0, status := .sustain } := by
  have hsus' : m.lt (m.lit 0) (ticks m v.stageLength v).sustainLevel = true := by
    rwa [ticks_inside h0 le_rfl]
  rw [ticks_succ, envTick_decay_sustains ((ticks_status h0 le_rfl).trans hs)
    (ticks_stageLength_crosses h0) hsus', ticks_inside h0 le_rfl]

theorem ticks_decay_retires (hs : v.status = .decay)
    (hsus : ¬ m.lt (m.lit 0) v.sustainLevel = true) :
    (ticks m (v.stageLength + 1) v).velocity = 0 ∧
      (ticks m (v.stageLength + 1) v).envelopeLevel = v.sustainLevel := by
  have hsus' : ¬ m.lt (m.lit 0) (ticks m v.stageLength v).sustainLevel = true := by
    rwa [ticks_inside h0 le_rfl]
  rw [ticks_succ, envTick_decay_retires ((ticks_status h0 le_rfl).trans hs)
    (ticks_stageLength_crosses h0) hsus', ticks_inside h0 le_rfl]
  exact ⟨rfl, rfl⟩

theorem ticks_release_retires (hs : v.status = .release) :
    (ticks m (v.stageLength + 1) v).velocity = 0 ∧
      (ticks m (v.stageLength + 1) v).envelopeLevel = m.lit 0 := by
  rw [ticks_succ, envTick_release_retires ((ticks_status h0 le_rfl).trans hs)
    (ticks_stageLength_crosses h0)]
  exact ⟨rfl, rfl⟩

end

/-! ## The way to SUSTAIN (R147) -/

/-- After exactly `n` ticks the voice is in SUSTAIN for good, or at a zero sustain level retired. -/
def ReachesSustainAt (n : Nat) (v : Voice) : Prop :=
  (∀ k, k < n → (ticks .exactReals k v).velocity = v.velocity ∧
    (ticks .exactReals k v).status ≠ .sustain) ∧
  (0 < v.sustainLevel.toReal → ∀ k,
    (ticks .exactReals (n + k) v).status = .sustain ∧
    (ticks .exactReals (n + k) v).envelopeLevel = v.sustainLevel ∧
    (ticks .exactReals (n + k) v).envelopeIndex = 0 ∧
    (ticks .exactReals (n + k) v).velocity = v.velocity) ∧
  (v.sustainLevel.toReal = 0 → (ticks .exactReals n v).velocity = 0 ∧
    (ticks .exactReals n v).envelopeLevel.toReal = 0)

section
variable {v : Voice} (h0 : v.envelopeIndex = 0)
include h0

/-- A stage put before a voice that reaches SUSTAIN adds its length and the crossing tick. -/
theorem ReachesSustainAt.of_next_stage {n : Nat} {w : Voice} (hs : v.status ≠ .sustain)
    (hw : ticks .exactReals (v.stageLength + 1) v = w) (hvel : w.velocity = v.velocity)
    (hsus : w.sustainLevel = v.sustainLevel) (h : ReachesSustainAt n w) :
    ReachesSustainAt (v.stageLength + 1 + n) v := by
  obtain ⟨hbefore, hsustains, hretires⟩ := h
  rw [hvel] at hbefore hsustains
  rw [hsus] at hsustains hretires
  refine ⟨fun k hk => ?_, fun hpos k => ?_, fun hzero => ?_⟩
  · rcases Nat.lt_or_ge k (v.stageLength + 1) with hlt | hge
    · have hin := Nat.le_of_lt_succ hlt
      exact ⟨ticks_velocity h0 hin, (ticks_status h0 hin).trans_ne hs⟩
    · obtain ⟨j, rfl⟩ := Nat.exists_eq_add_of_le hge
      rw [ticks_add, hw]
      exact hbefore j (by omega)
  · rw [Nat.add_assoc, ticks_add, hw]
    exact hsustains hpos k
  · rw [ticks_add, hw]
    exact hretires hzero

theorem reachesSustainAt_of_decay (hs : v.status = .decay) :
    ReachesSustainAt (v.decayDuration.toNat + 1) v := by
  rw [← Voice.stageLength_of_decay hs]
  refine ⟨fun k hk => ?_, fun hpos k => ?_, fun hzero => ?_⟩
  · have hin := Nat.le_of_lt_succ hk
    exact ⟨ticks_velocity h0 hin, (ticks_status h0 hin).trans_ne (hs.trans_ne nofun)⟩
  · rw [ticks_add, ticks_decay_sustains h0 hs ((exact_zero_lt_iff _).mpr hpos),
      ticks_of_sustained _ rfl rfl]
    exact ⟨rfl, rfl, rfl, rfl⟩
  · obtain ⟨hvel, hlevel⟩ :=
      ticks_decay_retires h0 hs (mt (exact_zero_lt_iff _).mp hzero.not_gt)
    exact ⟨hvel, hlevel ▸ hzero⟩

theorem reachesSustainAt_of_hold (hs : v.status = .hold) :
    ReachesSustainAt (v.holdDuration.toNat + 1 + (v.decayDuration.toNat + 1)) v := by
  rw [← Voice.stageLength_of_hold hs]
  exact .of_next_stage h0 (hs.trans_ne nofun) (ticks_hold_crosses h0 hs) rfl rfl
    (reachesSustainAt_of_decay
      (v := { v with envelopeLevel := v.attackLevel, envelopeIndex := 0, status := .decay })
      rfl rfl)

theorem reachesSustainAt_of_attack (hs : v.status = .attack) :
    ReachesSustainAt (v.attackDuration.toNat + 1 +
      ((if 0 < v.holdDuration.toNat then v.holdDuration.toNat + 1 else 0) +
        (v.decayDuration.toNat + 1))) v := by
  rw [← Voice.stageLength_of_attack hs]
  have hcross := ticks_attack_crosses (m := .exactReals) h0 hs
  by_cases hhold : 0 < v.holdDuration.toNat
  · rw [if_pos hhold] at hcross ⊢
    exact .of_next_stage h0 (hs.trans_ne nofun) hcross rfl rfl (reachesSustainAt_of_hold
      (v := { v with envelopeLevel := v.attackLevel, envelopeIndex := 0, status := .hold })
      rfl rfl)
  · rw [if_neg hhold] at hcross ⊢
    rw [Nat.zero_add]
    exact .of_next_stage h0 (hs.trans_ne nofun) hcross rfl rfl (reachesSustainAt_of_decay
      (v := { v with envelopeLevel := v.attackLevel, envelopeIndex := 0, status := .decay })
      rfl rfl)

end

/-! ## Re-attack (R150) -/

theorem envReattack_stageLength (m : NumMode) (v : Voice) :
    (envReattack m v).stageLength = v.attackDuration.toNat := Voice.stageLength_of_attack rfl

/-- At full level the next tick crosses. -/
theorem envReattack_tick_crosses {v : Voice}
    (hk : (envReattack .exactReals v).envelopeIndex.toNat = v.attackDuration.toNat) :
    (envTick .exactReals (envReattack .exactReals v)).envelopeLevel = v.attackLevel := by
  refine (envTick_crossed ?_).1
  rw [envReattack_stageLength, Voice.nextIndex, hk]
  exact Nat.lt_succ_self _

section
variable {v : Voice} (hal : 0 < v.attackLevel.toReal) (hlow : 0 ≤ v.envelopeLevel.toReal)
  (hhigh : v.envelopeLevel.toReal ≤ v.attackLevel.toReal)
include hal hlow hhigh

/-- The index of a re-attack lies in the attack stage. -/
theorem reattackIndex_mem :
    reattackIndex .exactReals v ∈ Set.Icc (0 : ℤ) v.attackDuration.toNat := by
  rw [reattackIndex, NumMode.exact_floorMulDiv _ _ hal.ne']
  refine ⟨Int.floor_nonneg.mpr (by positivity), ?_⟩
  have hfrac : v.envelopeLevel.toReal / v.attackLevel.toReal ≤ 1 := (div_le_one hal).mpr hhigh
  have hmul := mul_le_of_le_one_right (Nat.cast_nonneg (α := ℝ) v.attackDuration.toNat) hfrac
  exact_mod_cast (Int.floor_le _).trans hmul

theorem envReattack_index :
    ((envReattack .exactReals v).envelopeIndex.toNat : ℤ) =
      ⌊(v.attackDuration.toNat : ℝ) * (v.envelopeLevel.toReal / v.attackLevel.toReal)⌋ := by
  obtain ⟨hnonneg, hle⟩ := reattackIndex_mem hal hlow hhigh
  have hfits := v.attackDuration.isLt
  rw [envReattack, toCounter_toNat hnonneg (by omega), reattackIndex,
    NumMode.exact_floorMulDiv _ _ hal.ne']

/-- Below full level the next tick climbs past the level, by at most one step of the ramp: the index
is the floor of the level's place on the ramp. -/
theorem envReattack_tick_ramps
    (hk : (envReattack .exactReals v).envelopeIndex.toNat < v.attackDuration.toNat) :
    (envTick .exactReals (envReattack .exactReals v)).envelopeLevel.toReal =
        v.attackLevel.toReal *
          (((envReattack .exactReals v).envelopeIndex.toNat + 1 : ℕ) : ℝ) / v.attackDuration.toNat ∧
      v.envelopeLevel.toReal <
        (envTick .exactReals (envReattack .exactReals v)).envelopeLevel.toReal ∧
      (envTick .exactReals (envReattack .exactReals v)).envelopeLevel.toReal ≤
        v.envelopeLevel.toReal + v.attackLevel.toReal / v.attackDuration.toNat := by
  have hA : (0 : ℝ) < v.attackDuration.toNat := by exact_mod_cast Nat.zero_lt_of_lt hk
  have hnext : (envTick .exactReals (envReattack .exactReals v)).envelopeLevel.toReal =
      v.attackLevel.toReal *
        (((envReattack .exactReals v).envelopeIndex.toNat + 1 : ℕ) : ℝ) / v.attackDuration.toNat :=
    envTick_exact_level (hk.trans_eq (envReattack_stageLength _ _).symm)
  have hindex := envReattack_index hal hlow hhigh
  generalize (envReattack .exactReals v).envelopeIndex.toNat = k at hindex hnext
  obtain ⟨hbelow, habove⟩ := Int.floor_eq_iff.mp hindex.symm
  rw [Int.cast_natCast, ← mul_div_assoc] at hbelow habove
  rw [le_div_iff₀ hal] at hbelow
  rw [div_lt_iff₀ hal] at habove
  rw [hnext]
  push_cast
  refine ⟨rfl, ?_, ?_⟩
  · rw [lt_div_iff₀ hA]
    linarith
  · rw [← sub_le_iff_le_add, ← sub_div, div_le_iff₀ hA]
    linarith

end

/-! ## NOTE_OFF (R149) -/

theorem execNoteOff_ready {offset : Counter} {s : State} (note : Note) (vel : Velocity)
    (hc : checkEvent offset s = none) (ha : s.activeInRange = true) :
    execNoteOff offset note vel s = .next (noteOffApply note (advanceTo offset s)) :=
  afterAdvance_ready _ hc ha

theorem noteOffApply_of_found {note : Note} {s : State} {i : Slot} {j : Nat}
    (h : findActive note s = some (i, j)) :
    noteOffApply note s = s.setVoice i (envReleaseEnter (s.voice i)) := by
  rw [noteOffApply, h]

theorem noteOffApply_of_not_found {note : Note} {s : State} (h : findActive note s = none) :
    noteOffApply note s = s := by
  rw [noteOffApply, h]

/-! ## The obligations of the family -/

/-- Settles O16: the event's checks pass, so what is left is NOTE_OFF_APPLY after the span. -/
theorem noteOffReleasesTheHeldNote : Obligations.NoteOffReleasesTheHeldNote := by
  intro offset note vel s hmode hcur hblen hac
  have hrun : exec (.noteOff offset note vel) s = .next (noteOffApply note (advanceTo offset s)) :=
    execNoteOff_ready note vel ((checkEvent_none offset s).mpr ⟨hmode, hcur, hblen⟩)
      (decide_eq_true hac)
  rw [hrun]
  refine ⟨fun i j hfound => ?_, fun hnone => ?_⟩
  · rw [noteOffApply_of_found hfound]
    rfl
  · rw [noteOffApply_of_not_found hnone]

/-- Settles O39, by the ticks inside the attack and the one that crosses it. -/
theorem attackLastsDurationPlusOneTicks : Obligations.AttackLastsDurationPlusOneTicks := by
  intro v hs h0
  have hcross := ticks_attack_crosses (m := .exactReals) h0 hs
  rw [← Voice.stageLength_of_attack hs, hcross]
  refine ⟨fun k hpos hk => ⟨(ticks_status h0 hk).trans hs, ?_, ?_⟩, rfl, rfl, rfl⟩
  · exact Nat.succ_injective (ticks_nextIndex h0 hk)
  · rw [ticks_exact_level h0 hpos hk, Voice.rampLevel, hs, Voice.stageLength_of_attack hs]

/-- Settles O40, by the ticks inside the release and the one that crosses it. -/
theorem releaseRetiresAfterDurationPlusOneTicks :
    Obligations.ReleaseRetiresAfterDurationPlusOneTicks := by
  intro v hs h0 _
  obtain ⟨hvel, hlevel⟩ := ticks_release_retires (m := .exactReals) h0 hs
  rw [← Voice.stageLength_of_release hs]
  refine ⟨fun k hpos hk => ⟨ticks_velocity h0 hk, ?_⟩, hvel, ?_⟩
  · rw [ticks_exact_level h0 hpos hk, Voice.rampLevel, hs, Voice.stageLength_of_release hs]
  · rw [hlevel]
    simp

/-- Settles O41, stage by stage: DECAY first, then what comes before it. -/
theorem freshVoiceReachesSustainOnTime : Obligations.FreshVoiceReachesSustainOnTime := by
  intro v hs h0 _
  dsimp only
  rw [Nat.add_assoc]
  exact reachesSustainAt_of_attack h0 hs

/-- Settles O43: a tick inside a stage stays on its ramp, a crossing one lands on its target. -/
theorem tickKeepsTheVoiceRanges : Obligations.TickKeepsTheVoiceRanges := by
  intro v hv
  obtain ⟨hlow, hhigh⟩ := hv.envTick_level_mem
  exact ⟨hlow, hhigh, hv.after_envTick⟩

/-- Settles O44, by the place of the level between two steps of the ramp. -/
theorem reattackIsContinuous : Obligations.ReattackIsContinuous := by
  intro v hal hlow hhigh
  have hindex := envReattack_index hal hlow hhigh
  obtain ⟨-, hle⟩ := reattackIndex_mem hal hlow hhigh
  rw [reattackIndex, NumMode.exact_floorMulDiv _ _ hal.ne', ← hindex] at hle
  exact ⟨hindex, by exact_mod_cast hle, envReattack_tick_ramps hal hlow hhigh,
    fun hk => congrArg Scalar.toReal (envReattack_tick_crosses hk)⟩

/-- Settles O34, by the two ticks of ATTACK. -/
theorem attackTickRampsOrSnaps : Obligations.AttackTickRampsOrSnaps := by
  intro v hs
  rw [← Voice.stageLength_of_attack hs]
  refine ⟨envTick_attack_crosses hs, fun h => ⟨envTick_inside h, ?_⟩⟩
  rw [envTick_exact_level h, Voice.rampLevel, hs, Voice.stageLength_of_attack hs]
  rfl

/-- Settles O35, by the two ticks of HOLD. -/
theorem holdTickKeepsAttackLevel : Obligations.HoldTickKeepsAttackLevel := by
  intro v hs
  rw [← Voice.stageLength_of_hold hs]
  exact ⟨envTick_hold_crosses hs, envTick_hold_stays hs⟩

/-- Settles O36: the ramp, and the crossing by the sign of the sustain level. -/
theorem decayTickRampsSnapsOrRetires : Obligations.DecayTickRampsSnapsOrRetires := by
  intro v hs
  rw [← Voice.stageLength_of_decay hs]
  refine ⟨fun h hpos => ?_, fun h hzero hfits => ?_, fun h => ⟨envTick_inside h, ?_⟩⟩
  · exact envTick_decay_sustains hs h ((exact_zero_lt_iff _).mpr hpos)
  · rw [envTick_decay_retires hs h (mt (exact_zero_lt_iff _).mp hzero.not_gt),
      Voice.toCounter_nextIndex hfits]
  · rw [envTick_exact_level h, Voice.rampLevel, hs, Voice.stageLength_of_decay hs]
    rfl

/-- Settles O37: SUSTAIN has one kind of tick. -/
theorem sustainTickHoldsTheLevel : Obligations.SustainTickHoldsTheLevel :=
  fun _ _ => envTick_sustain_stays

/-- Settles O38, by the two ticks of RELEASE. -/
theorem releaseTickRampsOrRetires : Obligations.ReleaseTickRampsOrRetires := by
  intro v hs
  rw [← Voice.stageLength_of_release hs]
  refine ⟨fun h hfits => ?_, fun h => ⟨envTick_inside h, ?_⟩⟩
  · rw [envTick_release_retires hs h, Voice.toCounter_nextIndex hfits]
    rfl
  · rw [envTick_exact_level h, Voice.rampLevel, hs, Voice.stageLength_of_release hs]
    rfl

end Sys2Proof.Machine
end

section
/-! The operations of the voice pool, each said once: FIND_ACTIVE, ALLOCATE, RETIRE, the fresh voice
and the re-attack (42_voice_allocator.md R170 to R175, R180). -/

namespace Sys2Proof.Machine

/-! ## FIND_ACTIVE -/

theorem findActive_eq_some_iff {note : Note} {s : State} {i : Slot} {j : Nat} :
    findActive note s = some (i, j) ↔
      s.activeList[j]? = some i ∧ (s.voice i).note = note ∧
      ∀ k, k < j → ∀ n, s.activeList[k]? = some n → (s.voice n).note ≠ note := by
  rw [findActive, List.find?_eq_some_iff_getElem]
  simp only [List.getElem_zipIdx, List.length_zipIdx, Prod.mk.injEq, List.getElem?_eq_some_iff,
    decide_eq_true_eq, Bool.not_eq_true', decide_eq_false_iff_not, Nat.zero_add]
  constructor
  · rintro ⟨hnote, _, hlt, ⟨hi, rfl⟩, hbefore⟩
    refine ⟨⟨hlt, hi⟩, hnote, fun k hk n => ?_⟩
    rintro ⟨_, rfl⟩
    exact hbefore k hk
  · rintro ⟨⟨hlt, hi⟩, hnote, hbefore⟩
    exact ⟨hnote, j, hlt, ⟨hi, rfl⟩, fun k hk => hbefore k hk _ ⟨hk.trans hlt, rfl⟩⟩

theorem mem_activeList_of_findActive {note : Note} {s : State} {i : Slot} {j : Nat}
    (h : findActive note s = some (i, j)) : i ∈ s.activeList :=
  List.mem_of_getElem? (findActive_some h).1

/-! ## ALLOCATE -/

theorem firstFree_eq_some_iff {s : State} {i : Slot} :
    firstFree s = some i ↔
      (s.voice i).velocity = 0 ∧ ∀ k, k < i → (s.voice k).velocity ≠ 0 := by
  have hslot (k : Slot) : BitVec.ofNat 7 k.toNat = k := by
    rw [BitVec.ofNat_toNat, BitVec.setWidth_eq]
  rw [firstFree, allSlots, List.find?_map, Option.map_eq_some_iff]
  simp only [List.find?_range_eq_some, Function.comp_apply, Voice.isFree, decide_eq_true_eq,
    List.mem_range, Bool.not_eq_true', decide_eq_false_iff_not]
  constructor
  · rintro ⟨n, ⟨hfree, hn, hbelow⟩, rfl⟩
    refine ⟨hfree, fun k hk => ?_⟩
    rw [BitVec.lt_def, BitVec.toNat_ofNat, Nat.mod_eq_of_lt hn] at hk
    have hoccupied := hbelow k.toNat hk
    rwa [hslot] at hoccupied
  · rintro ⟨hfree, hbelow⟩
    refine ⟨i.toNat, ⟨by rwa [hslot], i.isLt, fun n hn => hbelow _ ?_⟩, hslot i⟩
    rwa [BitVec.lt_def, BitVec.toNat_ofNat, Nat.mod_eq_of_lt (hn.trans i.isLt)]

theorem activeList_length_of_le {s : State} (h : s.ac.toNat ≤ 128) :
    s.activeList.length = s.ac.toNat := by
  rw [activeList_length, min_eq_left h]

theorem appendActive_ac {s : State} (i : Slot) (h : s.ac.toNat ≤ 128) :
    (appendActive i s).ac = s.ac + 1 := by
  rw [appendActive, setActive_ac, List.length_append, List.length_singleton,
    activeList_length_of_le h, BitVec.ofNat_add, BitVec.ofNat_toNat, BitVec.setWidth_eq]
  rfl

@[simp] theorem appendActive_voice (i k : Slot) (s : State) :
    (appendActive i s).voice k = s.voice k := rfl

/-! ## RETIRE -/

theorem retire_ac {j : Nat} {s : State} (h : s.ac.toNat ≤ 128) (hj : j < s.ac.toNat) :
    (retire j s).ac.toNat + 1 = s.ac.toNat := by
  have hlen := activeList_length_of_le h
  rw [retire, setActive_ac, List.length_eraseIdx_of_lt (hlen ▸ hj), hlen, BitVec.toNat_ofNat]
  omega

/-! ## The fresh voice -/

theorem noteOnFresh_voice_self (i : Slot) (note : Note) (vel : Velocity) (s : State) :
    (noteOnFresh i note vel s).voice i =
      envInit s.params s.snap (oscSeed s.params s.fs note
        { s.voice i with note := note, velocity := vel }) :=
  setVoice_voice_self s i _

theorem noteOnFresh_voice_ne {i k : Slot} (note : Note) (vel : Velocity) (s : State) (h : k ≠ i) :
    (noteOnFresh i note vel s).voice k = s.voice k :=
  setVoice_voice_ne s _ h.symm

@[simp] theorem noteOnFresh_activeList (i : Slot) (note : Note) (vel : Velocity) (s : State) :
    (noteOnFresh i note vel s).activeList = s.activeList := rfl

/-! ## NOTE_ON and the events of unrecognised kind -/

theorem noteOnApply_of_found {note : Note} (vel : Velocity) {s : State} {i : Slot} {j : Nat}
    (h : findActive note s = some (i, j)) :
    noteOnApply note vel s = .next (s.setVoice i (envReattack s.params.num (s.voice i))) := by
  rw [noteOnApply, h]

theorem noteOnApply_of_free {note : Note} (vel : Velocity) {s : State} {i : Slot}
    (hnone : findActive note s = none) (hfree : firstFree s = some i) (hroom : s.ac.toNat < 128) :
    noteOnApply note vel s = .next (noteOnFresh i note vel (appendActive i s)) := by
  rw [noteOnApply, hnone, hfree]
  exact if_pos hroom

/-- NOTE_ON of a velocity that is not 0, once its checks pass, is its event after the
span (R173). -/
theorem exec_noteOn_ready {offset : Counter} {vel : Velocity} {s : State} (note : Note)
    (hmode : s.mode = .inBlock) (hcur : s.cur ≤ offset) (hblen : offset < s.blen)
    (hac : s.ac.toNat ≤ 128) (hvel : vel ≠ 0) :
    exec (.noteOn offset note vel) s = noteOnApply note vel (advanceTo offset s) := by
  have hc := (checkEvent_none offset s).mpr ⟨hmode, hcur, hblen⟩
  calc exec (.noteOn offset note vel) s = afterAdvance offset (noteOnApply note vel) s :=
        if_neg hvel
    _ = noteOnApply note vel (advanceTo offset s) := afterAdvance_ready _ hc (decide_eq_true hac)

theorem checkEvent_offsetOrder {offset : Counter} {s : State} (hmode : s.mode = .inBlock)
    (h : offset < s.cur ∨ s.blen ≤ offset) : checkEvent offset s = some .offsetOrder := by
  rw [checkEvent, if_neg (not_not.mpr hmode), if_pos h]

theorem execNoteOn_refuse {s : State} (offset : Counter) (note : Note)
    (h : s.params.vel0Policy = .refuse) :
    execNoteOn offset note 0 s = .refused ((checkEvent offset s).getD .velocityZero) := by
  rw [execNoteOn, if_pos rfl, h]

theorem execNoteOn_asNoteOff {s : State} (offset : Counter) (note : Note) (vel : Velocity)
    (h : s.params.vel0Policy = .asNoteOff) :
    execNoteOn offset note 0 s = execNoteOff offset note vel s := by
  rw [execNoteOn, if_pos rfl, h, execNoteOff]

theorem ignoreEvent_inBlock {s : State} (h : s.mode = .inBlock) : ignoreEvent s = .next s :=
  if_neg (not_not.mpr h)

theorem ignoreEvent_wrongMode {s : State} (h : s.mode ≠ .inBlock) :
    ignoreEvent s = .refused .wrongMode :=
  if_pos h

/-! ## The polyphony ceiling -/

/-- R180: with every slot occupied the 128 notes are all held, since INV5 makes slot to note an
injection of a finite set into one of its size. -/
theorem PoolInv.exists_free {s : State} (hs : PoolInv s) {note : Note}
    (hnone : findActive note s = none) : ∃ i, (s.voice i).velocity = 0 := by
  by_contra! hfull
  have hactive (i : Slot) : i ∈ s.activeList := hs.occupiedActive i (hfull i)
  have hinj : Function.Injective fun i : Slot => (s.voice i).note :=
    fun i k => hs.notesDistinct i (hactive i) k (hactive k)
  have hfin : Finite (BitVec 7) := Finite.of_injective BitVec.toFin fun _ _ => BitVec.eq_of_toFin_eq
  obtain ⟨i, hi⟩ := Finite.injective_iff_surjective.mp hinj note
  exact findActive_none.mp hnone i (hactive i) hi

/-! ## The obligations about the pool and the note events -/

/-- Settles O53, by the first match of a search over the list with its positions. -/
theorem findActiveReturnsTheFirstMatch : Obligations.FindActiveReturnsTheFirstMatch :=
  fun _ _ => ⟨fun _ _ => findActive_eq_some_iff, findActive_none⟩

/-- Settles O54, by the first match of a search over the slots in rising order. -/
theorem allocateTakesTheLowestFreeSlot : Obligations.AllocateTakesTheLowestFreeSlot :=
  fun _ => ⟨fun _ => firstFree_eq_some_iff, firstFree_none,
    fun i h => ⟨appendActive_activeList i h, appendActive_ac i h.le, rfl⟩⟩

/-- Settles O55: the list is made again without entry `j`. -/
theorem retireRemovesOneEntry : Obligations.RetireRemovesOneEntry :=
  fun j s h hj => ⟨retire_activeList j s, retire_ac h hj, rfl⟩

/-- Settles O56, by counting notes, and then slots. -/
theorem unheldNoteAlwaysFindsAFreeSlot : Obligations.UnheldNoteAlwaysFindsAFreeSlot := by
  intro note s hs hnone
  obtain ⟨i, hi⟩ := hs.exists_free hnone
  refine ⟨?_, hs.room_of_free hi⟩
  rw [← Option.isSome_iff_exists, Option.isSome_iff_ne_none, ne_eq, firstFree_none]
  exact fun hfull => hfull i hi

/-- Settles O17: the checks pass, so what is left is ALLOCATE and NOTE_ON_FRESH after the span. -/
theorem noteOnStartsAFreshVoice : Obligations.NoteOnStartsAFreshVoice := by
  intro offset note vel s u i hmode hcur hblen hac hvel hu hnone hfree hroom
  have hrun : exec (.noteOn offset note vel) s =
      .next (noteOnFresh i note vel (appendActive i u)) := by
    rw [exec_noteOn_ready note hmode hcur hblen hac hvel, ← hu,
      noteOnApply_of_free vel hnone hfree hroom]
  refine ⟨_, hrun, ?_, appendActive_ac i hroom.le, ?_, fun k hk => ?_, rfl⟩
  · rw [noteOnFresh_activeList, appendActive_activeList i hroom]
  · rw [noteOnFresh_voice_self]
    rfl
  · rw [noteOnFresh_voice_ne _ _ _ hk, appendActive_voice]

/-- Settles O18: what is left after the span is the re-attack, whose index is the real floor. -/
theorem noteOnReattacksTheHeldNote : Obligations.NoteOnReattacksTheHeldNote := by
  intro offset note vel s u i j hmode hcur hblen hac hvel hu hfound
  have hrun : exec (.noteOn offset note vel) s =
      .next (u.setVoice i (envReattack u.params.num (u.voice i))) := by
    rw [exec_noteOn_ready note hmode hcur hblen hac hvel, ← hu, noteOnApply_of_found vel hfound]
  have hparams : u.params = s.params := hu ▸ (advanceTo_same offset s).1.params
  refine ⟨(envReattack u.params.num (u.voice i)).envelopeIndex, hrun, fun hexact => ?_⟩
  rw [hparams, hexact]
  exact envReattack_index

/-- Settles O20, by the policy, and under `refuse` by the two checks before it. -/
theorem noteOnOfVelocityZeroFollowsThePolicy :
    Obligations.NoteOnOfVelocityZeroFollowsThePolicy := by
  intro offset note vel s
  refine ⟨execNoteOn_asNoteOff offset note vel, fun hrefuse => ?_⟩
  have hrun : exec (.noteOn offset note 0) s =
      .refused ((checkEvent offset s).getD .velocityZero) := execNoteOn_refuse offset note hrefuse
  rw [hrun]
  refine ⟨fun hmode => ?_, fun hmode horder => ?_, fun hmode hcur hblen => ?_⟩
  · rw [checkEvent_wrongMode offset hmode, Option.getD_some]
  · rw [checkEvent_offsetOrder hmode horder, Option.getD_some]
  · rw [(checkEvent_none offset s).mpr ⟨hmode, hcur, hblen⟩, Option.getD_none]

/-- Settles O23: the arms of all seven rows are the one check of `MODE`. -/
theorem unrecognisedEventsChangeNothing : Obligations.UnrecognisedEventsChangeNothing := by
  rintro r s i (⟨k, rfl⟩ | ⟨k, rfl⟩ | ⟨k, rfl⟩ | ⟨k, rfl⟩ | ⟨k, rfl⟩ | ⟨k, rfl⟩ | ⟨k, rfl⟩) <;>
    exact ⟨ignoreEvent_inBlock, ignoreEvent_wrongMode⟩

end Sys2Proof.Machine
end

section
/-! The pool invariant INV1 to INV5 is kept by every step (10_state.md R27, 42_voice_allocator.md
R179). -/

namespace Sys2Proof.Machine

/-! ## Writes to the pool -/

/-- An empty list and 128 free slots: the pool after INIT and after RST. -/
theorem PoolInv.of_all_free {s : State} (hac : s.ac = 0) (hfree : ∀ i, (s.voice i).velocity = 0) :
    PoolInv s := by
  have hlist : s.activeList = [] := by rw [State.activeList, hac]; rfl
  constructor
  case countBound => simp [hac]
  case occupiedActive => exact fun i hi => absurd (hfree i) hi
  all_goals simp [hlist]

/-- A field that a voice write does not change reads in every slot as before. -/
theorem setVoice_voice_field {α : Type} (field : Voice → α) {s : State} {i : Slot} {v : Voice}
    (h : field v = field (s.voice i)) (k : Slot) :
    field ((s.setVoice i v).voice k) = field (s.voice k) := by
  by_cases hk : i = k
  · rw [← hk, setVoice_voice_self, h]
  · rw [setVoice_voice_ne s v hk]

section
variable {s : State} (hs : PoolInv s)
include hs

/-- Writing a voice without changing its note or velocity keeps the pool: the re-attack and the
release. -/
theorem PoolInv.after_setVoice {i : Slot} {v : Voice} (hnote : v.note = (s.voice i).note)
    (hvel : v.velocity = (s.voice i).velocity) : PoolInv (s.setVoice i v) := by
  have note_eq := setVoice_voice_field Voice.note hnote
  have velocity_eq := setVoice_voice_field Voice.velocity hvel
  obtain ⟨hcount, hdistinct, hoccupied, hactive, hnotes⟩ := hs
  constructor <;> simpa only [note_eq, velocity_eq, setVoice_activeList, setVoice_ac]

/-- A fresh voice in a free slot, for a note nobody holds, keeps the pool (R174). -/
theorem PoolInv.after_noteOnFresh {i : Slot} {note : Note} {vel : Velocity} (hvel : vel ≠ 0)
    (hnone : findActive note s = none) (hfree : (s.voice i).velocity = 0) :
    PoolInv (noteOnFresh i note vel (appendActive i s)) := by
  have hroom := hs.room_of_free hfree
  have hnew : i ∉ s.activeList := fun h => hs.activeOccupied i h hfree
  have hlist : (noteOnFresh i note vel (appendActive i s)).activeList = s.activeList ++ [i] :=
    appendActive_activeList i hroom
  have mem_iff (k : Slot) : k ∈ (noteOnFresh i note vel (appendActive i s)).activeList ↔
      k ∈ s.activeList ∨ k = i := by
    rw [hlist, List.mem_append, List.mem_singleton]
  have old {k : Slot} (hk : k ∈ s.activeList) :
      (noteOnFresh i note vel (appendActive i s)).voice k = s.voice k :=
    noteOnFresh_voice_ne _ _ _ (ne_of_mem_of_not_mem hk hnew)
  have new_note : ((noteOnFresh i note vel (appendActive i s)).voice i).note = note := by
    rw [noteOnFresh_voice_self]; rfl
  have unheld := findActive_none.mp hnone
  constructor
  case countBound =>
    show (appendActive i s).ac.toNat ≤ 128
    calc (appendActive i s).ac.toNat = (s.ac.toNat + 1) % 256 := by
          rw [appendActive_ac i hroom.le]; exact BitVec.toNat_add _ _
      _ ≤ 128 := by omega
  case distinct =>
    rw [hlist, ← List.concat_eq_append]
    exact hs.distinct.concat hnew
  case activeOccupied =>
    intro k hk
    obtain hk | rfl := (mem_iff k).mp hk
    · rw [old hk]
      exact hs.activeOccupied k hk
    · rw [noteOnFresh_voice_self]
      exact hvel
  case occupiedActive =>
    intro k hk
    rw [mem_iff]
    by_cases hki : k = i
    · exact .inr hki
    · rw [noteOnFresh_voice_ne _ _ _ hki] at hk
      exact .inl (hs.occupiedActive k hk)
  case notesDistinct =>
    intro k hk n hn hnote
    obtain hk' | rfl := (mem_iff k).mp hk <;> obtain hn' | rfl := (mem_iff n).mp hn
    · rw [old hk', old hn'] at hnote
      exact hs.notesDistinct k hk' n hn' hnote
    · rw [old hk', new_note] at hnote
      exact absurd hnote (unheld k hk')
    · rw [old hn', new_note] at hnote
      exact absurd hnote.symm (unheld n hn')
    · rfl

/-! ## The commands -/

theorem PoolInv.after_noteOffApply (note : Note) : PoolInv (noteOffApply note s) := by
  obtain ⟨i, j, -, h⟩ | ⟨-, h⟩ := noteOffApply_cases note s
  · rw [h]
    exact hs.after_setVoice rfl rfl
  · rwa [h]

theorem PoolInv.after_noteOnApply {note : Note} {vel : Velocity} {t : State} (hvel : vel ≠ 0)
    (h : noteOnApply note vel s = .next t) : PoolInv t := by
  obtain ⟨i, j, -, rfl⟩ | ⟨-, -, rfl⟩ | ⟨i, hnone, hfree, -, rfl⟩ := noteOnApply_next h
  · exact hs.after_setVoice rfl rfl
  · exact hs
  · exact hs.after_noteOnFresh hvel hnone (firstFree_some hfree)

theorem PoolInv.after_exec {i : Instr} {t : State} (h : exec i s = .next t) : PoolInv t := by
  cases i with
  | init fs =>
    obtain ⟨-, -, rfl⟩ := execInit_next h
    exact .of_all_free rfl fun i => congrArg Voice.velocity (freeAllVoices_voice (s.setFs fs) i)
  | block n =>
    obtain ⟨-, x, -, rfl⟩ := execBlock_next h
    exact hs.of_same_pool rfl rfl rfl
  | noteOff offset note vel =>
    obtain ⟨-, -, rfl⟩ := execNoteOff_next (vel := vel) h
    exact (hs.after_advance offset).after_noteOffApply note
  | noteOn offset note vel =>
    obtain ⟨-, -, ⟨-, rfl⟩ | ⟨hvel, happly⟩⟩ := execNoteOn_next h
    · exact (hs.after_advance offset).after_noteOffApply note
    · exact (hs.after_advance offset).after_noteOnApply hvel happly
  | endBlock =>
    obtain ⟨-, -, rfl⟩ := execEnd_next h
    exact (hs.after_advance s.blen).of_same_pool rfl rfl rfl
  | _ =>
    obtain ⟨-, rfl⟩ := ignoreEvent_next h
    exact hs

end

/-! ## One step -/

theorem assertReset_voice (s : State) (i : Slot) : s.assertReset.voice i = resetVoice := by
  simp [State.voice, State.assertReset, State.reset]

theorem assertReset_poolInv (s : State) : PoolInv s.assertReset :=
  .of_all_free rfl fun i => congrArg Voice.velocity (assertReset_voice s i)

/-- Settles O57, by what a step can do: a command keeps the pool, a host write leaves it alone, and
RST empties it. -/
theorem everyStepKeepsThePoolInvariant : Obligations.EveryStepKeepsThePoolInvariant := by
  intro s t hs h
  obtain ⟨-, rfl⟩ | ⟨w, rest, i, -, -, hexec⟩ | ⟨port, x, rest, -, rfl⟩ | ⟨c, k, x, rest, -, rfl⟩ |
    ⟨rest, -, rfl⟩ := step_next h
  · exact hs
  · have htaken : PoolInv (s.setStream rest) := hs.of_same_pool rfl rfl rfl
    exact htaken.after_exec hexec
  · exact hs.of_same_pool rfl rfl rfl
  · cases c <;> exact hs.of_same_pool rfl rfl rfl
  · exact assertReset_poolInv _

end Sys2Proof.Machine
end

section
/-! What SNAPSHOT latches, over the reals (44_parameter_snapshot.md R220 to R226). -/

namespace Sys2Proof

/-! ## The master gain -/

theorem GainLaw.toReal_pos (law : GainLaw) (x : ℝ) : 0 < law.toReal x := by
  cases law with
  | decibel => exact Real.rpow_pos_of_pos (by norm_num) _
  | other n =>
    rw [GainLaw.toReal]
    split
    · exact one_pos
    · exact Real.exp_pos _

theorem GainLaw.toReal_zero (law : GainLaw) : law.toReal 0 = 1 := by
  cases law <;> simp [GainLaw.toReal]

/-- The amplitude of one gain factor is that gain. -/
theorem gainTerm_real (law : GainLaw) (x : Datum) :
    (Amp.ofTerms [⟨[.gain law x], 0, 0, 1⟩]).toReal = law.toReal x.toReal := by
  simp [ofTerms_real, Term.plain_real, Factor.toReal]

theorem exactGain_real (law : GainLaw) (x : Datum) :
    (exactGain law x).toReal = law.toReal x.toReal := by
  cases law with
  | other n => exact gainTerm_real (.other n) x
  | decibel =>
    cases x with
    | named n => exact gainTerm_real .decibel (.named n)
    | rational q => simp [exactGain, tenToThe_real, GainLaw.toReal, Datum.toReal]

/-- `DB2LIN` in exact arithmetic is the real gain of the law (R221). -/
theorem gainOfDecibels_exact_real (law : GainLaw) (x : Datum) :
    (gainOfDecibels .exactReals law x).toReal = law.toReal x.toReal := by
  rw [gainOfDecibels]
  split
  · rename_i h
    rw [Datum.isZero_iff] at h
    rw [h, GainLaw.toReal_zero, NumMode.exact_ampLit, Amp.ofRat_real, Rat.cast_one]
  · exact exactGain_real law x

namespace Machine

/-! ## Legal samples -/

theorem atLeast_exact_iff (lo : Rat) (x : Datum) :
    atLeast .exactReals lo x = true ↔ (lo : ℝ) ≤ x.toReal := by
  simp [atLeast]

theorem atMost_exact_iff (hi : Rat) (x : Datum) :
    atMost .exactReals hi x = true ↔ x.toReal ≤ (hi : ℝ) := by
  simp [atMost]

/-- R226 (b) to (d) over the reals. -/
theorem PortSample.legal_exact_iff (x : PortSample) :
    x.legal .exactReals = true ↔
      (-1 ≤ x.panning.toReal ∧ x.panning.toReal ≤ 1) ∧
      (0 ≤ x.sustainLevel.toReal ∧ x.sustainLevel.toReal ≤ 1) ∧
      0 ≤ x.attackMs.toReal ∧ 0 ≤ x.holdMs.toReal ∧ 0 ≤ x.decayMs.toReal ∧
      0 ≤ x.releaseMs.toReal := by
  simp only [PortSample.legal, Bool.and_eq_true, atLeast_exact_iff, atMost_exact_iff, Rat.cast_neg,
    Rat.cast_one, Rat.cast_zero, and_assoc]

theorem PortSample.durationsFit_iff (m : NumMode) (fs : Counter) (x : PortSample) :
    x.durationsFit m fs = true ↔
      durSamples m fs x.attackMs ≤ maxDuration ∧ durSamples m fs x.holdMs ≤ maxDuration ∧
      durSamples m fs x.decayMs ≤ maxDuration ∧ durSamples m fs x.releaseMs ≤ maxDuration := by
  simp only [PortSample.durationsFit, Bool.and_eq_true, decide_eq_true_eq, and_assoc]

/-! ## Stage lengths -/

theorem durSamples_exact (fs : Counter) (ms : Datum) :
    durSamples .exactReals fs ms = ⌊ms.toReal * fs.toNat / 1000⌋ := by
  rw [durSamples, NumMode.exact_floor, Scalar.floor_real]
  simp only [NumMode.exact_div, NumMode.exact_mul, NumMode.exact_lit]
  rw [Scalar.div_ofRat_real _ (by norm_num), Scalar.mul_ofRat_real, Datum.toScalar_real]
  norm_num

/-- A time that is not negative and fits is stored as it is (R223, R226 (e)). -/
theorem toCounter_durSamples {fs : Counter} {ms : Datum} (h0 : 0 ≤ ms.toReal)
    (hfits : durSamples .exactReals fs ms ≤ maxDuration) :
    ((toCounter (durSamples .exactReals fs ms)).toNat : ℤ) = ⌊ms.toReal * fs.toNat / 1000⌋ := by
  have hnonneg : 0 ≤ durSamples .exactReals fs ms := by
    rw [durSamples_exact]
    exact Int.floor_nonneg.mpr (by positivity)
  rw [toCounter_toNat hnonneg (hfits.trans_lt (by norm_num [maxDuration])), durSamples_exact]

theorem toCounter_durSamples_le {fs : Counter} {ms : Datum} (h0 : 0 ≤ ms.toReal)
    (hfits : durSamples .exactReals fs ms ≤ maxDuration) :
    (toCounter (durSamples .exactReals fs ms)).toNat ≤ 2 ^ 32 - 2 := by
  have hstored := toCounter_durSamples h0 hfits
  rw [← durSamples_exact] at hstored
  unfold maxDuration at hfits
  omega

/-! ## The registers -/

/-- A legal sample whose stages fit gives registers in their ranges. -/
theorem snapshotOf_snapInv {p : Params} {fs : Counter} {x : PortSample} (hp : p.num = .exactReals)
    (hlegal : x.legal p.num = true) (hfits : x.durationsFit p.num fs = true) :
    SnapInv (snapshotOf p fs x) := by
  rw [hp, PortSample.legal_exact_iff] at hlegal
  rw [hp, PortSample.durationsFit_iff] at hfits
  obtain ⟨-, ⟨hsus0, hsus1⟩, hatt, hhld, hdec, hrel⟩ := hlegal
  obtain ⟨fatt, fhld, fdec, frel⟩ := hfits
  unfold snapshotOf
  rw [hp]
  exact {
    volPositive := (gainOfDecibels_exact_real p.gainLaw x.volumeDb).symm ▸ GainLaw.toReal_pos _ _
    susNonneg := (Datum.toScalar_real x.sustainLevel).symm ▸ hsus0
    susBound := (Datum.toScalar_real x.sustainLevel).symm ▸ hsus1
    attFits := toCounter_durSamples_le hatt fatt
    hldFits := toCounter_durSamples_le hhld fhld
    decFits := toCounter_durSamples_le hdec fdec
    relFits := toCounter_durSamples_le hrel frel }

end Machine
end Sys2Proof
end

section
/-! The engine invariant is kept by every step in exact arithmetic (10_state.md R22, R27, R28,
42_voice_allocator.md R179). -/

namespace Sys2Proof.Machine

/-! ## The ranges of one voice -/

section
variable {v : Voice} (hv : VoiceInv v)
include hv

theorem VoiceInv.after_advancePhase :
    VoiceInv { v with phase := advancePhase .exactReals v.phase v.phaseIncrement } := by
  have hphase := advancePhase_exact_real hv.phaseAdds
  exact { hv with
    phaseNonneg := hphase ▸ realMod_nonneg _ (by norm_num)
    phaseBound := hphase ▸ realMod_lt _ (by norm_num)
    phaseAdds := advancePhase_exact_summable hv.phaseAdds }

/-- VOICE_STEP keeps the ranges or frees the voice. -/
theorem VoiceInv.after_voiceTick {x : Snapshot}
    (h : (voiceTick .exactReals x v).2.velocity ≠ 0) : VoiceInv (voiceTick .exactReals x v).2 := by
  rw [voiceTick_voice] at h ⊢
  exact hv.after_advancePhase.after_envTick h

theorem VoiceInv.after_envReleaseEnter : VoiceInv (envReleaseEnter v) :=
  { hv with
    releasedRange := fun _ => ⟨hv.levelNonneg, hv.levelBound⟩
    index := Nat.zero_le _ }

theorem VoiceInv.after_envReattack : VoiceInv (envReattack .exactReals v) := by
  have hlevel := reattackIndex_mem hv.attackPositive hv.levelNonneg hv.levelBound
  have hindex := envReattack_index hv.attackPositive hv.levelNonneg hv.levelBound
  rw [reattackIndex, NumMode.exact_floorMulDiv _ _ hv.attackPositive.ne', ← hindex] at hlevel
  exact { hv with
    releasedRange := nofun
    index := Int.ofNat_le.mp hlevel.2 }

end

/-- A fresh voice, from a legal snapshot and a positive increment (R174, 41_envelope.md R151). -/
theorem freshVoice_voiceInv {p : Params} {x : Snapshot} {fs : Counter} {note : Note} {v : Voice}
    (hp : p.num = .exactReals) (hal : 1 ≤ p.attackLevel.toReal) (hx : SnapInv x)
    (hinc : 0 < (noteIncrement p fs note).toReal) :
    VoiceInv (envInit p x (oscSeed p fs note v)) := by
  have hlevel : (p.num.lit 0).toReal = 0 := by simp [hp]
  have hphase : p.num.pitchLit 0 = .ofRat 0 := by rw [hp]; rfl
  have hattack : 1 ≤ p.attackLevel.toScalar.toReal := by rwa [Datum.toScalar_real]
  exact {
    attackPositive := one_pos.trans_le hattack
    levelNonneg := hlevel.ge
    levelBound := hlevel.le.trans (zero_le_one.trans hattack)
    sustainNonneg := hx.susNonneg
    sustainBound := hx.susBound.trans hattack
    releasedRange := nofun
    attackFits := hx.attFits
    holdFits := hx.hldFits
    decayFits := hx.decFits
    releaseFits := hx.relFits
    index := Nat.zero_le _
    phaseNonneg := by simp [envInit, oscSeed, hphase]
    phaseBound := by simp [envInit, oscSeed, hphase]
    incrementPositive := hinc
    phaseAdds := .inl (congrArg Pitch.coef hphase) }

/-! ## The engine between commands -/

section
variable {s : State} (hs : EngineInv s)
include hs

theorem EngineInv.buffers : BuffersCanonical s := ⟨hs.outlCanonical, hs.outrCanonical⟩

theorem EngineInv.noteIncrement_pos (hmode : s.mode ≠ .uninit) (note : Note) :
    0 < (noteIncrement s.params s.fs note).toReal := by
  have hrate := hs.rate hmode
  have hfs : (0 : ℝ) < s.fs.toNat := by
    rw [Nat.cast_pos, Nat.pos_iff_ne_zero]
    exact fun h => hrate (BitVec.eq_of_toNat_eq h)
  rw [noteIncrement_exact_real note hs.exactNum hrate]
  exact div_pos (mul_pos (by norm_num) (hs.frequencies ⟨note.toNat, note.isLt⟩)) hfs

/-- What is left to show of a machine that has the registers of `s`. -/
theorem EngineInv.of_same_outside {t : State} (h : SameOutside s t) (hpool : PoolInv t)
    (hvoices : ∀ i ∈ t.activeList, VoiceInv (t.voice i)) (hcursor : t.cur = s.cur)
    (hbuffers : BuffersCanonical t) : EngineInv t where
  pool := hpool
  voices := hvoices
  cursor := by rw [hcursor, h.blen]; exact hs.cursor
  rate := by rw [h.mode, h.fs]; exact hs.rate
  snap := by rw [h.mode, h.snap]; exact hs.snap
  outlCanonical := hbuffers.1
  outrCanonical := hbuffers.2
  frequencies := by rw [h.params]; exact hs.frequencies
  attackLevel := by rw [h.params]; exact hs.attackLevel
  exactNum := by rw [h.params]; exact hs.exactNum

/-! ## A span -/

theorem EngineInv.after_sample (k : Nat) : EngineInv (renderSample k s) := by
  obtain ⟨hsame, hcur, -⟩ := renderSample_same k s
  refine hs.of_same_outside hsame (hs.pool.after_sample k) (fun i hi => ?_) hcur
    (renderSample_wf k s hs.outlCanonical hs.outrCanonical)
  obtain ⟨hmem, hvel⟩ := (hs.pool.mem_renderSample_activeList k i).mp hi
  rw [hs.exactNum] at hvel
  rw [hs.pool.renderSample_voice, if_pos hmem, hs.exactNum]
  exact (hs.voices i hmem).after_voiceTick hvel

/-- EVENT_ADVANCE up to an offset that the block has. -/
theorem EngineInv.after_advance {offset : Counter} (h : offset ≤ s.blen) :
    EngineInv (advanceTo offset s) := by
  have hspan := render_keeps (P := EngineInv) (fun k _ hu => hu.after_sample k)
    (offset.toNat - s.cur.toNat) s.cur.toNat s hs
  have hblen := (advanceTo_same offset s).1.blen
  exact { hspan with
    pool := hs.pool.after_advance offset
    cursor := by rw [hblen]; exact h }

/-! ## The events -/

theorem EngineInv.after_setVoice {i : Slot} {v : Voice} (hnote : v.note = (s.voice i).note)
    (hvel : v.velocity = (s.voice i).velocity) (hv : VoiceInv v) : EngineInv (s.setVoice i v) := by
  refine hs.of_same_outside (setVoice_same s i v) (hs.pool.after_setVoice hnote hvel)
    (fun k hk => ?_) rfl hs.buffers
  rw [setVoice_voice]
  split
  · exact hv
  · exact hs.voices k hk

theorem EngineInv.after_noteOffApply (note : Note) : EngineInv (noteOffApply note s) := by
  obtain ⟨i, j, hfound, h⟩ | ⟨-, h⟩ := noteOffApply_cases note s
  · rw [h]
    exact hs.after_setVoice rfl rfl
      (hs.voices i (mem_activeList_of_findActive hfound)).after_envReleaseEnter
  · rwa [h]

theorem EngineInv.after_noteOnFresh {i : Slot} {note : Note} {vel : Velocity}
    (hmode : s.mode = .inBlock) (hvel : vel ≠ 0) (hnone : findActive note s = none)
    (hfree : (s.voice i).velocity = 0) :
    EngineInv (noteOnFresh i note vel (appendActive i s)) := by
  refine hs.of_same_outside (noteOnFresh_append_same i note vel s)
    (hs.pool.after_noteOnFresh hvel hnone hfree) (fun k hk => ?_) rfl hs.buffers
  by_cases hki : k = i
  · rw [hki, noteOnFresh_voice_self]
    exact freshVoice_voiceInv hs.exactNum hs.attackLevel (hs.snap hmode)
      (hs.noteIncrement_pos (hmode.trans_ne nofun) note)
  · rw [noteOnFresh_activeList, appendActive_activeList i (hs.pool.room_of_free hfree),
      List.mem_append, List.mem_singleton] at hk
    rw [noteOnFresh_voice_ne _ _ _ hki]
    exact hs.voices k (hk.resolve_right hki)

theorem EngineInv.after_noteOnApply {note : Note} {vel : Velocity} {t : State}
    (hmode : s.mode = .inBlock) (hvel : vel ≠ 0) (h : noteOnApply note vel s = .next t) :
    EngineInv t := by
  obtain ⟨i, j, hfound, rfl⟩ | ⟨-, -, rfl⟩ | ⟨i, hnone, hfree, -, rfl⟩ := noteOnApply_next h
  · rw [hs.exactNum]
    exact hs.after_setVoice rfl rfl
      (hs.voices i (mem_activeList_of_findActive hfound)).after_envReattack
  · exact hs
  · exact hs.after_noteOnFresh hmode hvel hnone (firstFree_some hfree)

/-- What a note event finds once its checks have passed and its span is rendered. -/
theorem EngineInv.after_checked_advance {offset : Counter} (hc : checkEvent offset s = none) :
    EngineInv (advanceTo offset s) ∧ (advanceTo offset s).mode = .inBlock := by
  obtain ⟨hmode, -, hblen⟩ := (checkEvent_none offset s).mp hc
  exact ⟨hs.after_advance (BitVec.le_of_lt hblen), (advanceTo_same offset s).1.mode.trans hmode⟩

theorem EngineInv.after_noteOff {offset : Counter} {note : Note} (vel : Velocity) {t : State}
    (h : execNoteOff offset note vel s = .next t) : EngineInv t := by
  obtain ⟨hc, -, rfl⟩ := execNoteOff_next h
  exact (hs.after_checked_advance hc).1.after_noteOffApply note

theorem EngineInv.after_noteOn {offset : Counter} {note : Note} {vel : Velocity} {t : State}
    (h : execNoteOn offset note vel s = .next t) : EngineInv t := by
  obtain ⟨hc, -, hevent⟩ := execNoteOn_next h
  obtain ⟨hspan, hmode⟩ := hs.after_checked_advance hc
  obtain ⟨-, rfl⟩ | ⟨hvel, happly⟩ := hevent
  · exact hspan.after_noteOffApply note
  · exact hspan.after_noteOnApply hmode hvel happly

/-! ## The system commands -/

theorem EngineInv.after_init {fs : Counter} {t : State} (h : execInit fs s = .next t) :
    EngineInv t := by
  have hpool : PoolInv t := hs.pool.after_exec (i := .init fs) h
  obtain ⟨hfs, -, rfl⟩ := execInit_next h
  exact { hs with
    pool := hpool
    voices := nofun
    rate := fun _ => hfs
    snap := nofun }

theorem EngineInv.after_block {n : Counter} {t : State} (h : execBlock n s = .next t) :
    EngineInv t := by
  have hpool : PoolInv t := hs.pool.after_exec (i := .block n) h
  obtain ⟨hmode, x, hx, rfl⟩ := execBlock_next h
  obtain ⟨p, -, hlegal, hfits, hregisters⟩ := takeSnapshot_ok.mp hx
  have hsnap : SnapInv x := hregisters ▸ snapshotOf_snapInv hs.exactNum hlegal hfits
  exact { hs with
    pool := hpool
    cursor := Nat.zero_le n.toNat
    rate := fun _ => hs.rate (hmode.trans_ne nofun)
    snap := fun _ => hsnap }

theorem EngineInv.after_end {t : State} (h : execEnd s = .next t) : EngineInv t := by
  have hpool : PoolInv t := hs.pool.after_exec (i := .endBlock) h
  obtain ⟨hmode, -, rfl⟩ := execEnd_next h
  have hspan := hs.after_advance (BitVec.le_refl s.blen)
  have hinit : (advanceTo s.blen s).mode ≠ .uninit :=
    (advanceTo_same s.blen s).1.mode.trans_ne (hmode.trans_ne nofun)
  exact { hspan with
    pool := hpool
    rate := fun _ => hspan.rate hinit
    snap := nofun }

theorem EngineInv.after_exec {i : Instr} {t : State} (h : exec i s = .next t) : EngineInv t := by
  cases i with
  | init fs => exact hs.after_init h
  | block n => exact hs.after_block h
  | noteOff offset note vel => exact hs.after_noteOff vel h
  | noteOn offset note vel => exact hs.after_noteOn h
  | endBlock => exact hs.after_end h
  | _ =>
    obtain ⟨-, rfl⟩ := ignoreEvent_next h
    exact hs

/-! ## The host's actions -/

theorem EngineInv.after_setStream (rest : List HostAction) : EngineInv (s.setStream rest) :=
  { hs with pool := hs.pool.of_same_pool rfl rfl rfl }

theorem EngineInv.after_setPorts (p : Ports) : EngineInv (s.setPorts p) :=
  { hs with pool := hs.pool.of_same_pool rfl rfl rfl }

theorem EngineInv.after_hostOutWrite (c : Channel) (k : Counter) (x : Amp) :
    EngineInv (s.hostOutWrite c k x) := by
  obtain ⟨hl, hr⟩ := hs.buffers.after_hostOutWrite c k x
  cases c <;>
    exact { hs with
      pool := hs.pool.of_same_pool rfl rfl rfl
      outlCanonical := hl
      outrCanonical := hr }

/-- After RST the list is empty, `CUR = BLEN = 0` and `MODE` is UNINIT (entries 10 and 11). -/
theorem EngineInv.after_assertReset : EngineInv s.assertReset :=
  { hs with
    pool := assertReset_poolInv s
    voices := nofun
    cursor := Nat.zero_le _
    rate := fun h => absurd rfl h
    snap := nofun }

end

/-- Settles O58, by what a step can do: every command and every host action keeps the invariant. -/
theorem everyStepKeepsTheEngineInvariant : Obligations.EveryStepKeepsTheEngineInvariant := by
  intro s t hs h
  obtain ⟨-, rfl⟩ | ⟨w, rest, i, -, -, hexec⟩ | ⟨port, x, rest, -, rfl⟩ | ⟨c, k, x, rest, -, rfl⟩ |
    ⟨rest, -, rfl⟩ := step_next h
  · exact hs
  · exact (hs.after_setStream rest).after_exec hexec
  · exact (hs.after_setStream rest).after_setPorts _
  · exact (hs.after_setStream rest).after_hostOutWrite c k x
  · exact (hs.after_setStream rest).after_assertReset

end Sys2Proof.Machine
end

section
/-! A rendered span (43_block_renderer.md R194 to R199): what it leaves unchanged, what each of its
samples does to the voices and to the output, and how two spans compose. -/

namespace Sys2Proof.Machine

/-! ## What a span leaves unchanged -/

/-- What rendering may do to the pool, whatever the active list holds: entries only leave the list,
a voice outside it is not written, and a velocity is at most cleared. -/
structure OnlyFinishes (s t : State) : Prop where
  active : ∀ i ∈ t.activeList, i ∈ s.activeList
  inactive : ∀ i, i ∉ s.activeList → t.voice i = s.voice i
  velocity : ∀ i, (t.voice i).velocity = (s.voice i).velocity ∨ (t.voice i).velocity = 0

theorem OnlyFinishes.refl (s : State) : OnlyFinishes s s :=
  ⟨fun _ hi => hi, fun _ _ => rfl, fun _ => .inl rfl⟩

theorem OnlyFinishes.trans {s t u : State} (hst : OnlyFinishes s t) (htu : OnlyFinishes t u) :
    OnlyFinishes s u where
  active i hi := hst.active i (htu.active i hi)
  inactive i hi := (htu.inactive i fun h => hi (hst.active i h)).trans (hst.inactive i hi)
  velocity i := by
    rcases htu.velocity i with h | h
    · rw [h]
      exact hst.velocity i
    · exact .inr h

theorem OnlyFinishes.after_retire {s t : State} (h : OnlyFinishes s t) (j : Nat) :
    OnlyFinishes s (retire j t) where
  active i hi := by
    rw [retire_activeList] at hi
    exact h.active i (List.mem_of_mem_eraseIdx hi)
  inactive := h.inactive
  velocity := h.velocity

theorem OnlyFinishes.after_tick {s t : State} (h : OnlyFinishes s t) {i : Slot}
    (hi : i ∈ s.activeList) (m : NumMode) (x : Snapshot) :
    OnlyFinishes s (t.setVoice i (voiceTick m x (t.voice i)).2) where
  active := h.active
  inactive k hk := by
    rw [setVoice_voice_ne _ _ (ne_of_mem_of_not_mem hi hk)]
    exact h.inactive k hk
  velocity k := by
    by_cases hk : i = k
    · subst hk
      rw [setVoice_voice_self]
      rcases (voiceTick_frame m x (t.voice i)).2.2 with hv | hv
      · rw [hv]
        exact h.velocity i
      · exact .inr hv
    · rw [setVoice_voice_ne _ _ hk]
      exact h.velocity k

/-- A pass is ticks and retirements: what both keep, it keeps. -/
theorem mixVoices_keeps {P : State → Prop} {rest : List Slot}
    (hretire : ∀ j t, P t → P (retire j t))
    (htick : ∀ i ∈ rest, ∀ t, P t → P (t.setVoice i (voiceTick t.params.num t.snap (t.voice i)).2))
    (j : Nat) (accL accR : Amp) {s : State} (hs : P s) : P (mixVoices rest j accL accR s).2 := by
  induction rest generalizing j accL accR s with
  | nil => exact hs
  | cons i rest ih =>
    have hticked := htick i List.mem_cons_self s hs
    have hrest := fun k hk => htick k (List.mem_cons_of_mem i hk)
    rw [mixVoices_cons]
    dsimp only
    split
    · exact ih hrest _ _ _ (hretire _ _ hticked)
    · exact ih hrest _ _ _ hticked

theorem renderSample_onlyFinishes (k : Nat) (s : State) : OnlyFinishes s (renderSample k s) := by
  have hpass : OnlyFinishes s
      (mixVoices s.activeList 0 (s.params.num.ampLit 0) (s.params.num.ampLit 0) s).2 :=
    mixVoices_keeps (fun j _ h => h.after_retire j)
      (fun _ hi t h => h.after_tick hi t.params.num t.snap) _ _ _ (.refl s)
  exact ⟨hpass.active, hpass.inactive, hpass.velocity⟩

theorem render_onlyFinishes (count start : Nat) (s : State) :
    OnlyFinishes s (render count start s) :=
  render_keeps (fun k t h => h.trans (renderSample_onlyFinishes k t)) count start s (.refl s)

theorem advanceTo_onlyFinishes (offset : Counter) (s : State) :
    OnlyFinishes s (advanceTo offset s) := by
  have hspan := render_onlyFinishes (offset.toNat - s.cur.toNat) s.cur.toNat s
  exact ⟨hspan.active, hspan.inactive, hspan.velocity⟩

/-- EVENT_ADVANCE writes the elements `CUR..offset-1` only. -/
theorem advanceTo_outside (offset : Counter) (s : State) {k : Nat}
    (h : k < s.cur.toNat ∨ offset.toNat ≤ k) :
    (advanceTo offset s).outl.read k = s.outl.read k ∧
      (advanceTo offset s).outr.read k = s.outr.read k :=
  render_outside (offset.toNat - s.cur.toNat) s.cur.toNat s k (by omega)

/-- Settles O27: the registers and the elements by the frame of a span, the voices by what rendering
may do to the pool. -/
theorem renderLeavesTheRestUnchanged : Obligations.RenderLeavesTheRestUnchanged := by
  intro count start s
  obtain ⟨same, hcur⟩ := render_same count start s
  have hpool := render_onlyFinishes count start s
  exact ⟨same.params, same.mode, same.fs, same.blen, hcur, same.snap, same.ports, same.stream,
    render_outside count start s, hpool.inactive, hpool.velocity⟩

/-! ## One sample -/

theorem renderSample_voice {s : State} (hs : s.activeList.Nodup) (k : Nat) (i : Slot) :
    (renderSample k s).voice i =
      if i ∈ s.activeList then (voiceTick s.params.num s.snap (s.voice i)).2 else s.voice i :=
  mixVoices_voice _ hs _ _ _ _ _

theorem renderSample_activeList {s : State} (hs : s.activeList.Nodup) (k : Nat) :
    (renderSample k s).activeList = s.activeList.filter fun i =>
      decide ((voiceTick s.params.num s.snap (s.voice i)).2.velocity ≠ 0) :=
  (mixVoices_activeList s.activeList hs [] _ _ s rfl).trans <|
    List.filter_congr fun _ _ => decide_not.symm

/-- Settles O28, by what a pass does to the voices and to the list. -/
theorem renderSampleTicksEachActiveVoiceOnce :
    Obligations.RenderSampleTicksEachActiveVoiceOnce := by
  refine ⟨voiceTick_voice, fun k s hs => ⟨fun i hi => ?active, fun i hi => ?inactive, ?list⟩⟩
  case active => rw [renderSample_voice hs, if_pos hi, voiceTick_voice]
  case inactive => rw [renderSample_voice hs, if_neg hi]
  case list => exact renderSample_activeList hs k

/-- The element a sample writes holds the two accumulators of its pass, in list order (R196,
R197). -/
theorem renderSample_read {s : State} (hs : s.activeList.Nodup) (hbuf : BuffersCanonical s)
    (k : Nat) :
    (renderSample k s).outl.read k = s.activeList.foldl (fun acc i =>
        s.params.num.ampAdd acc (voiceTick s.params.num s.snap (s.voice i)).1.1)
      (s.params.num.ampLit 0) ∧
    (renderSample k s).outr.read k = s.activeList.foldl (fun acc i =>
        s.params.num.ampAdd acc (voiceTick s.params.num s.snap (s.voice i)).1.2)
      (s.params.num.ampLit 0) := by
  obtain ⟨hwl, hwr⟩ := hbuf
  obtain ⟨-, -, houtl, houtr⟩ :=
    mixVoices_same s.activeList 0 (s.params.num.ampLit 0) (s.params.num.ampLit 0) s
  rw [← houtl] at hwl
  rw [← houtr] at hwr
  have hsums := mixVoices_sums s.activeList hs 0 (s.params.num.ampLit 0) (s.params.num.ampLit 0) s
  exact ⟨(Memory.read_write_same _ k _ hwl).trans (congrArg Prod.fst hsums),
    (Memory.read_write_same _ k _ hwr).trans (congrArg Prod.snd hsums)⟩

/-- The two contributions of VOICE_STEP, in the operand order of R195; the level is the one after
the tick, the sample the one before it. -/
theorem voiceTick_contributions (m : NumMode) (x : Snapshot) (v : Voice) :
    (voiceTick m x v).1 =
      (m.ampMul (m.ampMul (m.ampMul (lookup m v.phase)
          (.ofScalar (voiceTick m x v).2.envelopeLevel)) x.panl) x.vol,
       m.ampMul (m.ampMul (m.ampMul (lookup m v.phase)
          (.ofScalar (voiceTick m x v).2.envelopeLevel)) x.panr) x.vol) := rfl

/-- Settles O29: the accumulators of the pass, each contribution by R195. -/
theorem outputSampleSumsInListOrder : Obligations.OutputSampleSumsInListOrder := by
  intro k s hs hwl hwr
  obtain ⟨hl, hr⟩ := renderSample_read hs ⟨hwl, hwr⟩ k
  refine ⟨hl.trans ?_, hr.trans ?_⟩ <;>
  · refine List.foldl_ext _ _ _ fun acc i hi => ?_
    dsimp only
    rw [renderSample_voice hs, if_pos hi, voiceTick_contributions]

/-- A sum of amplitudes in list order is the real sum. -/
theorem foldl_ampAdd_real {α : Type} (f : α → Amp) (xs : List α) (a : Amp) :
    (xs.foldl (fun acc i => acc.add (f i)) a).toReal =
      a.toReal + (xs.map fun i => (f i).toReal).sum := by
  induction xs generalizing a with
  | nil => simp
  | cons x xs ih => rw [List.foldl_cons, ih, Amp.add_real, List.map_cons, List.sum_cons, add_assoc]

/-- Settles O30: the sum in list order, taken to the reals term by term. -/
theorem outputSampleIsTheRealMix : Obligations.OutputSampleIsTheRealMix := by
  intro k s hexact hs hwl hwr
  have hsums := outputSampleSumsInListOrder k s hs hwl hwr
  simp only [hexact, NumMode.exact_ampAdd, NumMode.exact_ampMul, NumMode.exact_ampLit] at hsums
  obtain ⟨hl, hr⟩ := hsums
  rw [hl, hr, foldl_ampAdd_real, foldl_ampAdd_real]
  simp only [Amp.mul_real, Amp.ofScalar_real, Amp.ofRat_real, lookup_exact_real, Rat.cast_zero,
    zero_add, and_self]

/-! ## Spans one after the other -/

theorem render_add (m n start : Nat) (s : State) :
    render (m + n) start s = render n (start + m) (render m start s) := by
  induction m generalizing start s with
  | zero => rw [Nat.zero_add, Nat.add_zero, render]
  | succ m ih =>
    calc render (m + 1 + n) start s
        = render (m + n) (start + 1) (renderSample start s) := by rw [Nat.add_right_comm, render]
      _ = render n (start + 1 + m) (render m (start + 1) (renderSample start s)) := ih _ _
      _ = render n (start + (m + 1)) (render (m + 1) start s) := by
        rw [render, Nat.add_right_comm, Nat.add_assoc]

/-- Settles O31, by the sum of the two lengths. -/
theorem spansCompose : Obligations.SpansCompose := by
  intro a b c s hab hbc
  have hlen : c - a = (b - a) + (c - b) := by omega
  rw [hlen, render_add, Nat.add_sub_cancel' hab]

/-- Rendering neither reads nor writes `CUR`. -/
theorem mixVoices_setCur (rest : List Slot) (j : Nat) (accL accR : Amp) (s : State) (c : Counter) :
    mixVoices rest j accL accR (s.setCur c) =
      ((mixVoices rest j accL accR s).1, (mixVoices rest j accL accR s).2.setCur c) := by
  induction rest generalizing j accL accR s with
  | nil => rfl
  | cons i rest ih =>
    rw [mixVoices_cons, mixVoices_cons]
    dsimp only [setCur_params, setCur_snap, setCur_voice]
    split
    · exact ih _ _ _ (retire j (s.setVoice i (voiceTick s.params.num s.snap (s.voice i)).2))
    · exact ih _ _ _ (s.setVoice i (voiceTick s.params.num s.snap (s.voice i)).2)

theorem renderSample_setCur (k : Nat) (s : State) (c : Counter) :
    renderSample k (s.setCur c) = (renderSample k s).setCur c := by
  simp only [renderSample, setCur_activeList, setCur_params, mixVoices_setCur]
  rfl

theorem render_setCur (count start : Nat) (s : State) (c : Counter) :
    render count start (s.setCur c) = (render count start s).setCur c := by
  induction count generalizing start s with
  | zero => rfl
  | succ count ih => rw [render, render, renderSample_setCur, ih]

/-- Two EVENT_ADVANCEs, the second not before the first, are the second alone (R198). -/
theorem advanceTo_advanceTo {a b : Counter} {s : State} (ha : s.cur ≤ a) (hb : a ≤ b) :
    advanceTo b (advanceTo a s) = advanceTo b s := by
  rw [BitVec.le_def] at ha hb
  unfold advanceTo
  rw [render_setCur, setCur_cur, spansCompose _ _ _ s ha hb]
  rfl

/-! ## Silence -/

theorem activeList_of_ac_zero {s : State} (h : s.ac = 0) : s.activeList = [] := by
  rw [State.activeList, h]
  rfl

theorem renderSample_of_silent {s : State} (h : s.activeList = []) (k : Nat) :
    renderSample k s = s.writeOut k (s.params.num.ampLit 0) (s.params.num.ampLit 0) := by
  rw [renderSample, h]
  rfl

/-- A silent span writes the buffers only. -/
theorem render_of_silent {s : State} (h : s.activeList = []) (count start : Nat) :
    render count start s =
      s.setOut (render count start s).outl (render count start s).outr := by
  refine render_keeps (P := fun t => t = s.setOut t.outl t.outr) (fun k t ht => ?_)
    count start s rfl
  have hsilent : t.activeList = [] := by
    rw [ht]
    exact h
  have hwrite (l r : Memory) : t.setOut l r = s.setOut l r := by
    rw [ht]
    rfl
  rw [renderSample_of_silent hsilent]
  exact hwrite _ _

theorem render_of_silent_read {s : State} (h : s.activeList = []) (hbuf : BuffersCanonical s)
    {count start k : Nat} (hstart : start ≤ k) (hend : k < start + count) :
    (render count start s).outl.read k = s.params.num.ampLit 0 ∧
      (render count start s).outr.read k = s.params.num.ampLit 0 := by
  induction count generalizing start s with
  | zero => omega
  | succ count ih =>
    rw [render]
    rcases hstart.eq_or_lt with rfl | hlater
    · obtain ⟨hl, hr⟩ := render_outside count (start + 1) (renderSample start s) start (by omega)
      rw [hl, hr, renderSample_of_silent h]
      exact ⟨Memory.read_write_same _ _ _ hbuf.1, Memory.read_write_same _ _ _ hbuf.2⟩
    · have hnext : BuffersCanonical (renderSample start s) :=
        renderSample_wf start s hbuf.1 hbuf.2
      rw [renderSample_of_silent h] at hnext ⊢
      exact ih (s := s.writeOut start _ _) h hnext hlater (by omega)

/-- Settles O32: with an empty list each sample is the write of two zeros. -/
theorem emptyPoolRendersSilence : Obligations.EmptyPoolRendersSilence := by
  intro count start s hac hwl hwr
  have hsilent := activeList_of_ac_zero hac
  exact ⟨fun k => render_of_silent_read hsilent ⟨hwl, hwr⟩, render_outside count start s,
    render_of_silent hsilent count start⟩

end Sys2Proof.Machine
end

section
/-! The system commands and the note events as the block renderer takes them (43_block_renderer.md
R190 to R200): their refusals, what they answer, what they leave unchanged, and the `MODE`
machine. -/

namespace Sys2Proof.Machine

/-! ## INIT, BLOCK and END -/

theorem execInit_ready {fs : Counter} {s : State} (hfs : fs ≠ 0) (hmode : s.mode = .uninit) :
    execInit fs s = .next (((freeAllVoices (s.setFs fs)).setAc 0).setMode .idle) := by
  rw [execInit, if_neg hfs, if_neg (not_not.mpr hmode)]

theorem execInit_wrongMode {fs : Counter} {s : State} (hfs : fs ≠ 0) (hmode : s.mode ≠ .uninit) :
    execInit fs s = .refused .wrongMode := by
  rw [execInit, if_neg hfs, if_pos hmode]

theorem execBlock_ready {s : State} {x : Snapshot} (n : Counter) (hmode : s.mode = .idle)
    (hx : takeSnapshot s = .ok x) :
    execBlock n s = .next ((((s.setSnap x).setBlen n).setCur 0).setMode .inBlock) := by
  rw [execBlock, if_neg (not_not.mpr hmode), hx]

theorem execBlock_wrongMode {s : State} (n : Counter) (hmode : s.mode ≠ .idle) :
    execBlock n s = .refused .wrongMode :=
  if_pos hmode

theorem execEnd_ready {s : State} (hmode : s.mode = .inBlock) (hac : s.ac.toNat ≤ 128) :
    execEnd s = .next ((advanceTo s.blen s).setMode .idle) := by
  have hrange : s.activeInRange = true := decide_eq_true hac
  rw [execEnd, if_neg (not_not.mpr hmode), if_pos hrange]

theorem execEnd_wrongMode {s : State} (hmode : s.mode ≠ .inBlock) :
    execEnd s = .refused .wrongMode :=
  if_pos hmode

/-- `DB2LIN(x) > 0` in every number domain (44_parameter_snapshot.md R221): in a rounding one a
result that is not positive does not stand. -/
theorem gainOfDecibels_positive (m : NumMode) (law : GainLaw) (x : Datum) :
    gainPositive m (gainOfDecibels m law x) := by
  cases m with
  | exactReals =>
    rw [gainPositive, gainOfDecibels_exact_real]
    exact GainLaw.toReal_pos law x.toReal
  | rounded f =>
    rw [gainOfDecibels]
    dsimp only [gainPositive]
    split
    · exact .inl rfl
    · split
      · rename_i hpos
        exact .inr hpos
      · exact .inl rfl

/-- `DB2LIN(0) = 1` as the constant of the number domain (R221). -/
theorem gainOfDecibels_of_zero (m : NumMode) (law : GainLaw) {x : Datum} (h : x.toReal = 0) :
    gainOfDecibels m law x = m.ampLit 1 :=
  if_pos ((Datum.isZero_iff x).mpr h)

/-- Settles O9, by the two checks of INIT. -/
theorem initFreesAllVoicesAndGoesIdle : Obligations.InitFreesAllVoicesAndGoesIdle :=
  fun fs s => ⟨fun hfs hmode => ⟨_, execInit_ready hfs hmode, rfl, rfl, rfl,
    freeAllVoices_voice (s.setFs fs), rfl⟩, execInit_wrongMode, rfl⟩

/-- Settles O10: SNAPSHOT answers on such ports, and its volume is `DB2LIN`. -/
theorem blockLatchesSnapshotAndOpens : Obligations.BlockLatchesSnapshotAndOpens := by
  intro n s p hmode hsample hlegal hfits
  have hsnap : takeSnapshot s = .ok (snapshotOf s.params s.fs p) :=
    takeSnapshot_ok.mpr ⟨p, hsample, hlegal, hfits, rfl⟩
  exact ⟨execBlock_ready n hmode hsnap, gainOfDecibels_positive _ _ _, gainOfDecibels_of_zero _ _⟩

/-- Settles O13: END is EVENT_ADVANCE to the end of the block, and the new `MODE`. -/
theorem endRendersTheRestOfTheBlock : Obligations.EndRendersTheRestOfTheBlock := by
  refine fun s => ⟨execEnd_wrongMode, fun hmode hac => ⟨_, execEnd_ready hmode hac, rfl, ?_⟩⟩
  obtain ⟨same, -⟩ := advanceTo_same s.blen s
  exact ⟨same.params, same.fs, same.blen, same.snap, same.ports, same.stream,
    fun k hk => advanceTo_outside s.blen s hk⟩

/-! ## The checks of the note events -/

theorem afterAdvance_refused {offset : Counter} {s : State} {r : Refusal}
    (event : State → Host.Outcome State Fault Refusal) (h : checkEvent offset s = some r) :
    afterAdvance offset event s = .refused r := by
  rw [afterAdvance, h]

theorem execNoteOff_refused {offset : Counter} {s : State} {r : Refusal} (note : Note)
    (vel : Velocity) (h : checkEvent offset s = some r) :
    execNoteOff offset note vel s = .refused r :=
  afterAdvance_refused _ h

/-- CHECK_EVENT comes before the policy for velocity 0 (60_exceptions.md R247). -/
theorem execNoteOn_refused {offset : Counter} {s : State} {r : Refusal} (note : Note)
    (vel : Velocity) (h : checkEvent offset s = some r) :
    execNoteOn offset note vel s = .refused r := by
  unfold execNoteOn
  split
  · split
    · rw [h, Option.getD_some]
    · exact afterAdvance_refused _ h
  · exact afterAdvance_refused _ h

/-- Settles O21, by CHECK_EVENT. -/
theorem noteEventsCheckModeThenOffset : Obligations.NoteEventsCheckModeThenOffset := by
  refine fun offset note vel s => ⟨fun hmode => ?_, fun hmode horder => ?_⟩
  · have hcheck := checkEvent_wrongMode offset hmode
    exact ⟨execNoteOn_refused note vel hcheck, execNoteOff_refused note vel hcheck⟩
  · have hcheck := checkEvent_offsetOrder hmode horder
    exact ⟨execNoteOn_refused note vel hcheck, execNoteOff_refused note vel hcheck⟩

/-! ## The `MODE` machine (R200) -/

theorem exec_wrongMode {i : Instr} {s : State} (hi : i.wellFormed = true)
    (hmode : s.mode ≠ legalMode i) : exec i s = .refused .wrongMode := by
  cases i with
  | init fs => exact execInit_wrongMode (bne_iff_ne.mp hi) hmode
  | block n => exact execBlock_wrongMode n hmode
  | noteOff offset note vel =>
    exact execNoteOff_refused note vel (checkEvent_wrongMode offset hmode)
  | noteOn offset note vel =>
    exact execNoteOn_refused note vel (checkEvent_wrongMode offset hmode)
  | endBlock => exact execEnd_wrongMode hmode
  | _ => exact ignoreEvent_wrongMode hmode

theorem mode_of_checkEvent_none {offset : Counter} {s : State} (h : checkEvent offset s = none) :
    s.mode = .inBlock :=
  ((checkEvent_none offset s).mp h).1

theorem exec_modes {i : Instr} {s t : State} (h : exec i s = .next t) :
    s.mode = legalMode i ∧ t.mode = nextMode i := by
  cases i with
  | init fs =>
    obtain ⟨-, hmode, rfl⟩ := execInit_next h
    exact ⟨hmode, rfl⟩
  | block n =>
    obtain ⟨hmode, x, -, rfl⟩ := execBlock_next h
    exact ⟨hmode, rfl⟩
  | noteOff offset note vel =>
    have hmode := mode_of_checkEvent_none (execNoteOff_next (vel := vel) h).1
    exact ⟨hmode, (execNoteOff_same vel h).mode.trans hmode⟩
  | noteOn offset note vel =>
    have hmode := mode_of_checkEvent_none (execNoteOn_next h).1
    exact ⟨hmode, (execNoteOn_same h).mode.trans hmode⟩
  | endBlock =>
    obtain ⟨hmode, -, rfl⟩ := execEnd_next h
    exact ⟨hmode, rfl⟩
  | _ =>
    obtain ⟨hmode, rfl⟩ := ignoreEvent_next h
    exact ⟨hmode, hmode⟩

/-- Settles O14: a malformed word has no command, and each command checks `MODE` before its
values. -/
theorem commandsFollowTheModeMachine : Obligations.CommandsFollowTheModeMachine := by
  refine ⟨fun w e s h => ?_, fun _ _ => exec_wrongMode, fun _ _ _ => exec_modes⟩
  rw [command, h]

/-! ## What a note event leaves unchanged -/

theorem SameOutside.eq_with {s t : State} (h : SameOutside s t) :
    t = { s with cur := t.cur, voices := t.voices, al := t.al, ac := t.ac,
                 outl := t.outl, outr := t.outr } := by
  cases t
  obtain ⟨rfl, rfl, rfl, rfl, rfl, rfl, rfl⟩ := h
  rfl

/-- What the event itself leaves, once the span before it is rendered. -/
structure WritesPoolOnly (s t : State) : Prop where
  same : SameOutside s t
  cur : t.cur = s.cur
  buffers : t.outl = s.outl ∧ t.outr = s.outr

theorem noteOffApply_writesPoolOnly (note : Note) (s : State) :
    WritesPoolOnly s (noteOffApply note s) := by
  refine ⟨noteOffApply_same note s, ?_, noteOffApply_buffers note s⟩
  obtain ⟨i, j, -, h⟩ | ⟨-, h⟩ := noteOffApply_cases note s <;> rw [h]
  exact setVoice_cur s i _

theorem noteOnApply_writesPoolOnly {note : Note} {vel : Velocity} {s t : State}
    (h : noteOnApply note vel s = .next t) : WritesPoolOnly s t := by
  refine ⟨noteOnApply_same h, ?_, noteOnApply_buffers h⟩
  obtain ⟨i, j, -, rfl⟩ | ⟨-, -, rfl⟩ | ⟨i, -, -, -, rfl⟩ := noteOnApply_next h <;> rfl

/-- The event writes the pool, and the span before it `CUR` and its own elements. -/
theorem WritesPoolOnly.after_advance {offset : Counter} {s t : State}
    (h : WritesPoolOnly (advanceTo offset s) t) :
    t = { s with cur := offset, voices := t.voices, al := t.al, ac := t.ac,
                 outl := t.outl, outr := t.outr } ∧
      ∀ k, k < s.cur.toNat ∨ offset.toNat ≤ k →
        t.outl.read k = s.outl.read k ∧ t.outr.read k = s.outr.read k := by
  obtain ⟨same, hcur⟩ := advanceTo_same offset s
  obtain ⟨houtl, houtr⟩ := h.buffers
  refine ⟨?_, fun k hk => ?_⟩
  · have heq := (same.trans h.same).eq_with
    rwa [h.cur, hcur] at heq
  · rw [houtl, houtr]
    exact advanceTo_outside offset s hk

/-- NOTE_OFF writes an active voice or none. -/
theorem noteOffApply_inactive {note : Note} {s : State} {k : Slot} (hk : k ∉ s.activeList) :
    (noteOffApply note s).voice k = s.voice k := by
  obtain ⟨i, j, hfound, h⟩ | ⟨-, h⟩ := noteOffApply_cases note s <;> rw [h]
  exact setVoice_voice_ne _ _ (ne_of_mem_of_not_mem (mem_activeList_of_findActive hfound) hk)

/-- The one inactive voice that NOTE_ON can write is the free one that ALLOCATE finds. -/
theorem noteOnApply_inactive {note : Note} {vel : Velocity} {s t : State} {k : Slot}
    (h : noteOnApply note vel s = .next t) (hk : k ∉ s.activeList) (hne : t.voice k ≠ s.voice k) :
    firstFree s = some k := by
  obtain ⟨i, j, hfound, rfl⟩ | ⟨-, -, rfl⟩ | ⟨i, -, hfree, -, rfl⟩ := noteOnApply_next h
  · have hik : i ≠ k := ne_of_mem_of_not_mem (mem_activeList_of_findActive hfound) hk
    exact absurd (setVoice_voice_ne s _ hik) hne
  · exact absurd rfl hne
  · by_cases hik : k = i
    · rw [hik, hfree]
    · exact absurd (noteOnFresh_voice_ne note vel _ hik) hne

theorem not_mem_advanceTo_activeList {s : State} {k : Slot} (offset : Counter)
    (hk : k ∉ s.activeList) : k ∉ (advanceTo offset s).activeList :=
  fun hmem => hk ((advanceTo_onlyFinishes offset s).active k hmem)

/-- The span of a NOTE_OFF and its event together write no inactive voice. -/
theorem noteOffApply_advanceTo_inactive {s : State} {k : Slot} (offset : Counter) (note : Note)
    (hk : k ∉ s.activeList) : (noteOffApply note (advanceTo offset s)).voice k = s.voice k :=
  (noteOffApply_inactive (not_mem_advanceTo_activeList offset hk)).trans
    ((advanceTo_onlyFinishes offset s).inactive k hk)

/-- Settles O22: an inactive voice stays inactive and as it is along the span, and then the event
writes it only as a fresh voice. -/
theorem noteEventsWriteOnlyTheirSpanAndVoices :
    Obligations.NoteEventsWriteOnlyTheirSpanAndVoices := by
  rintro offset note vel i s t (rfl | rfl) h
  · obtain ⟨-, -, ⟨-, rfl⟩ | ⟨-, happly⟩⟩ := execNoteOn_next h
    · obtain ⟨heq, hout⟩ := (noteOffApply_writesPoolOnly note _).after_advance
      exact ⟨heq, hout, fun k hk => absurd (noteOffApply_advanceTo_inactive offset note hk)⟩
    · obtain ⟨heq, hout⟩ := (noteOnApply_writesPoolOnly happly).after_advance
      refine ⟨heq, hout, fun k hk hne => ⟨rfl, ?_⟩⟩
      rw [← (advanceTo_onlyFinishes offset s).inactive k hk] at hne
      exact noteOnApply_inactive happly (not_mem_advanceTo_activeList offset hk) hne
  · obtain ⟨-, -, rfl⟩ := execNoteOff_next (vel := vel) h
    obtain ⟨heq, hout⟩ := (noteOffApply_writesPoolOnly note _).after_advance
    exact ⟨heq, hout, fun k hk => absurd (noteOffApply_advanceTo_inactive offset note hk)⟩

/-! ## A command after part of its span (R198) -/

theorem advanceTo_activeInRange (offset : Counter) {s : State} (h : s.activeInRange = true) :
    (advanceTo offset s).activeInRange = true := by
  have hac : s.ac.toNat ≤ 128 := of_decide_eq_true h
  exact decide_eq_true (render_keeps (P := fun t => t.ac.toNat ≤ 128)
    (fun _ _ ht => mixVoices_ac_le _ _ _ _ ht) _ _ s hac)

section
variable {a : Counter} {s : State} (ha : s.cur ≤ a)
include ha

theorem checkEvent_advanceTo {b : Counter} (hb : a ≤ b) :
    checkEvent b (advanceTo a s) = checkEvent b s := by
  obtain ⟨same, hcur⟩ := advanceTo_same a s
  have hbefore : ¬ b < s.cur := BitVec.not_lt.mpr (BitVec.le_trans ha hb)
  simp only [checkEvent, same.mode, same.blen, hcur, BitVec.not_lt.mpr hb, hbefore]

variable (hrange : s.activeInRange = true)
include hrange

theorem afterAdvance_advanceTo {b : Counter} (hb : a ≤ b)
    (event : State → Host.Outcome State Fault Refusal) :
    afterAdvance b event (advanceTo a s) = afterAdvance b event s := by
  rw [afterAdvance, afterAdvance, checkEvent_advanceTo ha hb, advanceTo_activeInRange a hrange,
    hrange, advanceTo_advanceTo ha hb]

theorem execNoteOn_advanceTo {b : Counter} (hb : a ≤ b) (note : Note) (vel : Velocity) :
    execNoteOn b note vel (advanceTo a s) = execNoteOn b note vel s := by
  simp only [execNoteOn, (advanceTo_same a s).1.params, checkEvent_advanceTo ha hb,
    afterAdvance_advanceTo ha hrange hb]

theorem execNoteOff_advanceTo {b : Counter} (hb : a ≤ b) (note : Note) (vel : Velocity) :
    execNoteOff b note vel (advanceTo a s) = execNoteOff b note vel s :=
  afterAdvance_advanceTo ha hrange hb _

theorem execEnd_advanceTo (hb : a ≤ s.blen) : execEnd (advanceTo a s) = execEnd s := by
  obtain ⟨same, -⟩ := advanceTo_same a s
  rw [execEnd, execEnd, same.mode, same.blen, advanceTo_activeInRange a hrange, hrange,
    advanceTo_advanceTo ha hb]

end

/-- Settles O25: what such a NOTE_OFF leaves is the span up to it, and a later span is that one and
the rest. -/
theorem noteOffOfAnUnheldNoteIsInvisible : Obligations.NoteOffOfAnUnheldNoteIsInvisible := by
  intro offset note vel s t h hnone
  obtain ⟨hcheck, hrange, rfl⟩ := execNoteOff_next (vel := vel) h
  obtain ⟨-, hcur, hblen⟩ := (checkEvent_none offset s).mp hcheck
  rw [noteOffApply_of_not_found hnone]
  exact ⟨execEnd_advanceTo hcur hrange (BitVec.le_of_lt hblen), fun o n v ho =>
    ⟨execNoteOn_advanceTo hcur hrange ho n v, execNoteOff_advanceTo hcur hrange ho n v⟩⟩

end Sys2Proof.Machine
end

section
/-! The parameter ports and the snapshot (44_parameter_snapshot.md R220 to R227): what BLOCK latches
over the reals, the pan law, which ports BLOCK refuses, and that the commands of a block read no
port. -/

namespace Sys2Proof.Machine

/-! ## The gains (R221, R222) -/

theorem panIndex_exact (x : Datum) :
    panIndex .exactReals x = ⌊(x.toReal + 1) * 256 + 1 / 2⌋ := by
  rw [panIndex, NumMode.exact_floor, Scalar.floor_real]
  simp only [NumMode.exact_add, NumMode.exact_mul, NumMode.exact_lit, Scalar.add_real,
    Scalar.mul_ofRat_real, Scalar.ofRat_real, Datum.toScalar_real]
  norm_num

/-- For legal `panning` the index is one of 513 positions. -/
theorem panIndex_exact_mem {x : Datum} (h0 : -1 ≤ x.toReal) (h1 : x.toReal ≤ 1) :
    0 ≤ panIndex .exactReals x ∧ panIndex .exactReals x ≤ 512 := by
  rw [panIndex_exact]
  refine ⟨Int.floor_nonneg.mpr (by linarith), Int.lt_add_one_iff.mp (Int.floor_lt.mpr ?_)⟩
  push_cast
  linarith

/-- Reducing an index into the table (40_wavetable_oscillator.md R122) takes off whole periods. -/
theorem waveTable_tableIndex_exact_real (z : ℤ) :
    (waveTable .exactReals (tableIndex z)).toReal = Real.sin (2 * Real.pi * (z : ℝ) / 2048) := by
  have hmod : ((tableIndex z : ℕ) : ℝ) = (z : ℝ) - 2048 * ((z / 2048 : ℤ) : ℝ) := by
    rw [← Int.cast_natCast, tableIndex_cast, Int.emod_def]
    push_cast
    ring
  have hangle : 2 * Real.pi * ((tableIndex z : ℕ) : ℝ) / 2048 =
      2 * Real.pi * (z : ℝ) / 2048 - ((z / 2048 : ℤ) : ℝ) * (2 * Real.pi) := by
    rw [hmod]
    ring
  rw [waveTable_exact_real (tableIndex_lt z), hangle, Real.sin_sub_int_mul_two_pi]

section
variable {p : Params} (hp : p.num = .exactReals) (fs : Counter) (x : PortSample)
include hp

theorem snapshotOf_vol_real :
    (snapshotOf p fs x).vol.toReal = p.gainLaw.toReal x.volumeDb.toReal := by
  rw [snapshotOf, hp, gainOfDecibels_exact_real]

theorem snapshotOf_panr_real : (snapshotOf p fs x).panr.toReal =
    Real.sin (2 * Real.pi * (panIndex .exactReals x.panning : ℝ) / 2048) := by
  rw [snapshotOf, hp, waveTable_tableIndex_exact_real]

theorem snapshotOf_panl_real : (snapshotOf p fs x).panl.toReal =
    Real.sin (2 * Real.pi * ((panIndex .exactReals x.panning + 512 : ℤ) : ℝ) / 2048) := by
  rw [snapshotOf, hp, waveTable_tableIndex_exact_real]

/-- 512 table steps are a quarter of a period. -/
theorem snapshotOf_panl_eq_cos : (snapshotOf p fs x).panl.toReal =
    Real.cos (2 * Real.pi * (panIndex .exactReals x.panning : ℝ) / 2048) := by
  rw [snapshotOf_panl_real hp, ← Real.sin_add_pi_div_two]
  congr 1
  push_cast
  ring

end

/-- Settles O52: the gains are the cosine and the sine of one angle of the first quadrant. -/
theorem panGainsHaveConstantPower : Obligations.PanGainsHaveConstantPower := by
  intro p fs x hp hlegal
  obtain ⟨⟨hpan0, hpan1⟩, -⟩ := x.legal_exact_iff.mp hlegal
  obtain ⟨hidx0, hidx1⟩ := panIndex_exact_mem hpan0 hpan1
  rw [snapshotOf_panl_eq_cos hp, snapshotOf_panr_real hp]
  generalize hangle : 2 * Real.pi * (panIndex .exactReals x.panning : ℝ) / 2048 = angle
  have hidx0' : (0 : ℝ) ≤ panIndex .exactReals x.panning := by exact_mod_cast hidx0
  have hidx1' : (panIndex .exactReals x.panning : ℝ) ≤ 512 := by exact_mod_cast hidx1
  have hangle0 : 0 ≤ angle := by
    rw [← hangle]
    positivity
  have hangle1 : angle ≤ Real.pi / 2 := by
    rw [← hangle]
    nlinarith [Real.pi_pos]
  exact ⟨Real.cos_nonneg_of_mem_Icc ⟨by linarith [Real.pi_pos], hangle1⟩, Real.cos_le_one angle,
    Real.sin_nonneg_of_nonneg_of_le_pi hangle0 (by linarith [Real.pi_pos]), Real.sin_le_one angle,
    Real.cos_sq_add_sin_sq angle⟩

/-! ## The latched registers (R221 to R224) -/

/-- Settles O11: SNAPSHOT answers on such ports, and each register is a conversion of one port. -/
theorem blockLatchesTheRealValues : Obligations.BlockLatchesTheRealValues := by
  intro n s p hnum hmode hsample hlegal hfits
  have hsnap : takeSnapshot s = .ok (snapshotOf s.params s.fs p) :=
    takeSnapshot_ok.mpr ⟨p, hsample, hlegal, hfits, rfl⟩
  have hvol := snapshotOf_vol_real hnum s.fs p
  have hstage : ∀ ms : Datum, 0 ≤ ms.toReal → durSamples .exactReals s.fs ms ≤ maxDuration →
      ((toCounter (durSamples s.params.num s.fs ms)).toNat : ℤ) =
        ⌊ms.toReal * s.fs.toNat / 1000⌋ := by
    rw [hnum]
    exact fun _ => toCounter_durSamples
  rw [hnum, PortSample.legal_exact_iff] at hlegal
  rw [hnum, PortSample.durationsFit_iff] at hfits
  obtain ⟨-, -, hatt, hhld, hdec, hrel⟩ := hlegal
  obtain ⟨fatt, fhld, fdec, frel⟩ := hfits
  refine ⟨_, execBlock_ready n hmode hsnap, hvol, fun hlaw => ?_, ?_, fun hzero => ?_, ?_, ?_,
    hstage _ hatt fatt, hstage _ hhld fhld, hstage _ hdec fdec, hstage _ hrel frel,
    Datum.toScalar_real p.sustainLevel⟩
  · exact hvol.trans (by rw [hlaw, GainLaw.toReal])
  · exact hvol.symm ▸ GainLaw.toReal_pos _ _
  · exact hvol.trans (by rw [hzero, GainLaw.toReal_zero])
  · rw [← panIndex_exact]
    exact snapshotOf_panr_real hnum s.fs p
  · rw [← panIndex_exact]
    exact snapshotOf_panl_real hnum s.fs p

/-! ## The ports of a sample -/

/-- The sampled number of a port. -/
def PortSample.value (x : PortSample) : PortName → Datum
  | .volumeDb => x.volumeDb
  | .panning => x.panning
  | .attackMs => x.attackMs
  | .holdMs => x.holdMs
  | .decayMs => x.decayMs
  | .releaseMs => x.releaseMs
  | .sustainLevel => x.sustainLevel

theorem Ports.get_of_sample {p : Ports} {x : PortSample} (h : p.sample = some x) (q : PortName) :
    p.get q = .finite (x.value q) := by
  rw [Ports.sample_some.mp h]
  cases q <;> rfl

/-- The ports that hold a time. -/
def timePorts : List PortName := [.attackMs, .holdMs, .decayMs, .releaseMs]

/-- The four sampled times. -/
def PortSample.times (x : PortSample) : List Datum := timePorts.map x.value

theorem PortSample.legal_exact_iff_times (x : PortSample) :
    x.legal .exactReals = true ↔
      (-1 ≤ x.panning.toReal ∧ x.panning.toReal ≤ 1) ∧
      (0 ≤ x.sustainLevel.toReal ∧ x.sustainLevel.toReal ≤ 1) ∧
      ∀ ms ∈ x.times, 0 ≤ ms.toReal := by
  simp only [PortSample.legal_exact_iff, times, timePorts, value, List.map_cons, List.map_nil,
    List.forall_mem_cons, List.not_mem_nil, false_implies, implies_true, and_true]

theorem PortSample.durationsFit_exact_iff_times (fs : Counter) (x : PortSample) :
    x.durationsFit .exactReals fs = true ↔
      ∀ ms ∈ x.times, ⌊ms.toReal * fs.toNat / 1000⌋ ≤ 2 ^ 32 - 2 := by
  simp only [PortSample.durationsFit_iff, durSamples_exact, maxDuration, times, timePorts, value,
    List.map_cons, List.map_nil, List.forall_mem_cons, List.not_mem_nil, false_implies,
    implies_true, and_true]

/-! ## The refusals of BLOCK (R226) -/

/-- P4: no sample, or one that is not legal. -/
theorem takeSnapshot_illegalPort {s : State}
    (h : ∀ p, s.ports.sample = some p → p.legal s.params.num = false) :
    takeSnapshot s = .error .illegalPort := by
  unfold takeSnapshot
  split
  · rfl
  · rename_i p hp
    rw [if_pos (h p hp)]

/-- P5, after P4. -/
theorem takeSnapshot_stageTooLong {s : State} {p : PortSample} (hp : s.ports.sample = some p)
    (hlegal : p.legal s.params.num = true) (hlong : p.durationsFit s.params.num s.fs = false) :
    takeSnapshot s = .error .stageTooLong := by
  rw [takeSnapshot, hp]
  simp only [hlegal, hlong, Bool.true_eq_false, if_false, if_true]

section
variable {s : State} (n : Counter) (hmode : s.mode = .idle)
include hmode

theorem execBlock_refused {r : Refusal} (h : takeSnapshot s = .error r) :
    execBlock n s = .refused r := by
  rw [execBlock, if_neg (not_not.mpr hmode), h]

theorem execBlock_illegalPort
    (h : ∀ p, s.ports.sample = some p → ¬ p.legal s.params.num = true) :
    execBlock n s = .refused .illegalPort :=
  execBlock_refused n hmode (takeSnapshot_illegalPort fun p hp => Bool.eq_false_iff.mpr (h p hp))

theorem execBlock_stageTooLong {p : PortSample} (hp : s.ports.sample = some p)
    (hlegal : p.legal s.params.num = true) (hlong : ¬ p.durationsFit s.params.num s.fs = true) :
    execBlock n s = .refused .stageTooLong :=
  execBlock_refused n hmode (takeSnapshot_stageTooLong hp hlegal (Bool.eq_false_iff.mpr hlong))

/-! Clauses (b) to (d) in exact arithmetic. -/

variable (hnum : s.params.num = .exactReals)
include hnum

theorem execBlock_illegalPort_exact {q : PortName} {x : Datum} (hx : s.ports.get q = .finite x)
    (h : ∀ p : PortSample, p.legal .exactReals = true → p.value q ≠ x) :
    execBlock n s = .refused .illegalPort := by
  refine execBlock_illegalPort n hmode fun p hp hlegal => ?_
  rw [hnum] at hlegal
  exact h p hlegal (PortValue.finite.inj ((Ports.get_of_sample hp q).symm.trans hx))

theorem execBlock_refuses_panning {x : Datum} (hx : s.ports.panning = .finite x)
    (hout : x.toReal < -1 ∨ 1 < x.toReal) : execBlock n s = .refused .illegalPort := by
  refine execBlock_illegalPort_exact (q := .panning) n hmode hnum hx ?_
  rintro p hlegal rfl
  obtain ⟨⟨h0, h1⟩, -⟩ := p.legal_exact_iff_times.mp hlegal
  exact hout.elim h0.not_gt h1.not_gt

theorem execBlock_refuses_sustainLevel {x : Datum} (hx : s.ports.sustainLevel = .finite x)
    (hout : x.toReal < 0 ∨ 1 < x.toReal) : execBlock n s = .refused .illegalPort := by
  refine execBlock_illegalPort_exact (q := .sustainLevel) n hmode hnum hx ?_
  rintro p hlegal rfl
  obtain ⟨-, ⟨h0, h1⟩, -⟩ := p.legal_exact_iff_times.mp hlegal
  exact hout.elim h0.not_gt h1.not_gt

theorem execBlock_refuses_negative_time {q : PortName} {x : Datum} (hq : q ∈ timePorts)
    (hx : s.ports.get q = .finite x) (hneg : x.toReal < 0) :
    execBlock n s = .refused .illegalPort := by
  refine execBlock_illegalPort_exact n hmode hnum hx ?_
  rintro p hlegal rfl
  obtain ⟨-, -, htimes⟩ := p.legal_exact_iff_times.mp hlegal
  exact (htimes _ (List.mem_map_of_mem hq)).not_gt hneg

end

/-- Settles O12: a port that is not finite leaves no sample, and clauses (b) to (e) are read from the
one sample there is. -/
theorem blockRefusesIllegalPorts : Obligations.BlockRefusesIllegalPorts := by
  intro n s hmode
  refine ⟨fun q hq => ?_, fun p hp => ⟨fun hillegal => ?_, fun hlegal hlong => ?_⟩, fun hnum =>
    ⟨fun x hx hout => execBlock_refuses_panning n hmode hnum hx hout,
      fun x hx hout => execBlock_refuses_sustainLevel n hmode hnum hx hout,
      fun q hq x hx hneg => execBlock_refuses_negative_time n hmode hnum hq hx hneg,
      fun p hp hpan0 hpan1 hsus0 hsus1 htimes => ?_⟩⟩
  · exact execBlock_illegalPort n hmode fun p hp _ => hq _ (Ports.get_of_sample hp q)
  · refine execBlock_illegalPort n hmode fun p' hp' => ?_
    obtain rfl : p = p' := Option.some.inj (hp.symm.trans hp')
    exact Bool.eq_false_iff.mp hillegal
  · exact execBlock_stageTooLong n hmode hp hlegal (Bool.eq_false_iff.mp hlong)
  · have hlegal : p.legal s.params.num = true := by
      rw [hnum]
      exact p.legal_exact_iff_times.mpr ⟨⟨hpan0, hpan1⟩, ⟨hsus0, hsus1⟩, htimes⟩
    have hfit := p.durationsFit_exact_iff_times s.fs
    rw [← hnum] at hfit
    constructor
    · rintro ⟨ms, hms, hlong⟩
      exact execBlock_stageTooLong n hmode hp hlegal fun h => (hfit.mp h ms hms).not_gt hlong
    · intro hfits
      exact ⟨_, execBlock_ready n hmode (takeSnapshot_ok.mpr ⟨p, hp, hlegal, hfit.mpr hfits, rfl⟩)⟩

/-! ## Rendering reads no port (R227) -/

theorem mixVoices_setPorts (rest : List Slot) (j : Nat) (accL accR : Amp) (s : State) (p : Ports) :
    mixVoices rest j accL accR (s.setPorts p) =
      ((mixVoices rest j accL accR s).1, (mixVoices rest j accL accR s).2.setPorts p) := by
  induction rest generalizing j accL accR s with
  | nil => rfl
  | cons i rest ih =>
    rw [mixVoices_cons, mixVoices_cons]
    dsimp only [setPorts_params, setPorts_snap, setPorts_voice]
    split
    · exact ih _ _ _ (retire j (s.setVoice i (voiceTick s.params.num s.snap (s.voice i)).2))
    · exact ih _ _ _ (s.setVoice i (voiceTick s.params.num s.snap (s.voice i)).2)

theorem renderSample_setPorts (k : Nat) (s : State) (p : Ports) :
    renderSample k (s.setPorts p) = (renderSample k s).setPorts p := by
  simp only [renderSample, setPorts_activeList, setPorts_params, mixVoices_setPorts]
  rfl

theorem render_setPorts (count start : Nat) (s : State) (p : Ports) :
    render count start (s.setPorts p) = (render count start s).setPorts p := by
  induction count generalizing start s with
  | zero => rfl
  | succ count ih => rw [render, render, renderSample_setPorts, ih]

theorem advanceTo_setPorts (offset : Counter) (s : State) (p : Ports) :
    advanceTo offset (s.setPorts p) = (advanceTo offset s).setPorts p := by
  rw [advanceTo, setPorts_cur, render_setPorts]
  rfl

/-! ## The commands of a block read no port (R227) -/

theorem noteOffApply_setPorts (note : Note) (s : State) (p : Ports) :
    noteOffApply note (s.setPorts p) = (noteOffApply note s).setPorts p := by
  obtain ⟨i, j, hfound, h⟩ | ⟨hnone, h⟩ := noteOffApply_cases note s <;> rw [h]
  · exact noteOffApply_of_found (s := s.setPorts p) hfound
  · exact noteOffApply_of_not_found (s := s.setPorts p) hnone

theorem noteOnApply_of_full {note : Note} (vel : Velocity) {s : State}
    (hnone : findActive note s = none) (hfull : firstFree s = none) :
    noteOnApply note vel s = .next s := by
  rw [noteOnApply, hnone, hfull]

/-- Other ports make no difference to what a command or an event answers, but for the ports. -/
def IgnoresPorts (f : State → Host.Outcome State Fault Refusal) : Prop :=
  ∀ (s t : State) (p : Ports), f s = .next t → f (s.setPorts p) = .next (t.setPorts p)

theorem noteOnApply_ignoresPorts (note : Note) (vel : Velocity) :
    IgnoresPorts (noteOnApply note vel) := by
  intro s t p h
  obtain ⟨i, j, hfound, rfl⟩ | ⟨hnone, hfull, rfl⟩ | ⟨i, hnone, hfree, hroom, rfl⟩ :=
    noteOnApply_next h
  · exact noteOnApply_of_found (s := s.setPorts p) vel hfound
  · exact noteOnApply_of_full (s := t.setPorts p) vel hnone hfull
  · exact noteOnApply_of_free (s := s.setPorts p) vel hnone hfree hroom

theorem afterAdvance_ignoresPorts (offset : Counter)
    {event : State → Host.Outcome State Fault Refusal} (hevent : IgnoresPorts event) :
    IgnoresPorts (afterAdvance offset event) := by
  intro s t p h
  obtain ⟨hcheck, hrange, hnext⟩ := afterAdvance_next h
  rw [afterAdvance_ready (s := s.setPorts p) event hcheck hrange, advanceTo_setPorts]
  exact hevent _ _ p hnext

theorem execNoteOff_ignoresPorts (offset : Counter) (note : Note) (vel : Velocity) :
    IgnoresPorts (execNoteOff offset note vel) := by
  refine afterAdvance_ignoresPorts offset fun s t p h => ?_
  obtain rfl : noteOffApply note s = t := Host.Outcome.next.inj h
  exact congrArg _ (noteOffApply_setPorts note s p)

theorem execNoteOn_ignoresPorts (offset : Counter) (note : Note) (vel : Velocity) :
    IgnoresPorts (execNoteOn offset note vel) := by
  intro s t p h
  by_cases hvel : vel = 0
  · subst hvel
    cases hpolicy : s.params.vel0Policy with
    | refuse =>
      rw [execNoteOn_refuse offset note hpolicy] at h
      cases h
    | asNoteOff =>
      rw [execNoteOn_asNoteOff offset note 0 hpolicy] at h
      rw [execNoteOn_asNoteOff (s := s.setPorts p) offset note 0 hpolicy]
      exact execNoteOff_ignoresPorts offset note 0 s t p h
  · rw [execNoteOn, if_neg hvel] at h ⊢
    exact afterAdvance_ignoresPorts offset (noteOnApply_ignoresPorts note vel) s t p h

theorem execEnd_ignoresPorts : IgnoresPorts execEnd := by
  intro s t p h
  obtain ⟨hmode, hrange, rfl⟩ := execEnd_next h
  have hac : s.ac.toNat ≤ 128 := of_decide_eq_true hrange
  rw [execEnd_ready (s := s.setPorts p) hmode hac, setPorts_blen, advanceTo_setPorts]
  rfl

theorem ignoreEvent_ignoresPorts : IgnoresPorts ignoreEvent := by
  intro s t p h
  obtain ⟨hmode, rfl⟩ := ignoreEvent_next h
  exact ignoreEvent_inBlock (s := t.setPorts p) hmode

/-- Settles O24: of the commands only BLOCK reads the ports, and it opens the block. -/
theorem portsDoNotReachTheRunningBlock : Obligations.PortsDoNotReachTheRunningBlock := by
  intro i s t p hmode h
  cases i with
  | init fs => cases hmode
  | block n => cases hmode
  | noteOff offset note vel => exact execNoteOff_ignoresPorts offset note vel s t p h
  | noteOn offset note vel => exact execNoteOn_ignoresPorts offset note vel s t p h
  | endBlock => exact execEnd_ignoresPorts s t p h
  | _ => exact ignoreEvent_ignoresPorts s t p h

end Sys2Proof.Machine
end

section
/-! The events that the specification drops silently (60_exceptions.md R241). -/

namespace Sys2Proof.Machine

/-- Settles O19: the checks pass, and a full pool that does not hold the note leaves the state as
the span made it. -/
theorem noteOnWithNoFreeSlotIsDropped : Obligations.NoteOnWithNoFreeSlotIsDropped := by
  intro offset note vel s hmode hcur hblen hac hvel hnone hfull
  calc exec (.noteOn offset note vel) s = noteOnApply note vel (advanceTo offset s) :=
        exec_noteOn_ready note hmode hcur hblen hac hvel
    _ = .next (advanceTo offset s) := noteOnApply_of_full vel hnone hfull

end Sys2Proof.Machine
end

section
/-! Reset, zero-length stages, and what is fixed for the lifetime of a voice
(70_reset_and_hazards.md R260, R264, R269). -/

namespace Sys2Proof.Machine

/-! ## The lifetime of a voice (R264) -/

/-- What NOTE_ON_FRESH fixes for the lifetime of a voice: its note, its increment, and the captured
envelope (R264). -/
def Voice.lifetimeShape (v : Voice) :
    Note × Pitch × Scalar × Scalar × Counter × Counter × Counter × Counter :=
  (v.note, v.phaseIncrement, v.attackLevel, v.sustainLevel, v.attackDuration, v.holdDuration,
    v.decayDuration, v.releaseDuration)

theorem SameShape.lifetimeShape_eq {v w : Voice} (h : SameShape v w) :
    w.lifetimeShape = v.lifetimeShape := by
  simp only [Voice.lifetimeShape, h.note, h.phaseIncrement, h.attackLevel, h.sustainLevel,
    h.attackDuration, h.holdDuration, h.decayDuration, h.releaseDuration]

theorem voiceTick_lifetimeShape (m : NumMode) (x : Snapshot) (v : Voice) :
    (voiceTick m x v).2.lifetimeShape = v.lifetimeShape :=
  (voiceTick_frame m x v).1.lifetimeShape_eq

theorem envReleaseEnter_lifetimeShape (v : Voice) :
    (envReleaseEnter v).lifetimeShape = v.lifetimeShape := rfl

theorem envReattack_lifetimeShape (m : NumMode) (v : Voice) :
    (envReattack m v).lifetimeShape = v.lifetimeShape := rfl

/-- INIT frees the slots and keeps what is in them (43_block_renderer.md R190). -/
theorem freeAllVoices_lifetimeShape (s : State) (k : Slot) :
    ((freeAllVoices s).voice k).lifetimeShape = (s.voice k).lifetimeShape := by
  rw [freeAllVoices_voice]
  rfl

/-- A pass ticks voices and retires entries, whatever list it is given. -/
theorem renderSample_lifetimeShape (n : Nat) (s : State) (k : Slot) :
    ((renderSample n s).voice k).lifetimeShape = (s.voice k).lifetimeShape :=
  mixVoices_keeps (P := fun t => (t.voice k).lifetimeShape = (s.voice k).lifetimeShape)
    (fun _ _ h => h)
    (fun _ _ _ h => (setVoice_voice_field Voice.lifetimeShape
      (voiceTick_lifetimeShape _ _ _) k).trans h)
    _ _ _ rfl

theorem advanceTo_lifetimeShape (offset : Counter) (s : State) (k : Slot) :
    ((advanceTo offset s).voice k).lifetimeShape = (s.voice k).lifetimeShape :=
  render_keeps (P := fun t => (t.voice k).lifetimeShape = (s.voice k).lifetimeShape)
    (fun n t h => (renderSample_lifetimeShape n t k).trans h) _ _ s rfl

theorem noteOffApply_lifetimeShape (note : Note) (s : State) (k : Slot) :
    ((noteOffApply note s).voice k).lifetimeShape = (s.voice k).lifetimeShape := by
  obtain ⟨i, j, -, h⟩ | ⟨-, h⟩ := noteOffApply_cases note s <;> rw [h]
  exact setVoice_voice_field Voice.lifetimeShape (envReleaseEnter_lifetimeShape _) k

/-- A re-attack keeps the shape too (R175); only the free slot that ALLOCATE finds gets another. -/
theorem noteOnApply_lifetimeShape {note : Note} {vel : Velocity} {s t : State} {k : Slot}
    (h : noteOnApply note vel s = .next t) (hk : firstFree s ≠ some k) :
    (t.voice k).lifetimeShape = (s.voice k).lifetimeShape := by
  obtain ⟨i, j, -, rfl⟩ | ⟨-, -, rfl⟩ | ⟨i, -, hfree, -, rfl⟩ := noteOnApply_next h
  · exact setVoice_voice_field Voice.lifetimeShape (envReattack_lifetimeShape _ _) k
  · rfl
  · have hki : k ≠ i := fun e => hk (e ▸ hfree)
    rw [noteOnFresh_voice_ne note vel _ hki, appendActive_voice]

theorem exec_lifetimeShape {i : Instr} {s t : State} {k : Slot} (h : exec i s = .next t)
    (hk : ∀ o n v, i = .noteOn o n v → firstFree (advanceTo o s) ≠ some k) :
    (t.voice k).lifetimeShape = (s.voice k).lifetimeShape := by
  cases i with
  | init fs =>
    obtain ⟨-, -, rfl⟩ := execInit_next h
    exact freeAllVoices_lifetimeShape (s.setFs fs) k
  | block n =>
    obtain ⟨-, x, -, rfl⟩ := execBlock_next h
    rfl
  | noteOff offset note vel =>
    obtain ⟨-, -, rfl⟩ := execNoteOff_next (vel := vel) h
    exact (noteOffApply_lifetimeShape note _ k).trans (advanceTo_lifetimeShape offset s k)
  | noteOn offset note vel =>
    obtain ⟨-, -, ⟨-, rfl⟩ | ⟨-, happly⟩⟩ := execNoteOn_next h
    · exact (noteOffApply_lifetimeShape note _ k).trans (advanceTo_lifetimeShape offset s k)
    · exact (noteOnApply_lifetimeShape happly (hk offset note vel rfl)).trans
        (advanceTo_lifetimeShape offset s k)
  | endBlock =>
    obtain ⟨-, -, rfl⟩ := execEnd_next h
    exact advanceTo_lifetimeShape s.blen s k
  | _ =>
    obtain ⟨-, rfl⟩ := ignoreEvent_next h
    rfl

/-- Settles O26, by the parts of a command: ticks, release and re-attack keep the eight fields of
every voice, and a fresh voice is written in the excluded slot. -/
theorem soundingVoicesKeepTheirShape : Obligations.SoundingVoicesKeepTheirShape := by
  intro i s t k h hk
  have hshape := exec_lifetimeShape h hk
  simpa only [Voice.lifetimeShape, Prod.mk.injEq] using hshape

/-! ## Reset (R260) -/

/-- Settles O8: the step is RST, and what it keeps it copies. -/
theorem resetInputEntersUninit : Obligations.ResetInputEntersUninit :=
  ⟨rfl, fun _ _ h => ⟨_, step_of_action h, rfl, rfl, rfl, rfl, rfl, rfl⟩⟩

/-- RST on the machine after reset changes nothing. -/
theorem reset_assertReset : State.reset.assertReset = State.reset := rfl

/-- An equal-tempered frequency is a positive multiple of a power of two. -/
theorem reset_frequency_pos (n : Fin 128) : 0 < State.reset.params.freq[n].toReal := by
  have hfreq := defaultFrequenciesAreEqualTempered n.val n.isLt
  calc (0 : ℝ) < 440 * (2 : ℝ) ^ (((n.val : ℝ) - 69) / 12) := by positivity
    _ = State.reset.params.freq[n].toReal := hfreq.symm

/-- Settles O59: the pool is the one RST leaves, no voice is active and no block is open; the
parameters are the defaults. -/
theorem resetSatisfiesTheEngineInvariant : Obligations.ResetSatisfiesTheEngineInvariant where
  pool := reset_assertReset ▸ assertReset_poolInv State.reset
  voices := nofun
  cursor := le_rfl
  rate h := absurd rfl h
  snap := nofun
  outlCanonical := rfl
  outrCanonical := rfl
  frequencies := reset_frequency_pos
  attackLevel := Rat.cast_one.ge
  exactNum := rfl

/-! ## Zero-length stages (R269) -/

/-- Settles O42: the first tick is the attack's crossing, and SUSTAIN is reached after
`(0 + 1) + (0 + 1)` ticks (41_envelope.md R147). -/
theorem zeroDurationsReachSustainInTwoTicks : Obligations.ZeroDurationsReachSustainInTwoTicks := by
  intro v hs h0 hattack hhold hdecay hpos
  obtain ⟨-, hstatus, -, hlevel⟩ := attackLastsDurationPlusOneTicks v hs h0
  obtain ⟨-, hsustains, -⟩ := reachesSustainAt_of_attack h0 hs
  obtain ⟨hsustain, hsustainLevel, -⟩ := hsustains hpos 0
  rw [hattack, hhold] at hstatus
  rw [hattack] at hlevel
  rw [hattack, hhold, hdecay] at hsustain hsustainLevel
  exact ⟨hstatus, hlevel, hsustain, hsustainLevel⟩

end Sys2Proof.Machine
end
